-- ==== Sys2Proof/Word.lean ====
section
/-! DEFINITION. The words of HCB: the 32-bit register and command word, and the element words of the four buffers.
Bit 0 is the least significant bit of every register, element and word (spec/00_scope.md R10). -/

namespace Sys2Proof

/-- A register or a command word: 32 bits (spec/10_state.md R21, spec/30_encoding.md R70). DESIGN CHOICE (log entry 19): the value that a
host presents in a buffer write, or gets in a buffer read, is of this width too; spec/20_memory.md R51 gives it none. -/
abbrev Word := BitVec 32

/-- One HIST element: COUNT_BITS = 32 bits, unsigned (spec/00_scope.md R8, spec/10_state.md R33). -/
abbrev Count := BitVec 32

/-- One LEN element: LEN_BITS = 4 bits, unsigned (spec/00_scope.md R8, spec/10_state.md R34). -/
abbrev Len := BitVec 4

/-- One CODE element: CODE_BITS = 16 bits, unsigned (spec/00_scope.md R8, spec/10_state.md R35). -/
abbrev CodeWord := BitVec 16

/-- One TOK element in the TOK16 layout: 16 bits (spec/10_state.md R36, spec/30_encoding.md R80). -/
abbrev TokWord := BitVec 16

/-- A byte of a platform's bus, used by the reference host map only (spec/30_encoding.md R90). -/
abbrev Byte := BitVec 8

/-- The four element-addressed buffers of spec/20_memory.md R50 (the fifth space, REG, is addressed by register number). -/
inductive Space where
  | hist
  | len
  | code
  | tok
  deriving DecidableEq, Repr

end Sys2Proof
end

