-- ==== Sys2Proof/Config.lean ====
section
/-! DEFINITION. What an implementation of HCB fixes (the OPEN parameters of spec/00_scope.md R8, held in State as read-only
data, log entry 1), the constants R8 fixes, and the model's one free value (log entry 4). -/

namespace Sys2Proof.Config

/-- A platform's flat byte map of the five spaces: one base address each.
It is one value of the open parameter HOST_MAP (spec/30_encoding.md R90, spec/20_memory.md R56). -/
structure HostMap where
  regBase : Nat
  histBase : Nat
  lenBase : Nat
  codeBase : Nat
  tokBase : Nat
  deriving DecidableEq, Repr

/-- The OPEN parameters of spec/00_scope.md R8. "A model takes the ones marked OPEN as arguments."
`hostMap` is HOST_MAP (spec/20_memory.md R56: "if they are mapped at all"), `none` for a platform that maps no bytes. -/
structure Params where
  /-- MAX_SYMS, at least 1 (`Params.legal`): number of elements of each of HIST, LEN, CODE, and the largest legal N. -/
  maxSyms : Nat
  /-- TOK_ENTRIES, at least 1 (`Params.legal`): number of elements of TOK, and the largest legal MAXTOK. -/
  tokEntries : Nat
  /-- ARENA_NODES: capacity of the tree node arena, in nodes. -/
  arenaNodes : Nat
  /-- SCRATCH_BITS: capacity of the GOOD scratch array, in bits. -/
  scratchBits : Nat
  hostMap : Option HostMap
  deriving DecidableEq, Repr

/-- The bounds R8 puts on the open sizes: MAX_SYMS and TOK_ENTRIES are "OPEN, at least 1". ARENA_NODES and SCRATCH_BITS are open without
a bound. -/
abbrev Params.legal (p : Params) : Prop := 1 ≤ p.maxSyms ∧ 1 ≤ p.tokEntries

/-- MAX_CODE_LENGTH (spec/00_scope.md R8). -/
def maxCodeLength : Nat := 15

/-- SENTINEL_PREV, the seed of the TTE previous-value tracker (spec/00_scope.md R8, spec/90_conflicts.md C1). -/
def sentinelPrev : Len := 8

/-- The greatest number of attempts of the retry loop for 32-bit counts (spec/70_reset_and_hazards.md R250: "at most 33"). -/
def maxAttempts : Nat := 33

/-- The parameters of the model's reset state (log entry 1, DESIGN CHOICE): R8 leaves them open.
They are the sizes R8 gives as an example and as making FAIL impossible; every statement quantifies over all parameters (those with
`Inv` over all that are `Params.legal`). -/
def resetParams : Params :=
  { maxSyms := 256, tokEntries := 256, arenaNodes := 766, scratchBits := 256, hostMap := none }

/-- FREE VALUE (log entry 4): what the host reads from an element that nothing has written since the reset numbered `epoch`.
spec/10_state.md R42 leaves every buffer element unspecified after reset.
One value per element and reset, because reads are idempotent (spec/20_memory.md R55).
It has no body: nothing can be proved of which value it is. -/
opaque freeElement (epoch : Nat) (space : Space) (index : Nat) : Word

end Sys2Proof.Config
end

