-- ==== Sys2Proof/Machine/State.lean ====
section
/-! DEFINITION. The state of HCB as plain data: the register file (spec/10_state.md R21 to R31), PHASE (R30), the four buffers
(R33 to R36), and, apart from the block, the model's own fields: the host's pending transactions, the values its reads returned,
the number of resets, and the reference expander of spec/43_tokenizer.md R186.
The arena, GOOD and the transient scalars (R37 to R39) live inside one command ("its content before the command and after it is
not state") and a command is one atomic transition (spec/20_memory.md R58), so no state between two steps holds them. -/

namespace Sys2Proof.Machine

/-- PHASE, what stands in the place of a program counter (spec/10_state.md R30). -/
inductive Phase where
  | idle
  | opt
  | build
  | assign
  | tokenize
  | faulted
  deriving DecidableEq, Repr

/-- A buffer of `w`-bit elements as (index, element) pairs in one canonical form: indices strictly rising.
An unlisted index holds no value (spec/10_state.md R42: "a model gives an element no value until the host or a command writes it"). -/
abbrev Buf (w : Nat) := List (Nat × BitVec w)

/-- One move of the outside world. The first four are the host's whole interface (spec/30_encoding.md R91), `reset` is the reset
input (spec/70_reset_and_hazards.md R240), the bus moves are the same transactions on a platform's byte map (R90), and the last
two drive the reference expander, which is no part of the block (spec/43_tokenizer.md R186). -/
inductive HostMove where
  /-- `WR reg, v`. A write to register 0, CMD, presents a command word (spec/30_encoding.md R71). -/
  | writeReg (reg : Nat) (v : Word)
  /-- `RD reg`. -/
  | readReg (reg : Nat)
  /-- `WRB space[i], v`. DESIGN CHOICE (log entry 19): `v` has 32 bits, the widest element; spec/20_memory.md R51 gives a host's value no
  width. -/
  | writeElem (space : Space) (i : Nat) (v : Word)
  /-- `RDB space[i]`. -/
  | readElem (space : Space) (i : Nat)
  /-- A store of the bytes `data`, lowest address first, at byte address `addr` of the platform's map. -/
  | busWrite (addr : Nat) (data : List Byte)
  /-- A load of `size` bytes at byte address `addr` of the platform's map. -/
  | busRead (addr size : Nat)
  /-- The reset input `rst`. -/
  | reset
  /-- One token word is presented to the reference expander. -/
  | token (w : TokWord)
  /-- The reference expander starts a new stream: `out <- []`, `prev <- 8`. -/
  | startExpander
  deriving DecidableEq, Repr

/-- What stops the machine. HCB's own FAULT is not here: its entry is described by spec/60_exceptions.md R220 and is a next state. -/
inductive Fault where
  /-- Raised by BUILD and BUILDCODES when the retry loop of spec/41_builder.md R132 has made the 33 attempts of
  spec/70_reset_and_hazards.md R250 and none was accepted. A stuck state; R250 says it is never reached
  (`Laws/Builder.lean` proves it). Safe: the model stops. -/
  | retryBoundExceeded
  deriving DecidableEq, Repr

/-- The inputs to which the spec gives no meaning and which "a model refuses" (spec/00_scope.md R12). Each is safe: the model stops. -/
inductive Refusal where
  /-- An instruction that has no meaning yet. -/
  | notModelled (mnemonic : String)
  /-- Raised by every command that reads an element nothing has written since reset (spec/20_memory.md R62,
  spec/93_implementation_defined.md U7: "refuse"). Safe. -/
  | unwrittenElement (space : Space) (index : Nat)
  /-- Raised by ASSIGN on lengths whose Kraft sum exceeds 1 (spec/42_assigner.md R158, U5: "refuse"). Safe. -/
  | kraftAboveOne
  /-- Raised by a CMD write, or a host access to a buffer or to N, DLIM or MAXTOK, while STATUS.BUSY = 1
  (spec/20_memory.md R58, U6: "refuse"). Safe. -/
  | hostAccessWhileBusy
  /-- Raised by the reference expander on a token word that is no legal token (U10: "refuse"). Safe. -/
  | reservedToken
  deriving DecidableEq, Repr

structure State where
  /-- The OPEN parameters of spec/00_scope.md R8: read-only, no step changes them. -/
  params : Config.Params
  /-- Register 1, STATUS (R26). -/
  status : Word
  /-- Register 2, CAUSE (R28). -/
  cause : Word
  /-- Register 3, N (R22). -/
  n : Word
  /-- Register 4, DLIM: its four writable bits, bits 31:4 are hardwired to 0 (R23). -/
  dlim : BitVec 4
  /-- Register 5, MAXTOK (R24). -/
  maxtok : Word
  /-- Register 6, TOKCNT (R29). -/
  tokcnt : Word
  /-- Register 7, CMIN (R31). -/
  cmin : Word
  /-- PHASE (R30). -/
  phase : Phase
  /-- Buffer HIST (R33). -/
  hist : Buf 32
  /-- Buffer LEN (R34). -/
  len : Buf 4
  /-- Buffer CODE (R35). -/
  code : Buf 16
  /-- Buffer TOK (R36). -/
  tok : Buf 16
  /-- The model's own: the host's transactions still to come, next one first. -/
  host : List HostMove
  /-- The model's own: the values the host's reads returned, latest first. -/
  reads : List Word
  /-- The model's own: resets so far, the counter that `Config.freeElement` is applied to. -/
  epoch : Nat
  /-- The reference expander's `out` (spec/43_tokenizer.md R186). -/
  expOut : List Len
  /-- The reference expander's `prev` (R186). -/
  expPrev : Len
  deriving DecidableEq, Repr

/-- The machine after reset (spec/10_state.md R42): every register 0, PHASE IDLE, no buffer element holds a value.
The model's own fields are empty, the expander is at the start of a stream (log entries 1, 3 and 5). -/
def State.reset : State :=
  { params := Config.resetParams
    status := 0, cause := 0, n := 0, dlim := 0, maxtok := 0, tokcnt := 0, cmin := 0
    phase := .idle
    hist := [], len := [], code := [], tok := []
    host := [], reads := [], epoch := 0
    expOut := [], expPrev := Config.sentinelPrev }

end Sys2Proof.Machine
end

