-- ==== Sys2Proof/Machine/Flags.lean ====
section
/-! DEFINITION. STATUS and CAUSE: the five STATUS bits (spec/10_state.md R26), the words a command's end writes
(spec/60_exceptions.md R211) and the cause codes (R212). -/

namespace Sys2Proof.Machine

/-- STATUS bit 0, BUSY. -/
def State.busy (s : State) : Bool := s.status.getLsbD 0
/-- STATUS bit 1, DONE. -/
def State.done (s : State) : Bool := s.status.getLsbD 1
/-- STATUS bit 2, OK, "the whole of the failure interface" (spec/10_state.md R27). -/
def State.ok (s : State) : Bool := s.status.getLsbD 2
/-- STATUS bit 3, ALLZERO. -/
def State.allZero (s : State) : Bool := s.status.getLsbD 3
/-- STATUS bit 4, FAULT. -/
def State.fault (s : State) : Bool := s.status.getLsbD 4

/-- The causes of spec/60_exceptions.md R212 (codes 6 and 7 are reserved and never written). -/
inductive Cause where
  | none
  | alloc
  | assertSize
  | assertTokens
  | illegalCmd
  | badOperand
  deriving DecidableEq, Repr

/-- The cause codes of spec/60_exceptions.md R212. -/
def causeCode : Cause → Word
  | .none => 0
  | .alloc => 1
  | .assertSize => 2
  | .assertTokens => 3
  | .illegalCmd => 4
  | .badOperand => 5

/-- STATUS when a command is accepted: BUSY alone (spec/30_encoding.md R71). -/
def statusBusy : Word := 0x00000001

/-- STATUS after success: DONE, OK, and ALLZERO for an all-zero histogram (spec/60_exceptions.md R211). -/
def statusSuccess (allZero : Bool) : Word := if allZero then 0x0000000E else 0x00000006

/-- STATUS after FAIL: DONE alone (spec/60_exceptions.md R211). -/
def statusFail : Word := 0x00000002

/-- STATUS in the FAULT state (spec/60_exceptions.md R211, R220). -/
def statusFault : Word := 0x00000010

end Sys2Proof.Machine
end

