-- ==== Sys2Proof/Machine/Ops.lean ====
section
/-! DEFINITION. The named operations: reads and writes of buffer elements in canonical form (spec/20_memory.md R50 to R55), the
start and the three ends of a command (spec/30_encoding.md R71, spec/60_exceptions.md R210 to R220), the FAULT entry, and reset,
the only way out of it. -/

namespace Sys2Proof.Machine

/-! ### Buffers -/

/-- Element `i` of a buffer, `none` where nothing has written it since reset (spec/10_state.md R42). -/
def bufGet {w : Nat} (i : Nat) : Buf w → Option (BitVec w)
  | [] => none
  | (j, v) :: rest => if j = i then some v else bufGet i rest

/-- `B[i] <- v`: one whole element is written (spec/20_memory.md R51, R55); the indices stay strictly rising. -/
def bufSet {w : Nat} (i : Nat) (v : BitVec w) : Buf w → Buf w
  | [] => [(i, v)]
  | (j, x) :: rest =>
    if i < j then (i, v) :: (j, x) :: rest
    else if i = j then (i, v) :: rest
    else (j, x) :: bufSet i v rest

/-- `B[i], B[i+1], … <- vs`, in ascending order. -/
def bufSetFrom {w : Nat} (i : Nat) : List (BitVec w) → Buf w → Buf w
  | [], b => b
  | v :: vs, b => bufSetFrom (i + 1) vs (bufSet i v b)

/-- The canonical form of a buffer of `size` elements: indices strictly rising, each below `size`. -/
abbrev Buf.wf {w : Nat} (size : Nat) (b : Buf w) : Prop :=
  b.Pairwise (fun p q => p.1 < q.1) ∧ ∀ p ∈ b, p.1 < size

/-- `B[i], …, B[i+k-1]` read in ascending order; the error is the first index that holds no value (spec/20_memory.md R62). -/
def bufRead {w : Nat} (b : Buf w) : Nat → Nat → Except Nat (List (BitVec w))
  | _, 0 => .ok []
  | i, k + 1 =>
    match bufGet i b with
    | none => .error i
    | some v =>
      match bufRead b (i + 1) k with
      | .error j => .error j
      | .ok vs => .ok (v :: vs)

/-! ### The course of a command -/

/-- PHASE moves to a unit (spec/44_sequencer.md R201). -/
def enterPhase (p : Phase) (s : State) : State := { s with phase := p }

/-- How a unit's work ends: the three outcomes of spec/60_exceptions.md R210, a refusal (the spec gives the input no meaning), or
a stop of the model. A state here is the one in which the unit stopped, its writes made, STATUS not yet written. -/
inductive UnitEnd where
  | success (allZero : Bool) (s : State)
  | fail (c : Cause) (s : State)
  | fault (c : Cause) (s : State)
  | refused (r : Refusal)
  | stopped (f : Fault)

/-- The next phase of BUILDCODES runs only after success (short-circuit, spec/44_sequencer.md R202). -/
def UnitEnd.andThen (e : UnitEnd) (next : Bool → State → UnitEnd) : UnitEnd :=
  match e with
  | .success z s => next z s
  | .fail c s => .fail c s
  | .fault c s => .fault c s
  | .refused r => .refused r
  | .stopped f => .stopped f

/-- Acceptance: STATUS gets BUSY alone and CAUSE is cleared (spec/30_encoding.md R71). -/
def acceptCommand (s : State) : State := { s with status := statusBusy, cause := causeCode .none }

/-- The end of a command in success (spec/60_exceptions.md R211). -/
def endSuccess (allZero : Bool) (s : State) : State :=
  { s with status := statusSuccess allZero, cause := causeCode .none, phase := .idle }

/-- FAIL: "STATUS and CAUSE are written as rule R211 says; PHASE returns to IDLE" (spec/60_exceptions.md R215). -/
def endFail (c : Cause) (s : State) : State :=
  { s with status := statusFail, cause := causeCode c, phase := .idle }

/-- TAKING A FAULT, the one exception of the block (spec/60_exceptions.md R220): STATUS, CAUSE and PHASE are written, nothing else. -/
def raiseFault (c : Cause) (s : State) : State :=
  { s with status := statusFault, cause := causeCode c, phase := .faulted }

/-- Reset, the only way out of the FAULT state (spec/70_reset_and_hazards.md R240): every register 0, PHASE IDLE, no buffer
element holds a value, and the unwritten elements are new free values (log entry 4).
What is not the block's (its parameters, the host's moves and reads, the reference expander) stays. -/
def resetBlock (s : State) : State :=
  { s with
    status := 0, cause := 0, n := 0, dlim := 0, maxtok := 0, tokcnt := 0, cmin := 0
    phase := .idle
    hist := [], len := [], code := [], tok := []
    epoch := s.epoch + 1 }

/-- The end of a command as an outcome of the machine. -/
def finish : UnitEnd → Host.Outcome State Fault Refusal
  | .success z s => .next (endSuccess z s)
  | .fail c s => .next (endFail c s)
  | .fault c s => .next (raiseFault c s)
  | .refused r => .refused r
  | .stopped f => .fault f

/-- A write of a legal command word to CMD (spec/30_encoding.md R71, priorities of spec/60_exceptions.md R228): ignored in the
FAULT state; no meaning while BUSY; else accepted, BAD_OPERAND raised before the command reads or writes any buffer (R224),
and the command's body run. -/
def runCommand (badOperand : Bool) (body : State → UnitEnd) (s : State) : Host.Outcome State Fault Refusal :=
  if s.phase = .faulted then .next s
  else if s.busy then .refused .hostAccessWhileBusy
  else if badOperand then finish (.fault .badOperand (acceptCommand s))
  else finish (body (acceptCommand s))

/-- A write of a reserved word to CMD (spec/30_encoding.md R71, R75): `Fault(ILLEGAL_CMD)` and no other effect. -/
def illegalCommand (s : State) : Host.Outcome State Fault Refusal :=
  if s.phase = .faulted then .next s
  else if s.busy then .refused .hostAccessWhileBusy
  else .next (raiseFault .illegalCmd s)

end Sys2Proof.Machine
end

