-- ==== Sys2Proof/Machine/Operands.lean ====
section
/-! DEFINITION. The operands: the registers as numbers ("read as an unsigned number from its register, whole, with no scaling,
shift or extension", spec/30_encoding.md R74), the register file and the buffers as the host sees them (spec/10_state.md R21 to R25,
spec/20_memory.md R51, R53), and the byte map of a platform (spec/30_encoding.md R90). -/

namespace Sys2Proof.Machine

/-! ### Operand registers, sampled at the CMD write (spec/20_memory.md R60) -/

/-- `n <- REG.N`. -/
def State.operandN (s : State) : Nat := s.n.toNat
/-- `d <- REG.DLIM`. -/
def State.operandD (s : State) : Nat := s.dlim.toNat
/-- `m <- REG.MAXTOK`. -/
def State.operandM (s : State) : Nat := s.maxtok.toNat

/-- `N > MAX_SYMS`: BAD_OPERAND for every command (spec/60_exceptions.md R212, R224). -/
def State.badN (s : State) : Bool := decide (s.params.maxSyms < s.operandN)
/-- `DLIM = 0`: BAD_OPERAND for BUILD and BUILDCODES. -/
def State.badD (s : State) : Bool := decide (s.operandD = 0)
/-- `MAXTOK > TOK_ENTRIES`: BAD_OPERAND for TOKENIZE. -/
def State.badM (s : State) : Bool := decide (s.params.tokEntries < s.operandM)

/-! ### The register file -/

/-- A host read of a register (spec/10_state.md R21): CMD reads 0, DLIM reads its four bits zero-extended (R23), a register number
of 8 and above does not exist and reads 0. -/
def readRegister (reg : Nat) (s : State) : Word :=
  match reg with
  | 1 => s.status
  | 2 => s.cause
  | 3 => s.n
  | 4 => s.dlim.setWidth 32
  | 5 => s.maxtok
  | 6 => s.tokcnt
  | 7 => s.cmin
  | _ => 0

/-- A host write of a register other than CMD (spec/10_state.md R21): N and MAXTOK keep all 32 bits, DLIM bits 3:0 (R23); a write
to a read-only register or to one that does not exist is ignored. -/
def writeRegister (reg : Nat) (v : Word) (s : State) : State :=
  match reg with
  | 3 => { s with n := v }
  | 4 => { s with dlim := v.setWidth 4 }
  | 5 => { s with maxtok := v }
  | _ => s

/-- The registers that belong to HCB while a command runs: N, DLIM, MAXTOK (spec/20_memory.md R58). -/
def ownedRegister (reg : Nat) : Bool := reg = 3 || reg = 4 || reg = 5

/-! ### The buffers as the host sees them -/

/-- Number of elements of a space (spec/20_memory.md R50). -/
def spaceSize (p : Config.Params) : Space → Nat
  | .hist => p.maxSyms
  | .len => p.maxSyms
  | .code => p.maxSyms
  | .tok => p.tokEntries

/-- Element `i` of a space, zero-extended (spec/20_memory.md R51), `none` where it holds no value. -/
def spaceGet (space : Space) (i : Nat) (s : State) : Option Word :=
  match space with
  | .hist => bufGet i s.hist
  | .len => (bufGet i s.len).map (BitVec.setWidth 32)
  | .code => (bufGet i s.code).map (BitVec.setWidth 32)
  | .tok => (bufGet i s.tok).map (BitVec.setWidth 32)

/-- A value as wide as an element of the space, zero-extended: `v[31:0]`, `v[3:0]`, `v[15:0]`, `v[15:0]` (spec/20_memory.md R51).
For HIST that is the value itself, since a host value has 32 bits in this model (DESIGN CHOICE, log entry 19). -/
def truncateTo (space : Space) (v : Word) : Word :=
  match space with
  | .hist => v
  | .len => (v.setWidth 4).setWidth 32
  | .code => (v.setWidth 16).setWidth 32
  | .tok => (v.setWidth 16).setWidth 32

/-- A host read of an element: 0 at an index at or above the size of the space (spec/20_memory.md R53); an element that holds no
value reads as a free value of its width (log entry 4). -/
def readElement (space : Space) (i : Nat) (s : State) : Word :=
  if i < spaceSize s.params space then
    (spaceGet space i s).getD (truncateTo space (Config.freeElement s.epoch space i))
  else 0

/-- A host write of an element keeps the low bits (spec/20_memory.md R51) and is ignored at an index at or above the size of the
space (R53). -/
def writeElement (space : Space) (i : Nat) (v : Word) (s : State) : State :=
  if i < spaceSize s.params space then
    match space with
    | .hist => { s with hist := bufSet i v s.hist }
    | .len => { s with len := bufSet i (v.setWidth 4) s.len }
    | .code => { s with code := bufSet i (v.setWidth 16) s.code }
    | .tok => { s with tok := bufSet i (v.setWidth 16) s.tok }
  else s

/-- The canonical form of all four buffers (spec/20_memory.md R50 gives their sizes). -/
abbrev Memory.wf (s : State) : Prop :=
  Buf.wf s.params.maxSyms s.hist ∧ Buf.wf s.params.maxSyms s.len ∧
  Buf.wf s.params.maxSyms s.code ∧ Buf.wf s.params.tokEntries s.tok

/-! ### The byte map of a platform (spec/30_encoding.md R90) -/

/-- Bytes per element of a space in the reference map. -/
def elementBytes : Space → Nat
  | .hist => 4
  | .len => 1
  | .code => 2
  | .tok => 2

/-- Base address of a space in a map. -/
def spaceBase (m : Config.HostMap) : Space → Nat
  | .hist => m.histBase
  | .len => m.lenBase
  | .code => m.codeBase
  | .tok => m.tokBase

/-- The element of a range (`count` elements of `size` bytes from `base`) that an access of `bytes` bytes at `addr` is:
the access must be of the element's size and at an element boundary. -/
def elementAt (base size count addr bytes : Nat) : Option Nat :=
  if bytes = size ∧ base ≤ addr ∧ (addr - base) % size = 0 ∧ (addr - base) / size < count then some ((addr - base) / size)
  else none

/-- Two byte ranges (base, length) share no address. -/
abbrev rangesApart (base1 len1 base2 len2 : Nat) : Prop := base1 + len1 ≤ base2 ∨ base2 + len2 ≤ base1

/-- Bytes a space takes in the map. -/
def spaceBytes (p : Config.Params) (space : Space) : Nat := elementBytes space * spaceSize p space

/-- "The five ranges disjoint" (spec/30_encoding.md R90): the REG range is 32 bytes. -/
abbrev hostMapDisjoint (p : Config.Params) (m : Config.HostMap) : Prop :=
  (∀ space ∈ [Space.hist, .len, .code, .tok], rangesApart m.regBase 32 (spaceBase m space) (spaceBytes p space)) ∧
  ([Space.hist, .len, .code, .tok].Pairwise fun a b =>
    rangesApart (spaceBase m a) (spaceBytes p a) (spaceBase m b) (spaceBytes p b))

/-- The value of bytes stored lowest address first (little-endian). -/
def littleEndian : List Byte → Nat
  | [] => 0
  | b :: rest => b.toNat + 256 * littleEndian rest

/-- What a byte access is: a register, an element, or no HCB access. -/
inductive BusTarget where
  | register (reg : Nat)
  | element (space : Space) (i : Nat)
  | other
  deriving DecidableEq, Repr

/-- The target of an access of `bytes` bytes at `addr` in a map (spec/30_encoding.md R90: "any other is not an HCB access"). -/
def busTarget (p : Config.Params) (addr bytes : Nat) : BusTarget :=
  match p.hostMap with
  | none => .other
  | some m =>
    let tryElement (space : Space) (otherwise : BusTarget) : BusTarget :=
      match elementAt (spaceBase m space) (elementBytes space) (spaceSize p space) addr bytes with
      | some i => .element space i
      | none => otherwise
    match elementAt m.regBase 4 8 addr bytes with
    | some reg => .register reg
    | none => tryElement .hist (tryElement .len (tryElement .code (tryElement .tok .other)))

/-- A bus move as the transaction it is; `none` where it is no HCB access. Every other move is itself. -/
def resolveMove (p : Config.Params) : HostMove → Option HostMove
  | .busWrite addr data =>
    match busTarget p addr data.length with
    | .register reg => some (.writeReg reg (BitVec.ofNat 32 (littleEndian data)))
    | .element space i => some (.writeElem space i (BitVec.ofNat 32 (littleEndian data)))
    | .other => none
  | .busRead addr size =>
    match busTarget p addr size with
    | .register reg => some (.readReg reg)
    | .element space i => some (.readElem space i)
    | .other => none
  | .writeReg reg v => some (.writeReg reg v)
  | .readReg reg => some (.readReg reg)
  | .writeElem space i v => some (.writeElem space i v)
  | .readElem space i => some (.readElem space i)
  | .reset => some .reset
  | .token w => some (.token w)
  | .startExpander => some .startExpander

end Sys2Proof.Machine
end

