-- ==== Sys2Proof/Machine/Assigner.lean ====
section
/-! DEFINITION. ASSIGN, the canonical code assigner (unit CCA, spec/42_assigner.md): counts per length, the first code of each
length, the codes in symbol order, each reversed within its own length. -/

namespace Sys2Proof.Machine

/-! ### The canonical code -/

/-- `depth_count[d]`: the number of symbols of length `d`, taken as 0 for `d = 0` (spec/42_assigner.md R152). -/
def depthCount (lens : List Nat) (d : Nat) : Nat := if d = 0 then 0 else lens.count d

/-- `next_code[d]` before any code is assigned: `next_code[d] = (next_code[d-1] + depth_count[d-1]) << 1`
(spec/42_assigner.md R153). -/
def firstCode (lens : List Nat) : Nat → Nat
  | 0 => 0
  | d + 1 => (firstCode lens d + depthCount lens d) * 2

/-- The sixteen `next_code` registers before any code is assigned. -/
def firstCodes (lens : List Nat) : List Nat := (List.range 16).map (firstCode lens)

/-- The assign pass (spec/42_assigner.md R154) over the lengths of the symbols still to come: the canonical code of each symbol of
positive length, none for length 0. `next` holds `next_code[0 .. 15]`. -/
def canonicalFrom : List Nat → List Nat → List (Option Nat)
  | _, [] => []
  | next, l :: rest =>
    if l = 0 then none :: canonicalFrom next rest
    else some (next.getD l 0) :: canonicalFrom (next.set l (next.getD l 0 + 1)) rest

/-- The canonical code `c` of every symbol, before reversal. -/
def canonicalCodes (lens : List Nat) : List (Option Nat) := canonicalFrom (firstCodes lens) lens

/-! ### The bit reversal -/

/-- `rev(l, c) = sum over j in 0 .. l-1 of c[l-1-j] * 2^j` (spec/42_assigner.md R155). -/
def revBits (l c : Nat) : Nat := ((List.range l).map fun j => (c.testBit (l - 1 - j)).toNat * 2 ^ j).sum

/-- The constant table REVNIB (spec/42_assigner.md R156). -/
def revNib : List Nat := [0x0, 0x8, 0x4, 0xC, 0x2, 0xA, 0x6, 0xE, 0x1, 0x9, 0x5, 0xD, 0x3, 0xB, 0x7, 0xF]

/-- The loop of spec/42_assigner.md R156: `i` is the number of bits reversed so far, `b` what is left of the code, `r` the 16-bit
intermediate. Four turns cover every length up to 15. -/
def revNibbleLoop (l : Nat) : Nat → Nat → Nat → Nat → Nat
  | 0, _, _, r => r
  | fuel + 1, i, b, r =>
    if i < l then revNibbleLoop l fuel (i + 4) (b / 16) (r ||| (revNib.getD (b % 16) 0 <<< (16 - (i + 4)))) else r

/-- The nibble composition of `rev(l, c)` (spec/42_assigner.md R156). -/
def revByNibbles (l c : Nat) : Nat := revNibbleLoop l 4 0 c 0 >>> (16 - l)

/-! ### The command -/

/-- `sum of 2^(-LEN[i])` over the positive lengths, scaled by `2^15` (spec/42_assigner.md R158). -/
def kraftScaled (lens : List Nat) : Nat := (lens.map fun l => if l = 0 then 0 else 2 ^ (15 - l)).sum

/-- The precondition of spec/42_assigner.md R158: the Kraft sum is at most 1. -/
def kraftAtMostOne (lens : List Nat) : Bool := decide (kraftScaled lens ≤ 2 ^ 15)

/-- `CODE[i] <- zext_16(rev(l, c))` for every symbol from `i` on that has a code (spec/42_assigner.md R150, R157): the other elements
keep what they held. `lens` and `codes` run side by side. -/
def writeCodes (i : Nat) : List Nat → List (Option Nat) → Buf 16 → Buf 16
  | l :: lens, some c :: codes, b => writeCodes (i + 1) lens codes (bufSet i (BitVec.ofNat 16 (revBits l c)) b)
  | _ :: lens, none :: codes, b => writeCodes (i + 1) lens codes b
  | _, _, b => b

/-- The body of ASSIGN (spec/42_assigner.md R150). "A model refuses ASSIGN" on lengths whose Kraft sum exceeds 1 (R158). -/
def runAssign (n : Nat) (s : State) : UnitEnd :=
  match bufRead s.len 0 n with
  | .error i => .refused (.unwrittenElement .len i)
  | .ok elems =>
    let lens := elems.map BitVec.toNat
    if kraftAtMostOne lens then
      .success false { s with code := writeCodes 0 lens (canonicalCodes lens) s.code }
    else .refused .kraftAboveOne

/-- ASSIGN (spec/42_assigner.md R150, R151). -/
def execAssign (s : State) : Host.Outcome State Fault Refusal :=
  runCommand s.badN (fun t => runAssign s.operandN (enterPhase .assign t)) s

end Sys2Proof.Machine
end

