-- ==== Sys2Proof/Machine/Builder.lean ====
section
/-! DEFINITION. BUILD, the length-limited Huffman builder (unit LLB, spec/41_builder.md): the node arena as a live list and a pool
(spec/10_state.md R37), one attempt at a floor `count_min`, and the retry loop. -/

namespace Sys2Proof.Machine

/-! ### The arena -/

/-- A tree node (spec/10_state.md R37): `symbol` is -1 for an internal node, the child indices are pool indices. -/
structure Node where
  weight : Nat
  symbol : Int
  leftIndex : Option Nat
  rightIndex : Option Nat
  deriving DecidableEq, Repr

/-- The leaf of symbol `sym` (spec/41_builder.md R125, R126). -/
def leafNode (weight sym : Nat) : Node :=
  { weight := weight, symbol := sym, leftIndex := none, rightIndex := none }

/-- The symbols with nonzero count, ascending, from symbol `i` on, each with its count (spec/41_builder.md R122). -/
def nonzeroFrom (i : Nat) : List Nat → List (Nat × Nat)
  | [] => []
  | c :: rest => if c = 0 then nonzeroFrom (i + 1) rest else (i, c) :: nonzeroFrom (i + 1) rest

/-- `nz` (spec/41_builder.md R122), each symbol with its count. -/
def nonzeroSymbols (hist : List Nat) : List (Nat × Nat) := nonzeroFrom 0 hist

/-! ### One attempt -/

/-- Node `x` stands before node `y`: higher weight first, among equal weights higher symbol first (spec/41_builder.md R127). -/
def standsBefore (x y : Node) : Bool :=
  decide (y.weight < x.weight ∨ (x.weight = y.weight ∧ y.symbol < x.symbol))

/-- Insertion of a leaf into a list sorted by `standsBefore`. -/
def insertLeaf (x : Node) : List Node → List Node
  | [] => [x]
  | y :: rest => if standsBefore x y then x :: y :: rest else y :: insertLeaf x rest

/-- The live list sorted as spec/41_builder.md R127 says ("the order is total and the sorting method does not matter"). -/
def sortLive (leaves : List Node) : List Node := leaves.foldr insertLeaf []

/-- `max(HIST[s], count_min)` for every symbol of `nz`, sorted (spec/41_builder.md R125 to R127). -/
def initialLive (nz : List (Nat × Nat)) (countMin : Nat) : List Node :=
  sortLive (nz.map fun p => leafNode (max p.2 countMin) p.1)

/-- `list.pop_tail()` (spec/00_scope.md R11): the list without its last element, and that element. -/
def popTail {α : Type} : List α → Option (List α × α)
  | [] => none
  | [x] => some ([], x)
  | x :: y :: rest =>
    match popTail (y :: rest) with
    | none => none
    | some (init, last) => some (x :: init, last)

/-- The merged node is inserted at the first position whose weight is at most its own (spec/41_builder.md R129). -/
def insertMerged (x : Node) : List Node → List Node
  | [] => [x]
  | y :: rest => if y.weight ≤ x.weight then x :: y :: rest else y :: insertMerged x rest

/-- The merges of an attempt (spec/41_builder.md R128): `a` is popped first, then `b`; both are appended to the pool; `b` is the left
child and `a` the right. `fuel` merges at most; the attempt of `n_nz` leaves makes `n_nz - 1`. -/
def mergeAll : Nat → List Node → List Node → List Node × List Node
  | 0, live, pool => (live, pool)
  | fuel + 1, live, pool =>
    match popTail live with
    | none => (live, pool)
    | some (live1, a) =>
      match popTail live1 with
      | none => (live, pool)
      | some (live2, b) =>
        let merged : Node :=
          { weight := a.weight + b.weight, symbol := -1,
            leftIndex := some (pool.length + 1), rightIndex := some pool.length }
        mergeAll fuel (insertMerged merged live2) (pool ++ [a, b])

/-- `set_depths(node, level)` (spec/41_builder.md R130), the left subtree first. A node with no left index is a leaf.
`fuel` bounds the recursion, whose depth is at most `n_nz - 1`. -/
def setDepths (pool : List Node) : Nat → Node → Nat → List Nat → List Nat
  | 0, _, _, depth => depth
  | fuel + 1, node, level, depth =>
    match node.leftIndex, node.rightIndex with
    | some l, some r =>
      match pool[l]?, pool[r]? with
      | some left, some right =>
        setDepths pool fuel right (level + 1) (setDepths pool fuel left (level + 1) depth)
      | _, _ => depth
    | _, _ => depth.set node.symbol.toNat level

/-- One attempt at the floor `countMin` (spec/41_builder.md R126 to R131): the depth of every symbol `0 .. n-1`. -/
def attemptDepths (hist : List Nat) (countMin : Nat) : List Nat :=
  let nz := nonzeroSymbols hist
  let zeros := List.replicate hist.length 0
  let live := initialLive nz countMin
  match live with
  | [] => zeros
  | [leaf] => zeros.set leaf.symbol.toNat 1
  | _ =>
    let merged := mergeAll (nz.length - 1) live []
    match merged.1 with
    | root :: _ => setDepths merged.2 nz.length root 0 zeros
    | [] => zeros

/-- `max_i depth[i]`. -/
def maxDepth (depth : List Nat) : Nat := depth.foldr max 0

/-- The retry loop (spec/41_builder.md R132) from the floor `countMin` on: the accepted depths and their floor.
`fuel` is the number of attempts still allowed. -/
def retryLoop (hist : List Nat) (d : Nat) : Nat → Nat → Option (List Nat × Nat)
  | 0, _ => none
  | fuel + 1, countMin =>
    if maxDepth (attemptDepths hist countMin) ≤ d then some (attemptDepths hist countMin, countMin)
    else retryLoop hist d fuel (2 * countMin)

/-- Arena nodes an attempt needs: `n_nz` live and `2*(n_nz - 1)` pool (spec/41_builder.md R124). -/
def arenaNeed (nnz : Nat) : Nat := 3 * nnz - 2

/-! ### The command -/

/-- `LEN[0 .. n-1] <- depth` (spec/41_builder.md R133): every element, zero-count symbols included. -/
def writeLengths (depth : List Nat) (s : State) : State :=
  { s with len := bufSetFrom 0 (depth.map (BitVec.ofNat 4)) s.len }

/-- The body of BUILD (spec/41_builder.md R120): the order of the tests is all-zero, ASSERT_SIZE, ALLOC
(spec/60_exceptions.md R228). LEN and CMIN are written only at the end (R133, R143). -/
def runBuild (n d : Nat) (s : State) : UnitEnd :=
  match bufRead s.hist 0 n with
  | .error i => .refused (.unwrittenElement .hist i)
  | .ok counts =>
    let hist := counts.map BitVec.toNat
    let nnz := (nonzeroSymbols hist).length
    if nnz = 0 then .success true { writeLengths (List.replicate n 0) s with cmin := 0 }
    else if 2 ^ (d - 1) < nnz then .fault .assertSize s
    else if s.params.arenaNodes < arenaNeed nnz then .fail .alloc s
    else match retryLoop hist d Config.maxAttempts 1 with
      | none => .stopped .retryBoundExceeded
      | some (depth, countMin) => .success false { writeLengths depth s with cmin := BitVec.ofNat 32 countMin }

/-- BUILD (spec/41_builder.md R120, R121). -/
def execBuild (s : State) : Host.Outcome State Fault Refusal :=
  runCommand (s.badN || s.badD) (fun t => runBuild s.operandN s.operandD (enterPhase .build t)) s

end Sys2Proof.Machine
end

