-- ==== Sys2Proof/Syntax.lean ====
section
/-! DEFINITION. The instructions: one constructor per row of spec/opcode_table.json, in the table's order.
The five host commands carry no operand ("every operand is a named register or a named buffer fixed by the opcode",
spec/30_encoding.md R70). The nineteen tokens are the meta-alphabet of R80, the three escapes with their `extra_bits`. -/

namespace Sys2Proof

inductive Instr where
  /-- OPT, CMD32 word 0x00000001 (spec/40_optimizer.md R100). -/
  | opt
  /-- BUILD, CMD32 word 0x00000002 (spec/41_builder.md R120). -/
  | build
  /-- ASSIGN, CMD32 word 0x00000003 (spec/42_assigner.md R150). -/
  | assign
  /-- TOKENIZE, CMD32 word 0x00000004 (spec/43_tokenizer.md R170). -/
  | tokenize
  /-- BUILDCODES, CMD32 word 0x00000005 (spec/44_sequencer.md R200). -/
  | buildcodes
  /-- LIT0 to LIT15: literal tokens, one code length each (spec/30_encoding.md R81, R82). -/
  | lit0
  | lit1
  | lit2
  | lit3
  | lit4
  | lit5
  | lit6
  | lit7
  | lit8
  | lit9
  | lit10
  | lit11
  | lit12
  | lit13
  | lit14
  | lit15
  /-- REP, code 16: `extra + 3` copies of the previous nonzero value, extra 0 to 3 (R81). -/
  | rep (extra : Nat)
  /-- ZREP, code 17: `extra + 3` zeros, extra 0 to 7 (R81). -/
  | zrep (extra : Nat)
  /-- ZREPL, code 18: `extra + 11` zeros, extra 0 to 127 (R81). -/
  | zrepl (extra : Nat)
  deriving DecidableEq, Repr

end Sys2Proof
end

