-- ==== Sys2Proof/WellFormed.lean ====
section
/-! DEFINITION. Which terms of Instr are instructions of the spec: the `extra_bits` ranges of spec/30_encoding.md R81. -/

namespace Sys2Proof

/-- The largest `extra_bits` of each escape (spec/30_encoding.md R81): REP 3, ZREP 7, ZREPL 127. -/
def Instr.wellFormed : Instr → Bool
  | .rep extra => decide (extra ≤ 3)
  | .zrep extra => decide (extra ≤ 7)
  | .zrepl extra => decide (extra ≤ 127)
  | .opt => true
  | .build => true
  | .assign => true
  | .tokenize => true
  | .buildcodes => true
  | .lit0 => true
  | .lit1 => true
  | .lit2 => true
  | .lit3 => true
  | .lit4 => true
  | .lit5 => true
  | .lit6 => true
  | .lit7 => true
  | .lit8 => true
  | .lit9 => true
  | .lit10 => true
  | .lit11 => true
  | .lit12 => true
  | .lit13 => true
  | .lit14 => true
  | .lit15 => true

end Sys2Proof
end

