-- ==== Sys2Proof/Decode.lean ====
section
/-! DEFINITION. The decoder of the two encodings (CMD32 and TOK16), total, rejecting by name, and after it the encoder.
A command word and a token word never meet: a command is written to CMD as 32 bits, a token is one 16-bit element
(spec/30_encoding.md, opening), so each has its own decoder and `InstrWord` says which one a word is for. -/

namespace Sys2Proof

/-- Why a word is no instruction. -/
inductive Reject where
  /-- A command word with `RSV` (bits 31:4) not zero (spec/30_encoding.md R75). -/
  | reservedBits
  /-- A command word with `OP` 0 or 6 to 15 (R75). -/
  | reservedOp
  /-- A token word with a nonzero bit 15 or 7:5 (R80, R84). -/
  | reservedTokenBits
  /-- A token word with CODE above 18 (R84). -/
  | reservedTokenCode
  /-- A token word whose EXTRA is outside the range of R81 for its code (R84). -/
  | extraOutOfRange
  deriving DecidableEq, Repr

/-- A word of one of the two encodings. -/
inductive InstrWord where
  | command (w : Word)
  | token (w : TokWord)
  deriving DecidableEq, Repr

/-- The slice `w[hi:lo]` as a number (spec/00_scope.md R10). -/
def slice {width : Nat} (w : BitVec width) (hi lo : Nat) : Nat :=
  w.toNat / 2 ^ lo % 2 ^ (hi + 1 - lo)

/-- Command decode: `RSV` must be 0 and `OP` one of 1 to 5 (spec/30_encoding.md R70 to R72, R75). -/
def decodeCommand (w : Word) : Except Reject Instr :=
  if slice w 31 4 ≠ 0 then .error .reservedBits
  else match slice w 3 0 with
    | 1 => .ok .opt
    | 2 => .ok .build
    | 3 => .ok .assign
    | 4 => .ok .tokenize
    | 5 => .ok .buildcodes
    | _ => .error .reservedOp

/-- The token of a code 0 to 18 with its `extra_bits` (spec/30_encoding.md R81, R82). -/
def tokenOfFields (code extra : Nat) : Except Reject Instr :=
  let literal (i : Instr) : Except Reject Instr := if extra = 0 then .ok i else .error .extraOutOfRange
  let escape (i : Instr) : Except Reject Instr := if i.wellFormed then .ok i else .error .extraOutOfRange
  match code with
  | 0 => literal .lit0
  | 1 => literal .lit1
  | 2 => literal .lit2
  | 3 => literal .lit3
  | 4 => literal .lit4
  | 5 => literal .lit5
  | 6 => literal .lit6
  | 7 => literal .lit7
  | 8 => literal .lit8
  | 9 => literal .lit9
  | 10 => literal .lit10
  | 11 => literal .lit11
  | 12 => literal .lit12
  | 13 => literal .lit13
  | 14 => literal .lit14
  | 15 => literal .lit15
  | 16 => escape (.rep extra)
  | 17 => escape (.zrep extra)
  | 18 => escape (.zrepl extra)
  | _ => .error .reservedTokenCode

/-- Token decode, TOK16: bit 15 and bits 7:5 zero, EXTRA in bits 14:8, CODE in bits 4:0 (spec/30_encoding.md R80). -/
def decodeToken (w : TokWord) : Except Reject Instr :=
  if slice w 15 15 ≠ 0 ∨ slice w 7 5 ≠ 0 then .error .reservedTokenBits
  else tokenOfFields (slice w 4 0) (slice w 14 8)

def decode : InstrWord → Except Reject Instr
  | .command w => decodeCommand w
  | .token w => decodeToken w

/-- `TOK[k] = extra_bits * 256 + code` (spec/30_encoding.md R80). -/
def tokenWord (code extra : Nat) : TokWord := BitVec.ofNat 16 (extra * 256 + code)

/-- The word of an instruction, from the opcode map of spec/30_encoding.md R72 and the token code map of R81. -/
def encode : Instr → InstrWord
  | .opt => .command 0x00000001
  | .build => .command 0x00000002
  | .assign => .command 0x00000003
  | .tokenize => .command 0x00000004
  | .buildcodes => .command 0x00000005
  | .lit0 => .token (tokenWord 0 0)
  | .lit1 => .token (tokenWord 1 0)
  | .lit2 => .token (tokenWord 2 0)
  | .lit3 => .token (tokenWord 3 0)
  | .lit4 => .token (tokenWord 4 0)
  | .lit5 => .token (tokenWord 5 0)
  | .lit6 => .token (tokenWord 6 0)
  | .lit7 => .token (tokenWord 7 0)
  | .lit8 => .token (tokenWord 8 0)
  | .lit9 => .token (tokenWord 9 0)
  | .lit10 => .token (tokenWord 10 0)
  | .lit11 => .token (tokenWord 11 0)
  | .lit12 => .token (tokenWord 12 0)
  | .lit13 => .token (tokenWord 13 0)
  | .lit14 => .token (tokenWord 14 0)
  | .lit15 => .token (tokenWord 15 0)
  | .rep extra => .token (tokenWord 16 extra)
  | .zrep extra => .token (tokenWord 17 extra)
  | .zrepl extra => .token (tokenWord 18 extra)

/-- One row of spec/opcode_table.json as data: the width of its word, its mask and its pattern. -/
structure OpcodeRow where
  mnemonic : String
  nbits : Nat
  mask : Nat
  pattern : Nat
  deriving DecidableEq, Repr

/-- The command rows (format CMD32) of spec/opcode_table.json. -/
def commandRows : List OpcodeRow :=
  [⟨"OPT", 32, 0xFFFFFFFF, 0x00000001⟩, ⟨"BUILD", 32, 0xFFFFFFFF, 0x00000002⟩, ⟨"ASSIGN", 32, 0xFFFFFFFF, 0x00000003⟩,
   ⟨"TOKENIZE", 32, 0xFFFFFFFF, 0x00000004⟩, ⟨"BUILDCODES", 32, 0xFFFFFFFF, 0x00000005⟩]

/-- The token rows (format TOK16) of spec/opcode_table.json. -/
def tokenRows : List OpcodeRow :=
  [⟨"LIT0", 16, 0xFFFF, 0x0000⟩, ⟨"LIT1", 16, 0xFFFF, 0x0001⟩, ⟨"LIT2", 16, 0xFFFF, 0x0002⟩, ⟨"LIT3", 16, 0xFFFF, 0x0003⟩,
   ⟨"LIT4", 16, 0xFFFF, 0x0004⟩, ⟨"LIT5", 16, 0xFFFF, 0x0005⟩, ⟨"LIT6", 16, 0xFFFF, 0x0006⟩, ⟨"LIT7", 16, 0xFFFF, 0x0007⟩] ++
  [⟨"LIT8", 16, 0xFFFF, 0x0008⟩, ⟨"LIT9", 16, 0xFFFF, 0x0009⟩, ⟨"LIT10", 16, 0xFFFF, 0x000A⟩, ⟨"LIT11", 16, 0xFFFF, 0x000B⟩,
   ⟨"LIT12", 16, 0xFFFF, 0x000C⟩, ⟨"LIT13", 16, 0xFFFF, 0x000D⟩, ⟨"LIT14", 16, 0xFFFF, 0x000E⟩, ⟨"LIT15", 16, 0xFFFF, 0x000F⟩] ++
  [⟨"REP", 16, 0xFCFF, 0x0010⟩, ⟨"ZREP", 16, 0xF8FF, 0x0011⟩, ⟨"ZREPL", 16, 0x80FF, 0x0012⟩]

/-- A word is an instance of a row: `word & mask = pattern`. -/
def OpcodeRow.matchesWord (row : OpcodeRow) (w : Nat) : Bool := w &&& row.mask == row.pattern

/-- The row's mnemonic in spec/opcode_table.json. -/
def mnemonicOf : Instr → String
  | .opt => "OPT"
  | .build => "BUILD"
  | .assign => "ASSIGN"
  | .tokenize => "TOKENIZE"
  | .buildcodes => "BUILDCODES"
  | .lit0 => "LIT0"
  | .lit1 => "LIT1"
  | .lit2 => "LIT2"
  | .lit3 => "LIT3"
  | .lit4 => "LIT4"
  | .lit5 => "LIT5"
  | .lit6 => "LIT6"
  | .lit7 => "LIT7"
  | .lit8 => "LIT8"
  | .lit9 => "LIT9"
  | .lit10 => "LIT10"
  | .lit11 => "LIT11"
  | .lit12 => "LIT12"
  | .lit13 => "LIT13"
  | .lit14 => "LIT14"
  | .lit15 => "LIT15"
  | .rep _ => "REP"
  | .zrep _ => "ZREP"
  | .zrepl _ => "ZREPL"

/-- The instruction read from an opcode-table row's word: a 32-bit row is a CMD32 command, a 16-bit row is a TOK16 token.
A number that does not fit its row's width is no word of the row. -/
def decodeTableWord (nbits w : Nat) : Option Instr :=
  match nbits with
  | 32 => if w < 2 ^ 32 then (decodeCommand (BitVec.ofNat 32 w)).toOption else none
  | 16 => if w < 2 ^ 16 then (decodeToken (BitVec.ofNat 16 w)).toOption else none
  | _ => none

end Sys2Proof
end

