-- ==== Sys2Proof/Machine/Optimizer.lean ====
section
/-! DEFINITION. OPT, the histogram RLE optimizer (unit HRO, spec/40_optimizer.md): trim, mark, collapse. -/

namespace Sys2Proof.Machine

/-! ### Maximal runs, used by pass 2 here and by TOKENIZE -/

/-- A list cut into its maximal runs of equal value, as (value, length), in order
(spec/40_optimizer.md R105, spec/43_tokenizer.md R173). -/
def cutRuns {α : Type} [DecidableEq α] : List α → List (α × Nat)
  | [] => []
  | x :: xs =>
    match cutRuns xs with
    | [] => [(x, 1)]
    | (y, k) :: rest => if x = y then (y, k + 1) :: rest else (x, 1) :: (y, k) :: rest

/-! ### Pass 1: trim -/

/-- `L` (spec/40_optimizer.md R102): the loop reads downward from `HIST[n-1]` and stops at the first nonzero element.
The error is an index it reads that holds no value. -/
def trimmedLength (hist : Buf 32) : Nat → Except Nat Nat
  | 0 => .ok 0
  | l + 1 =>
    match bufGet l hist with
    | none => .error l
    | some v => if v = 0 then trimmedLength hist l else .ok (l + 1)

/-! ### Pass 2: mark good runs -/

/-- A run is good when it is a zero-run of length at least 5 or a nonzero-run of length at least 7 (spec/40_optimizer.md R105). -/
def goodRun (v len : Nat) : Bool := if v = 0 then decide (5 ≤ len) else decide (7 ≤ len)

/-- `GOOD[0 .. L-1]` (spec/40_optimizer.md R105, the declarative statement). -/
def goodMarks (h : List Nat) : List Bool :=
  (cutRuns h).flatMap fun r => List.replicate r.2 (goodRun r.1 r.2)

/-! ### Pass 3: collapse strides -/

/-- The rounded average `(sum + stride/2) / stride` (spec/40_optimizer.md R108, R110). -/
def roundedAverage (sum stride : Nat) : Nat := (sum + stride / 2) / stride

/-- The value a collapsed stride gets: 0 for a zero sum, else the rounded average, at least 1 (spec/40_optimizer.md R108). -/
def collapseCount (sum stride : Nat) : Nat := if sum = 0 then 0 else max 1 (roundedAverage sum stride)

/-- A flush (spec/40_optimizer.md R108): the elements of the stride after it. They collapse when there are at least 4, or at
least 3 with zero sum. -/
def collapseStride (stride : List Nat) : List Nat :=
  if 4 ≤ stride.length ∨ (3 ≤ stride.length ∧ stride.sum = 0) then
    List.replicate stride.length (collapseCount stride.sum stride.length)
  else stride

/-- `seed_limit(i)` (spec/40_optimizer.md R110), of the elements `HIST[i .. L-1]`: the rounded mean of the next 4 when 4 remain,
the current element when fewer remain. -/
def seedLimit : List Nat → Nat
  | a :: b :: c :: d :: _ => (a + b + c + d + 2) / 4
  | a :: _ => a
  | [] => 0

/-- The similarity test `|value - target| < 4` on naturals (spec/40_optimizer.md R111). -/
def closeTo (value target : Nat) : Bool := decide (value - target < 4 ∧ target - value < 4)

/-- The running target after an element has joined: the rounded mean of the stride once it has 4 elements
(spec/40_optimizer.md R110). -/
def joinedLimit (stride : List Nat) (limit : Nat) : Nat :=
  if 4 ≤ stride.length then roundedAverage stride.sum stride.length else limit

/-- Pass 3 (spec/40_optimizer.md R107, R109) from position `i` on: `rest` pairs `HIST[i .. L-1]` with `GOOD[i .. L-1]`, `prevGood` is
`GOOD[i-1]` (false at `i = 0`), `stride` holds the elements gathered since the last flush and `limit` is the running target.
The result is `HIST[i - stride .. L-1]` after the pass. Every value read is the one HIST held before OPT (R110). -/
def collapseFrom : List (Nat × Bool) → Bool → List Nat → Nat → List Nat
  | [], _, stride, _ => collapseStride stride
  | (v, good) :: rest, prevGood, stride, limit =>
    if good || prevGood || !closeTo v limit then
      collapseStride stride ++ collapseFrom rest good [v] (seedLimit (v :: rest.map Prod.fst))
    else
      collapseFrom rest good (stride ++ [v]) (joinedLimit (stride ++ [v]) limit)

/-- Passes 2 and 3 on the trimmed histogram: `limit` starts at `HIST[0]` (spec/40_optimizer.md R107). -/
def optimizeCounts (h : List Nat) : List Nat := collapseFrom (h.zip (goodMarks h)) false [] (h.headD 0)

/-! ### The command -/

/-- The body of OPT (spec/40_optimizer.md R100): trim; all-zero success (R103); `fail(ALLOC)` when the scratch array is too small
(R104); mark and collapse. -/
def runOpt (n : Nat) (s : State) : UnitEnd :=
  match trimmedLength s.hist n with
  | .error i => .refused (.unwrittenElement .hist i)
  | .ok 0 => .success true s
  | .ok (l + 1) =>
    if s.params.scratchBits < l + 1 then .fail .alloc s
    else match bufRead s.hist 0 (l + 1) with
      | .error i => .refused (.unwrittenElement .hist i)
      | .ok h =>
        .success false
          { s with hist := bufSetFrom 0 ((optimizeCounts (h.map BitVec.toNat)).map (BitVec.ofNat 32)) s.hist }

/-- OPT (spec/40_optimizer.md R100, R101). -/
def execOpt (s : State) : Host.Outcome State Fault Refusal :=
  runCommand s.badN (fun t => runOpt s.operandN (enterPhase .opt t)) s

end Sys2Proof.Machine
end

