-- ==== Sys2Proof/Machine/Tokenizer.lean ====
section
/-! DEFINITION. TOKENIZE, the tree token encoder (unit TTE, spec/43_tokenizer.md): the runs of LEN, the tokens of each run, and
`emit`, which tests the bound before each write. -/

namespace Sys2Proof.Machine

/-- A token: DOC0's record of code and extra_bits (spec/30_encoding.md R80). -/
structure Token where
  code : Nat
  extra : Nat
  deriving DecidableEq, Repr

/-- The TOK16 word of a token. -/
def Token.word (t : Token) : TokWord := tokenWord t.code t.extra

/-- The token of a TOK16 word: CODE in bits 4:0, EXTRA in bits 14:8 (spec/30_encoding.md R80). -/
def Token.ofWord (w : TokWord) : Token := ⟨slice w 4 0, slice w 14 8⟩

/-- The number of elements of LEN a token stands for: 1 for a literal, the copies of an escape (spec/43_tokenizer.md R183,
spec/30_encoding.md R81). -/
def tokenSpan (x : Token) : Nat := if x.code < 16 then 1 else if x.code = 18 then x.extra + 11 else x.extra + 3

/-- `zero_run(r)` (spec/43_tokenizer.md R176): the tokens of a run of `r` zeros; `fuel` bounds the number of chunks. -/
def zeroRunLoop : Nat → Nat → List Token
  | 0, _ => []
  | fuel + 1, r =>
    if r = 0 then []
    else if r < 3 then List.replicate r ⟨0, 0⟩
    else if r < 11 then [⟨17, r - 3⟩]
    else if r < 139 then [⟨18, r - 11⟩]
    else ⟨18, 0x7f⟩ :: zeroRunLoop fuel (r - 138)

def zeroRun (r : Nat) : List Token := zeroRunLoop r r

/-- `repeat_run(r, v)` (spec/43_tokenizer.md R179): `r` repetitions of the value `v`; `fuel` bounds the number of chunks. -/
def repeatRunLoop (v : Nat) : Nat → Nat → List Token
  | 0, _ => []
  | fuel + 1, r =>
    if r = 0 then []
    else if r < 3 then List.replicate r ⟨v, 0⟩
    else if r < 7 then [⟨16, r - 3⟩]
    else ⟨16, 3⟩ :: repeatRunLoop v fuel (r - 6)

def repeatRun (r v : Nat) : List Token := repeatRunLoop v r r

/-- `value_run(r, v, prev)` (spec/43_tokenizer.md R178): a literal first when `v` differs from the previous nonzero value. -/
def valueRun (r v prev : Nat) : List Token :=
  if v ≠ prev then ⟨v, 0⟩ :: repeatRun (r - 1) v else repeatRun r v

/-- The tokens of the runs in order; `prev_value` follows the nonzero runs only (spec/43_tokenizer.md R173, R180). -/
def runTokens : Nat → List (Nat × Nat) → List Token
  | _, [] => []
  | prev, (v, r) :: rest =>
    if v = 0 then zeroRun r ++ runTokens prev rest
    else valueRun r v prev ++ runTokens v rest

/-- The token stream of a code-length table, `prev_value` seeded with 8 (spec/43_tokenizer.md R170, R172). -/
def encodeLengths (lens : List Nat) : List Token := runTokens Config.sentinelPrev.toNat (cutRuns lens)

/-- The elements of LEN from index `i` on, as far as they hold a value, and the index of the first of the `k` that holds none. -/
def bufPrefix {w : Nat} (b : Buf w) : Nat → Nat → List (BitVec w) × Option Nat
  | _, 0 => ([], none)
  | i, k + 1 =>
    match bufGet i b with
    | none => ([], some i)
    | some v => ((v :: (bufPrefix b (i + 1) k).1), (bufPrefix b (i + 1) k).2)

/-- How `emit` after `emit` ended: all tokens written, or the buffer found full (spec/43_tokenizer.md R174). -/
inductive EmitEnd where
  | written (tok : Buf 16) (t : Nat)
  | full (tok : Buf 16)

/-- `emit(code, extra)` for each token in order (spec/43_tokenizer.md R174): if `t == m` nothing is written, else `TOK[t]` is. -/
def emitAll (m : Nat) : List Token → Nat → Buf 16 → EmitEnd
  | [], t, tok => .written tok t
  | x :: rest, t, tok => if t = m then .full tok else emitAll m rest (t + 1) (bufSet t x.word tok)

/-- The runs whose last element and the element after it have been read when the scan meets an unwritten element: the run that the
unwritten element would end or continue is not among them (spec/43_tokenizer.md R170: a run is cut before any of its tokens is
emitted). Where no element is unwritten, all runs. -/
def scannedRuns (elems : List Nat) (unwritten : Option Nat) : List (Nat × Nat) :=
  match unwritten with
  | none => cutRuns elems
  | some _ => (cutRuns elems).dropLast

/-- The body of TOKENIZE (spec/43_tokenizer.md R170): ASSERT_TOKENS at the first `emit` that finds the buffer full, the tokens before
it stay (R184); TOKCNT is written on success only (R182). -/
def runTokenize (n m : Nat) (s : State) : UnitEnd :=
  let scan := bufPrefix s.len 0 n
  let tokens := runTokens Config.sentinelPrev.toNat (scannedRuns (scan.1.map BitVec.toNat) scan.2)
  match emitAll m tokens 0 s.tok with
  | .full tok => .fault .assertTokens { s with tok := tok }
  | .written tok t =>
    match scan.2 with
    | some i => .refused (.unwrittenElement .len i)
    | none => .success false { s with tok := tok, tokcnt := BitVec.ofNat 32 t }

/-- TOKENIZE (spec/43_tokenizer.md R170, R171). -/
def execTokenize (s : State) : Host.Outcome State Fault Refusal :=
  runCommand (s.badN || s.badM) (fun t => runTokenize s.operandN s.operandM (enterPhase .tokenize t)) s

end Sys2Proof.Machine
end

