-- ==== Sys2Proof/Machine/Expander.lean ====
section
/-! DEFINITION. The nineteen tokens: the meaning of a token is what it stands for when expanded (spec/30_encoding.md R81, the
column "meaning when expanded"), one turn of the loop of the reference expander (spec/43_tokenizer.md R186).
The expander is no part of the block ("HCB does not decode"), so a token runs whatever PHASE is (log entry 5). -/

namespace Sys2Proof.Machine

/-- A literal: one code length; a nonzero one becomes the previous nonzero value (spec/43_tokenizer.md R186). -/
def expandLiteral (v : Len) (s : State) : State :=
  { s with expOut := s.expOut ++ [v], expPrev := if v = 0 then s.expPrev else v }

/-- An escape: `count` copies of `v`; the previous value stays (spec/43_tokenizer.md R186). -/
def expandCopies (v : Len) (count : Nat) (s : State) : State :=
  { s with expOut := s.expOut ++ List.replicate count v }

/-- The expander at the start of a stream: `out <- []`, `prev <- 8` (spec/43_tokenizer.md R186). -/
def startExpander (s : State) : State := { s with expOut := [], expPrev := Config.sentinelPrev }

/-- An escape with `extra_bits` up to `bound`; "the reference expander is defined only on legal tokens: refuse elsewhere"
(spec/93_implementation_defined.md U10). -/
def runEscape (bound extra : Nat) (expanded : State) : Host.Outcome State Fault Refusal :=
  if extra ≤ bound then .next expanded else .refused .reservedToken

/-! ### The expander as a function of a token list, which rule R187 of spec/43_tokenizer.md is said in -/

/-- The loop of `expand` (spec/43_tokenizer.md R186) from the previous value `prev`: `out`, and `prev` at the end. -/
def expandTokens : Nat → List Token → List Nat × Nat
  | prev, [] => ([], prev)
  | prev, x :: rest =>
    if x.code ≤ 15 then
      let e := expandTokens (if x.code = 0 then prev else x.code) rest
      (x.code :: e.1, e.2)
    else
      let e := expandTokens prev rest
      (List.replicate (if x.code = 18 then x.extra + 11 else x.extra + 3) (if x.code = 16 then prev else 0) ++ e.1, e.2)

/-- `expand(tokens)` (spec/43_tokenizer.md R186): `prev` starts at 8. -/
def expand (tokens : List Token) : List Nat := (expandTokens Config.sentinelPrev.toNat tokens).1

/-! ### The meanings of the nineteen tokens -/

def execLit0 (s : State) : Host.Outcome State Fault Refusal := .next (expandLiteral 0 s)
def execLit1 (s : State) : Host.Outcome State Fault Refusal := .next (expandLiteral 1 s)
def execLit2 (s : State) : Host.Outcome State Fault Refusal := .next (expandLiteral 2 s)
def execLit3 (s : State) : Host.Outcome State Fault Refusal := .next (expandLiteral 3 s)
def execLit4 (s : State) : Host.Outcome State Fault Refusal := .next (expandLiteral 4 s)
def execLit5 (s : State) : Host.Outcome State Fault Refusal := .next (expandLiteral 5 s)
def execLit6 (s : State) : Host.Outcome State Fault Refusal := .next (expandLiteral 6 s)
def execLit7 (s : State) : Host.Outcome State Fault Refusal := .next (expandLiteral 7 s)
def execLit8 (s : State) : Host.Outcome State Fault Refusal := .next (expandLiteral 8 s)
def execLit9 (s : State) : Host.Outcome State Fault Refusal := .next (expandLiteral 9 s)
def execLit10 (s : State) : Host.Outcome State Fault Refusal := .next (expandLiteral 10 s)
def execLit11 (s : State) : Host.Outcome State Fault Refusal := .next (expandLiteral 11 s)
def execLit12 (s : State) : Host.Outcome State Fault Refusal := .next (expandLiteral 12 s)
def execLit13 (s : State) : Host.Outcome State Fault Refusal := .next (expandLiteral 13 s)
def execLit14 (s : State) : Host.Outcome State Fault Refusal := .next (expandLiteral 14 s)
def execLit15 (s : State) : Host.Outcome State Fault Refusal := .next (expandLiteral 15 s)

/-- REP: `extra + 3` copies (3 to 6) of the previous nonzero value (spec/30_encoding.md R81). -/
def execRep (extra : Nat) (s : State) : Host.Outcome State Fault Refusal :=
  runEscape 3 extra (expandCopies s.expPrev (extra + 3) s)

/-- ZREP: `extra + 3` zeros (3 to 10) (spec/30_encoding.md R81). -/
def execZrep (extra : Nat) (s : State) : Host.Outcome State Fault Refusal :=
  runEscape 7 extra (expandCopies 0 (extra + 3) s)

/-- ZREPL: `extra + 11` zeros (11 to 138) (spec/30_encoding.md R81). -/
def execZrepl (extra : Nat) (s : State) : Host.Outcome State Fault Refusal :=
  runEscape 127 extra (expandCopies 0 (extra + 11) s)

end Sys2Proof.Machine
end

