-- ==== Sys2Proof/Machine/Sequencer.lean ====
section
/-! DEFINITION. BUILDCODES, the orchestrator (unit SEQ, spec/44_sequencer.md): OPT, BUILD and ASSIGN in sequence, short-circuiting. -/

namespace Sys2Proof.Machine

/-- The body of BUILDCODES (spec/44_sequencer.md R200 to R204). The first phase finds `L = 0` exactly when every `HIST[0 .. n-1]`
was 0 at command start, which is what ALLZERO reports. -/
def runBuildCodes (n d : Nat) (s : State) : UnitEnd :=
  (runOpt n (enterPhase .opt s)).andThen fun allZero s1 =>
  (runBuild n d (enterPhase .build s1)).andThen fun _ s2 =>
  (runAssign n (enterPhase .assign s2)).andThen fun _ s3 =>
  .success allZero s3

/-- BUILDCODES (spec/44_sequencer.md R200); the operand checks are made once, at the start (R203). -/
def execBuildCodes (s : State) : Host.Outcome State Fault Refusal :=
  runCommand (s.badN || s.badD) (fun t => runBuildCodes s.operandN s.operandD t) s

end Sys2Proof.Machine
end

