-- ==== Sys2Proof/Machine/Dispatch.lean ====
section
/-! DEFINITION. One arm per instruction: the host's five commands, then the nineteen tokens. -/

namespace Sys2Proof.Machine

def exec (i : Instr) (s : State) : Host.Outcome State Fault Refusal :=
  match i with
  | .opt => Sys2Proof.Machine.execOpt s
  | .build => Sys2Proof.Machine.execBuild s
  | .assign => Sys2Proof.Machine.execAssign s
  | .tokenize => Sys2Proof.Machine.execTokenize s
  | .buildcodes => Sys2Proof.Machine.execBuildCodes s
  | .lit0 => Sys2Proof.Machine.execLit0 s
  | .lit1 => Sys2Proof.Machine.execLit1 s
  | .lit2 => Sys2Proof.Machine.execLit2 s
  | .lit3 => Sys2Proof.Machine.execLit3 s
  | .lit4 => Sys2Proof.Machine.execLit4 s
  | .lit5 => Sys2Proof.Machine.execLit5 s
  | .lit6 => Sys2Proof.Machine.execLit6 s
  | .lit7 => Sys2Proof.Machine.execLit7 s
  | .lit8 => Sys2Proof.Machine.execLit8 s
  | .lit9 => Sys2Proof.Machine.execLit9 s
  | .lit10 => Sys2Proof.Machine.execLit10 s
  | .lit11 => Sys2Proof.Machine.execLit11 s
  | .lit12 => Sys2Proof.Machine.execLit12 s
  | .lit13 => Sys2Proof.Machine.execLit13 s
  | .lit14 => Sys2Proof.Machine.execLit14 s
  | .lit15 => Sys2Proof.Machine.execLit15 s
  | .rep extra => Sys2Proof.Machine.execRep extra s
  | .zrep extra => Sys2Proof.Machine.execZrep extra s
  | .zrepl extra => Sys2Proof.Machine.execZrepl extra s

end Sys2Proof.Machine
end

