-- ==== Sys2Proof/Machine/HostPort.lean ====
section
/-! DEFINITION. The host's transactions other than a CMD write (spec/30_encoding.md R91, spec/10_state.md R21, spec/20_memory.md R51 to R58),
and the host notation of spec/30_encoding.md R76 and R77 as lists of moves. -/

namespace Sys2Proof.Machine

/-- The value a host read returns is the latest of `reads`; reading changes nothing of the block (spec/20_memory.md R55). -/
def answerRead (v : Word) (s : State) : State := { s with reads := v :: s.reads }

/-- `RD reg`. N, DLIM and MAXTOK belong to HCB while BUSY; STATUS, CAUSE, TOKCNT and CMIN may be read then (spec/20_memory.md R58). -/
def hostReadReg (reg : Nat) (s : State) : Host.Outcome State Fault Refusal :=
  if s.busy && ownedRegister reg then .refused .hostAccessWhileBusy
  else .next (answerRead (readRegister reg s) s)

/-- `WR reg, v` for a register other than CMD. In the FAULT state it takes effect (spec/60_exceptions.md R220). -/
def hostWriteReg (reg : Nat) (v : Word) (s : State) : Host.Outcome State Fault Refusal :=
  if s.busy && ownedRegister reg then .refused .hostAccessWhileBusy
  else .next (writeRegister reg v s)

/-- `RDB space[i]`. -/
def hostReadElem (space : Space) (i : Nat) (s : State) : Host.Outcome State Fault Refusal :=
  if s.busy then .refused .hostAccessWhileBusy else .next (answerRead (readElement space i s) s)

/-- `WRB space[i], v`. -/
def hostWriteElem (space : Space) (i : Nat) (v : Word) (s : State) : Host.Outcome State Fault Refusal :=
  if s.busy then .refused .hostAccessWhileBusy else .next (writeElement space i v s)

/-! ### The host notation (spec/30_encoding.md R76, R77) -/

/-- The host notation's `OPT`, `BUILD`, `ASSIGN`, `TOKENIZE`, `BUILDCODES`: `WR CMD, 1` to `WR CMD, 5`. -/
def moveCommand (op : Nat) : HostMove := .writeReg 0 (BitVec.ofNat 32 op)

/-- `FILL space, [v0, …, vk]`, from element `i` on. -/
def movesFill (space : Space) (i : Nat) : List Word → List HostMove
  | [] => []
  | v :: vs => .writeElem space i v :: movesFill space (i + 1) vs

/-- `WAIT`: "in the atomic model … this is a single read" of STATUS. -/
def moveWait : HostMove := .readReg 1

/-- `DUMP space, k`. -/
def movesDump (space : Space) (k : Nat) : List HostMove := (List.range k).map (HostMove.readElem space)

/-- `BUILD n, d` as a pseudo-instruction. -/
def movesBuild (n d : Word) : List HostMove := [.writeReg 3 n, .writeReg 4 d, moveCommand 2, moveWait]

/-- `BUILDCODES n, d` as a pseudo-instruction. -/
def movesBuildCodes (n d : Word) : List HostMove := [.writeReg 3 n, .writeReg 4 d, moveCommand 5, moveWait]

/-- `TOKENIZE n, m` as a pseudo-instruction. -/
def movesTokenize (n m : Word) : List HostMove := [.writeReg 3 n, .writeReg 5 m, moveCommand 4, moveWait]

end Sys2Proof.Machine
end

