-- ==== Sys2Proof/Machine/Transaction.lean ====
section
/-! DEFINITION. What one move of the outside world does: a CMD write runs a command, a token word runs a token, and the other
transactions are those of HostPort. -/

namespace Sys2Proof.Machine

/-- A word written to CMD (spec/30_encoding.md R71): a legal word runs its command, a reserved one is `Fault(ILLEGAL_CMD)`. -/
def writeCommand (w : Word) (s : State) : Host.Outcome State Fault Refusal :=
  match decodeCommand w with
  | .ok i => exec i s
  | .error _ => illegalCommand s

/-- A token word presented to the reference expander (spec/43_tokenizer.md R186). -/
def presentToken (w : TokWord) (s : State) : Host.Outcome State Fault Refusal :=
  match decodeToken w with
  | .ok i => exec i s
  | .error _ => .refused .reservedToken

/-- One move on a state whose pending moves no longer hold it. A bus move has been resolved; one that is no HCB access changes
nothing (spec/30_encoding.md R90). -/
def stepMove (move : HostMove) (s : State) : Host.Outcome State Fault Refusal :=
  match move with
  | .writeReg reg v => if reg = 0 then writeCommand v s else hostWriteReg reg v s
  | .readReg reg => hostReadReg reg s
  | .writeElem space i v => hostWriteElem space i v s
  | .readElem space i => hostReadElem space i s
  | .busWrite _ _ => .next s
  | .busRead _ _ => .next s
  | .reset => .next (resetBlock s)
  | .token w => presentToken w s
  | .startExpander => .next (startExpander s)

end Sys2Proof.Machine
end

