-- ==== Sys2Proof/Machine/Step.lean ====
section
/-! DEFINITION. One step: the next move of the outside world. HCB fetches no instructions (spec/10_state.md R30); "the order of
commands is the order of the host's writes to CMD", so what the machine runs next is the host's next transaction. -/

namespace Sys2Proof.Machine

/-- One step. With no move pending the block waits (spec/70_reset_and_hazards.md R240: "after reset the block waits for a write to
CMD"), and nothing changes. -/
def step (s : State) : Host.Outcome State Fault Refusal :=
  match s.host with
  | [] => .next s
  | move :: rest =>
    match resolveMove s.params move with
    | some m => stepMove m { s with host := rest }
    | none => .next { s with host := rest }

/-- The state whose next move is the opcode-table word `w` of `nbits` bits: a CMD write of a 32-bit word, a token word of 16 bits
presented to the reference expander (log entry 2). -/
def State.withFetchWord (s : State) (nbits w : Nat) : State :=
  match nbits with
  | 16 => { s with host := .token (BitVec.ofNat 16 w) :: s.host }
  | _ => { s with host := .writeReg 0 (BitVec.ofNat 32 w) :: s.host }

end Sys2Proof.Machine
end

