-- ==== Sys2Proof/Machine/OptimizerSweep.lean ====
section
/-! DEFINITION. Passes 2 and 3 of OPT as spec/40_optimizer.md prints them: one sweep with scalars over an array that is written as it
goes (R105, R107 to R110). `Machine/Optimizer.lean` computes the same on lists; two statements say so
(`MarkSweepComputesGoodRuns`, `CollapseSweepComputesTheCollapse`). -/

namespace Sys2Proof.Machine

/-! ### Pass 2 (spec/40_optimizer.md R105, "an implementation that computes this in one sweep") -/

structure MarkState where
  good : List Bool
  symbol : Nat
  stride : Nat

/-- `for k in 0 .. stride-1: GOOD[i-k-1] <- true`. -/
def markBack (i stride : Nat) (good : List Bool) : List Bool :=
  (List.range stride).foldl (fun g k => g.set (i - k - 1) true) good

/-- The sweep's turn at position `i`. -/
def markTurn (h : List Nat) (st : MarkState) (i : Nat) : MarkState :=
  if i = h.length ∨ h.getD i 0 ≠ st.symbol then
    { good :=
        if (st.symbol = 0 ∧ 5 ≤ st.stride) ∨ (st.symbol ≠ 0 ∧ 7 ≤ st.stride) then markBack i st.stride st.good
        else st.good
      symbol := if i = h.length then st.symbol else h.getD i 0
      stride := 1 }
  else { st with stride := st.stride + 1 }

/-- Pass 2 as a sweep over `i = 0 .. L`. -/
def markSweep (h : List Nat) : List Bool :=
  ((List.range (h.length + 1)).foldl (markTurn h)
    { good := List.replicate h.length false, symbol := h.getD 0 0, stride := 0 }).good

/-! ### Pass 3 (spec/40_optimizer.md R107) -/

structure SweepState where
  hist : List Nat
  stride : Nat
  sum : Nat
  limit : Nat

/-- `flush_at(i)` (spec/40_optimizer.md R109). -/
def flushAt (good : List Bool) (st : SweepState) (i : Nat) : Bool :=
  i = st.hist.length || good.getD i false || (i ≠ 0 && good.getD (i - 1) false) || !closeTo (st.hist.getD i 0) st.limit

/-- `seed_limit(i)` (spec/40_optimizer.md R110). -/
def seedLimitAt (h : List Nat) (i : Nat) : Nat :=
  if i + 3 < h.length then (h.getD i 0 + h.getD (i + 1) 0 + h.getD (i + 2) 0 + h.getD (i + 3) 0 + 2) / 4
  else if i < h.length then h.getD i 0
  else 0

/-- `for k in 0 .. stride-1: HIST[i-k-1] <- count`. -/
def writeBack (i stride count : Nat) (h : List Nat) : List Nat :=
  (List.range stride).foldl (fun g k => g.set (i - k - 1) count) h

/-- The flush at position `i`: the stride is written if it collapses, then the scalars start again. -/
def flushTurn (st : SweepState) (i : Nat) : SweepState :=
  let count0 := (st.sum + st.stride / 2) / st.stride
  let count1 := if count0 < 1 then 1 else count0
  let count := if st.sum = 0 then 0 else count1
  let h := if 4 ≤ st.stride ∨ (3 ≤ st.stride ∧ st.sum = 0) then writeBack i st.stride count st.hist else st.hist
  { hist := h, stride := 0, sum := 0, limit := seedLimitAt h i }

/-- Element `i` joins the stride. -/
def joinTurn (st : SweepState) (i : Nat) : SweepState :=
  if i = st.hist.length then { st with stride := st.stride + 1 }
  else
    { st with
      stride := st.stride + 1
      sum := st.sum + st.hist.getD i 0
      limit := if 4 ≤ st.stride + 1 then (st.sum + st.hist.getD i 0 + (st.stride + 1) / 2) / (st.stride + 1) else st.limit }

/-- The sweep's turn at position `i`. -/
def sweepTurn (good : List Bool) (st : SweepState) (i : Nat) : SweepState :=
  joinTurn (if flushAt good st i then flushTurn st i else st) i

/-- Pass 3 as a sweep over `i = 0 .. L`. -/
def collapseSweep (good : List Bool) (h : List Nat) : List Nat :=
  ((List.range (h.length + 1)).foldl (sweepTurn good) { hist := h, stride := 0, sum := 0, limit := h.getD 0 0 }).hist

end Sys2Proof.Machine
end

