-- ==== Sys2Proof/Safety.lean ====
section
/-! DEFINITION. The terms claims are made in: when the block takes a command, which elements hold a value, the trimmed length, and the
invariant that every step keeps. -/

namespace Sys2Proof.Machine

/-- The block takes a command: it is not in the FAULT state and no command is running (spec/30_encoding.md R71). -/
abbrev Ready (s : State) : Prop := s.phase ≠ .faulted ∧ s.busy = false

/-- `B[0 .. n-1]` hold values (spec/70_reset_and_hazards.md R242). -/
abbrev Written {w : Nat} (b : Buf w) (n : Nat) : Prop := ∀ i < n, bufGet i b ≠ none

/-- `B[0 .. n-1]` as numbers (0 stands where an element holds no value). -/
def elements {w : Nat} (b : Buf w) (n : Nat) : List Nat :=
  (List.range n).map fun i => ((bufGet i b).map BitVec.toNat).getD 0

/-- `L` is the largest `j` in `1 .. n` with `HIST[j-1] != 0`, or 0 if there is none (spec/40_optimizer.md R102). -/
abbrev IsTrimmedLength (h : List Nat) (l : Nat) : Prop :=
  l ≤ h.length ∧ (∀ j < h.length, l ≤ j → h.getD j 0 = 0) ∧ (l = 0 ∨ h.getD (l - 1) 0 ≠ 0)

/-- The five host commands. -/
def hostCommands : List Instr := [.opt, .build, .assign, .tokenize, .buildcodes]

/-- The operand check of each command (spec/60_exceptions.md R213, column BAD_OPERAND). -/
def badOperand (i : Instr) (s : State) : Bool :=
  match i with
  | .build | .buildcodes => s.badN || s.badD
  | .tokenize => s.badN || s.badM
  | _ => s.badN

/-- The state after a command that faulted with nothing else written (spec/60_exceptions.md R220). -/
def faulted (c : Cause) (s : State) : State := { s with status := 0x10, cause := causeCode c, phase := .faulted }

/-- Token words presented to the reference expander one after another. -/
def presentTokens (ws : List TokWord) (s : State) : State := { s with host := ws.map HostMove.token }

/-- STATUS, CAUSE and PHASE between two steps (spec/60_exceptions.md R211, spec/10_state.md R42 for the state after reset). -/
abbrev EndState (s : State) : Prop :=
  (s.phase = .idle ∧ s.cause = 0 ∧ (s.status = 0 ∨ s.status = 0x6 ∨ s.status = 0xE)) ∨
  (s.phase = .idle ∧ s.cause = 1 ∧ s.status = 0x2) ∨
  (s.phase = .faulted ∧ s.status = 0x10 ∧ (s.cause = 2 ∨ s.cause = 3 ∨ s.cause = 4 ∨ s.cause = 5))

/-- What holds between two steps. -/
structure Inv (s : State) : Prop where
  /-- The sizes are those of an implementation the spec admits (spec/00_scope.md R8: "OPEN, at least 1"). -/
  sizes : s.params.legal
  /-- The buffers are in canonical form, inside their sizes (spec/20_memory.md R50). -/
  memory : Memory.wf s
  /-- STATUS, CAUSE and PHASE are those of reset or of the end of a command (R211): no command is running between two steps. -/
  ends : EndState s
  /-- TOKCNT counts tokens that are in TOK (spec/10_state.md R29). -/
  tokens : s.tokcnt.toNat ≤ s.params.tokEntries ∧ Written s.tok s.tokcnt.toNat
  /-- CMIN is 0 or a power of two (spec/10_state.md R31). -/
  cmin : s.cmin = 0 ∨ ∃ k < 32, s.cmin.toNat = 2 ^ k

end Sys2Proof.Machine
end

