-- ==== Sys2Proof/Certificates/Slice0/Obligations.lean ====
section
/-! DEFINITION. The statements for the provers. Each docstring says which rule of spec/ it formalises.
A next state written `t = { s with hist := t.hist, … }` states the frame: every field that is not named is unchanged. -/

open Sys2Proof Sys2Proof.Machine

/-! ### Encodings -/

/-- spec/30_encoding.md R70 to R72, R80 to R83: no bit of an encoding is dropped. -/
def Obligations.DecodeOfEncodeIsIdentity : Prop :=
  ∀ i : Instr, i.wellFormed = true → decode (encode i) = .ok i

/-- spec/30_encoding.md R70, R80, R81: every word that decodes is the encoding of a well-formed instruction, so no two words share one. -/
def Obligations.EncodeOfDecodeIsIdentity : Prop :=
  ∀ (w : InstrWord) (i : Instr), decode w = .ok i → i.wellFormed = true ∧ encode i = w

/-- spec/opcode_table.json and spec/30_encoding.md R72: a word decodes to a row's instruction exactly when it matches the row's mask
and pattern. -/
def Obligations.DecoderAgreesWithOpcodeTable : Prop :=
  (∀ (w : Word), ∀ row ∈ commandRows,
    (row.matchesWord w.toNat = true ↔ ∃ i, decodeCommand w = .ok i ∧ mnemonicOf i = row.mnemonic)) ∧
  (∀ (w : TokWord), ∀ row ∈ tokenRows,
    (row.matchesWord w.toNat = true ↔ ∃ i, decodeToken w = .ok i ∧ mnemonicOf i = row.mnemonic))

/-- Words written out from spec/30_encoding.md R72 and R80 to R83, one per family. -/
def Obligations.WordsOfTheSpecDecode : Prop :=
  decodeCommand 0b00000000000000000000000000000001 = .ok .opt ∧
  decodeCommand 0b00000000000000000000000000000010 = .ok .build ∧
  decodeCommand 0b00000000000000000000000000000011 = .ok .assign ∧
  decodeCommand 0b00000000000000000000000000000100 = .ok .tokenize ∧
  decodeCommand 0b00000000000000000000000000000101 = .ok .buildcodes ∧
  decodeToken 0b0000000000001001 = .ok .lit9 ∧
  decodeToken 0b0000001000010000 = .ok (.rep 2) ∧
  decodeToken 0b0000010100010001 = .ok (.zrep 5) ∧
  decodeToken 0b0011001100010010 = .ok (.zrepl 51)

/-! ### Steps, acceptance, faults, reset -/

/-- spec/30_encoding.md R71: a step whose next move presents a word that decodes runs the instruction it decodes to. The model's
choice: that the program is the list of moves in `State.host`, and that `withFetchWord` places one (log entry 2, DESIGN CHOICE);
that a token word is a move, which runs whatever PHASE is (log entry 5, DEDUCED). -/
def Obligations.StepRunsDecodedInstruction : Prop :=
  (∀ (s : State) (w : Word) (i : Instr) (rest : List HostMove),
    s.host = .writeReg 0 w :: rest → decodeCommand w = .ok i → step s = exec i { s with host := rest }) ∧
  (∀ (s : State) (w : TokWord) (i : Instr) (rest : List HostMove),
    s.host = .token w :: rest → decodeToken w = .ok i → step s = exec i { s with host := rest }) ∧
  (∀ (s : State) (w : Word) (i : Instr), decodeCommand w = .ok i → step (s.withFetchWord 32 w.toNat) = exec i s) ∧
  (∀ (s : State) (w : TokWord) (i : Instr), decodeToken w = .ok i → step (s.withFetchWord 16 w.toNat) = exec i s)

/-- spec/30_encoding.md R75: a reserved word written to CMD while the block is idle raises ILLEGAL_CMD; no buffer and no register other
than STATUS and CAUSE changes. -/
def Obligations.ReservedWordRaisesIllegalCommand : Prop :=
  ∀ (s : State) (w : Word) (rest : List HostMove), Ready s → s.host = .writeReg 0 w :: rest →
    (w.toNat / 16 ≠ 0 ∨ w.toNat % 16 = 0 ∨ 6 ≤ w.toNat % 16) →
    step s = .next { s with host := rest, status := 0x10, cause := 4, phase := .faulted }

/-- spec/60_exceptions.md R224: `N > MAX_SYMS` (every command), `DLIM = 0` (BUILD, BUILDCODES) and `MAXTOK > TOK_ENTRIES` (TOKENIZE)
raise BAD_OPERAND with nothing read or written, even where no buffer element holds a value. -/
def Obligations.BadOperandFaultsBeforeAnyAccess : Prop :=
  ∀ (s : State), Ready s →
    (s.params.maxSyms < s.n.toNat → ∀ i ∈ hostCommands, exec i s = .next (faulted .badOperand s)) ∧
    (s.dlim = 0 → ∀ i ∈ [Instr.build, .buildcodes], exec i s = .next (faulted .badOperand s)) ∧
    (s.params.tokEntries < s.maxtok.toNat → exec .tokenize s = .next (faulted .badOperand s))

/-- spec/60_exceptions.md R220: the FAULT state is sticky. Whatever the next move is, if it is not a reset, the block stays
faulted with STATUS and CAUSE held; a CMD write of any word is ignored; the host still writes and reads N, DLIM, MAXTOK and the
buffer elements. -/
def Obligations.FaultIsStickyUntilReset : Prop :=
  ∀ (s : State) (move : HostMove) (rest : List HostMove), s.phase = .faulted → s.host = move :: rest →
    (move ≠ .reset → ∀ t, step s = .next t → t.phase = .faulted ∧ t.status = s.status ∧ t.cause = s.cause) ∧
    (∀ w, move = .writeReg 0 w → step s = .next { s with host := rest }) ∧
    (s.busy = false →
      (∀ v, move = .writeReg 3 v → step s = .next { s with host := rest, n := v }) ∧
      (∀ v, move = .writeReg 4 v → step s = .next { s with host := rest, dlim := v.setWidth 4 }) ∧
      (∀ v, move = .writeReg 5 v → step s = .next { s with host := rest, maxtok := v }) ∧
      (∀ reg, move = .readReg reg → step s = .next { s with host := rest, reads := readRegister reg s :: s.reads }) ∧
      (∀ space i, move = .readElem space i → step s = .next { s with host := rest, reads := readElement space i s :: s.reads }) ∧
      (∀ space i v, move = .writeElem space i v → i < spaceSize s.params space →
        ∃ t, step s = .next t ∧ t = { s with host := rest, hist := t.hist, len := t.len, code := t.code, tok := t.tok } ∧
          ∀ space' j, spaceGet space' j t = if space' = space ∧ j = i then some (truncateTo space v) else spaceGet space' j s))

/-- spec/70_reset_and_hazards.md R240: asserting `rst` puts the block in the state of spec/10_state.md R42 from every state, the FAULT
state included: every register 0, PHASE IDLE, no buffer element holds a value. The model's own fields stay (log entry 3). -/
def Obligations.ResetEntersTheResetState : Prop :=
  ∀ (s : State) (rest : List HostMove), s.host = .reset :: rest →
    ∃ t, step s = .next t ∧ (∀ reg, readRegister reg t = 0) ∧ t.phase = .idle ∧
      (∀ space i, spaceGet space i t = none) ∧
      t.params = s.params ∧ t.host = rest ∧ t.reads = s.reads ∧ t.expOut = s.expOut ∧ t.expPrev = s.expPrev

/-- spec/60_exceptions.md R211: what the end of a command writes to STATUS, CAUSE and PHASE. -/
def Obligations.CommandEndsAsTableSays : Prop :=
  ∀ (s t : State), ∀ i ∈ hostCommands, Ready s → exec i s = .next t →
    (t.status = 0x6 ∧ t.cause = 0 ∧ t.phase = .idle ∧
      (i = .assign ∨ i = .tokenize ∨ ∃ c ∈ elements s.hist s.n.toNat, c ≠ 0)) ∨
    (t.status = 0xE ∧ t.cause = 0 ∧ t.phase = .idle ∧ i ≠ .assign ∧ i ≠ .tokenize ∧
      ∀ c ∈ elements s.hist s.n.toNat, c = 0) ∨
    (t.status = 0x2 ∧ t.cause = 1 ∧ t.phase = .idle) ∨
    (t.status = 0x10 ∧ (t.cause = 2 ∨ t.cause = 3 ∨ t.cause = 4 ∨ t.cause = 5) ∧ t.phase = .faulted)

/-- spec/60_exceptions.md R213: which command can end how; BAD_OPERAND exactly under the conditions of its column; ILLEGAL_CMD by none. -/
def Obligations.WhichCommandEndsHow : Prop :=
  ∀ (s t : State), ∀ i ∈ hostCommands, Ready s → exec i s = .next t →
    (t.cause = 5 ↔ badOperand i s = true) ∧ t.cause ≠ 4 ∧
    (t.cause = 1 → i = .opt ∨ i = .build ∨ i = .buildcodes) ∧
    (t.cause = 2 → i = .build ∨ i = .buildcodes) ∧
    (t.cause = 3 → i = .tokenize)

/-- spec/20_memory.md R58, spec/93_implementation_defined.md U6: while BUSY a CMD write (outside the FAULT state) and a host access to a
buffer or to N, DLIM, MAXTOK have no meaning and are refused; STATUS, CAUSE, TOKCNT and CMIN may be read. -/
def Obligations.HostAccessWhileBusyRefused : Prop :=
  ∀ (s : State) (rest : List HostMove), s.busy = true →
    (∀ w, s.phase ≠ .faulted → s.host = .writeReg 0 w :: rest → step s = .refused .hostAccessWhileBusy) ∧
    (∀ reg v, reg ∈ [3, 4, 5] → s.host = .writeReg reg v :: rest → step s = .refused .hostAccessWhileBusy) ∧
    (∀ reg, reg ∈ [3, 4, 5] → s.host = .readReg reg :: rest → step s = .refused .hostAccessWhileBusy) ∧
    (∀ space i v, s.host = .writeElem space i v :: rest → step s = .refused .hostAccessWhileBusy) ∧
    (∀ space i, s.host = .readElem space i :: rest → step s = .refused .hostAccessWhileBusy) ∧
    (∀ reg, reg ∈ [1, 2, 6, 7] → s.host = .readReg reg :: rest →
      step s = .next { s with host := rest, reads := readRegister reg s :: s.reads })

/-! ### The invariant -/

/-- The reset state of spec/10_state.md R42 meets the invariant (the parameters are the model's choice, log entry 1). -/
def Obligations.ResetStateMeetsInvariant : Prop := Inv State.reset

/-- From every state that meets it, every step keeps the invariant: canonical buffers inside their sizes, STATUS, CAUSE and PHASE as
R211 leaves them, TOKCNT tokens in TOK, CMIN 0 or a power of two. -/
def Obligations.InvariantKeptByEveryStep : Prop :=
  ∀ s t : State, Inv s → step s = .next t → Inv t

/-- A command leaves N, DLIM, MAXTOK, the parameters, the host's moves, its reads and the reference expander as they were, and each
command leaves the buffers and result registers it does not write (spec/20_memory.md R54, spec/30_encoding.md R74). -/
def Obligations.CommandsWriteOnlyTheirResults : Prop :=
  (∀ s t : State, exec .opt s = .next t →
    t = { s with hist := t.hist, status := t.status, cause := t.cause, phase := t.phase }) ∧
  (∀ s t : State, exec .build s = .next t →
    t = { s with len := t.len, cmin := t.cmin, status := t.status, cause := t.cause, phase := t.phase }) ∧
  (∀ s t : State, exec .assign s = .next t →
    t = { s with code := t.code, status := t.status, cause := t.cause, phase := t.phase }) ∧
  (∀ s t : State, exec .tokenize s = .next t →
    t = { s with tok := t.tok, tokcnt := t.tokcnt, status := t.status, cause := t.cause, phase := t.phase }) ∧
  (∀ s t : State, exec .buildcodes s = .next t →
    t = { s with
      hist := t.hist, len := t.len, code := t.code, cmin := t.cmin
      status := t.status, cause := t.cause, phase := t.phase })

/-- spec/20_memory.md R53: no command writes an element of HIST, LEN, CODE at an index of N or above, nor of TOK at MAXTOK or
above. The spec marks this as derived. -/
def Obligations.CommandsStayInsideTheirIndexRange : Prop :=
  ∀ s t : State, ∀ i ∈ hostCommands, exec i s = .next t →
    (∀ k, s.n.toNat ≤ k → bufGet k t.hist = bufGet k s.hist ∧ bufGet k t.len = bufGet k s.len ∧
      bufGet k t.code = bufGet k s.code) ∧
    (∀ k, s.maxtok.toNat ≤ k → bufGet k t.tok = bufGet k s.tok)

/-! ### The host's transactions -/

/-- spec/10_state.md R21 to R25, spec/20_memory.md R55: the register file as the host sees it. N and MAXTOK hold what was
written, DLIM its low four bits, and a write of one changes nothing else of the state; STATUS, CAUSE, TOKCNT, CMIN are
read-only; CMD reads 0; register numbers 8 and above are ignored on write and read 0; a read changes nothing. -/
def Obligations.RegisterFileAsTheHostSeesIt : Prop :=
  ∀ (s : State) (reg : Nat) (v : Word) (rest : List HostMove), Ready s → reg ≠ 0 →
    s.host = .writeReg reg v :: .readReg reg :: rest →
    ∃ t, step s = .next t ∧
      step t = .next { t with host := rest, reads := readRegister reg t :: s.reads } ∧
      (reg = 3 → t = { s with host := .readReg reg :: rest, n := v }) ∧
      (reg = 4 → t = { s with host := .readReg reg :: rest, dlim := v.setWidth 4 }) ∧
      (reg = 5 → t = { s with host := .readReg reg :: rest, maxtok := v }) ∧
      (reg = 3 ∨ reg = 5 → readRegister reg t = v) ∧
      (reg = 1 ∨ reg = 2 ∨ reg = 6 ∨ reg = 7 → t = { s with host := .readReg reg :: rest }) ∧
      (8 ≤ reg → t = { s with host := .readReg reg :: rest } ∧ readRegister reg t = 0) ∧
      (∀ other, other ≠ reg → readRegister other t = readRegister other s) ∧ readRegister 0 t = 0

/-- spec/10_state.md R23: DLIM keeps bits 3:0 of a write and reads bits 31:4 as 0; DLIM = 0 at the start of BUILD or BUILDCODES raises
BAD_OPERAND; OPT, ASSIGN and TOKENIZE do not read DLIM. -/
def Obligations.DlimIsFourBitsReadByBuildOnly : Prop :=
  (∀ (s : State) (v : Word) (rest : List HostMove), Ready s → s.host = .writeReg 4 v :: rest →
    ∃ t, step s = .next t ∧ (readRegister 4 t).toNat = v.toNat % 16) ∧
  (∀ s : State, Ready s → readRegister 4 s = 0 →
    ∀ i ∈ [Instr.build, .buildcodes], exec i s = .next (faulted .badOperand s)) ∧
  (∀ (s t : State) (d : BitVec 4), ∀ i ∈ [Instr.opt, .assign, .tokenize],
    exec i s = .next t → exec i { s with dlim := d } = .next { t with dlim := d })

/-- spec/20_memory.md R51, R53, R55: an element written inside the space reads back as the low bits of the value, zero-extended;
all other elements read as before; an index at or above the size is ignored on write and reads 0, with no fault. The model's
choice: that an element that holds no value reads the same before and after, by its free value (log entry 4, DESIGN CHOICE), and
that the value has 32 bits (log entry 19, DESIGN CHOICE). -/
def Obligations.ElementReadAfterWrite : Prop :=
  ∀ (s : State) (space : Space) (i : Nat) (v : Word) (rest : List HostMove), Ready s →
    s.host = .writeElem space i v :: .readElem space i :: rest →
    ∃ t, step s = .next t ∧
      step t = .next { t with host := rest, reads := readElement space i t :: s.reads } ∧
      (i < spaceSize s.params space →
        (readElement space i t).toNat =
          v.toNat % 2 ^ (match space with | .hist => 32 | .len => 4 | .code => 16 | .tok => 16)) ∧
      (spaceSize s.params space ≤ i → t = { s with host := .readElem space i :: rest } ∧ readElement space i t = 0) ∧
      (∀ space' j, (space', j) ≠ (space, i) → readElement space' j t = readElement space' j s)

/-- spec/30_encoding.md R90: on a map whose ranges are disjoint, a store of an element's or a register's bytes at its address is
the write of that element or register, little-endian, and a load is its read: a step that takes the bus move does what a step
that takes the transaction does. That bus moves stand in the list of moves is log entry 13. -/
def Obligations.ReferenceMapReachesEveryElement : Prop :=
  ∀ (s : State) (m : Config.HostMap) (rest : List HostMove), s.params.hostMap = some m → hostMapDisjoint s.params m →
    (∀ (space : Space) (i : Nat), i < spaceSize s.params space →
      (∀ data : List Byte, data.length = elementBytes space →
        resolveMove s.params (.busWrite (spaceBase m space + elementBytes space * i) data) =
          some (.writeElem space i (BitVec.ofNat 32 (littleEndian data))) ∧
        step { s with host := .busWrite (spaceBase m space + elementBytes space * i) data :: rest } =
          step { s with host := .writeElem space i (BitVec.ofNat 32 (littleEndian data)) :: rest }) ∧
      resolveMove s.params (.busRead (spaceBase m space + elementBytes space * i) (elementBytes space)) =
        some (.readElem space i) ∧
      step { s with host := .busRead (spaceBase m space + elementBytes space * i) (elementBytes space) :: rest } =
        step { s with host := .readElem space i :: rest }) ∧
    (∀ reg < 8,
      (∀ data : List Byte, data.length = 4 →
        resolveMove s.params (.busWrite (m.regBase + 4 * reg) data) =
          some (.writeReg reg (BitVec.ofNat 32 (littleEndian data))) ∧
        step { s with host := .busWrite (m.regBase + 4 * reg) data :: rest } =
          step { s with host := .writeReg reg (BitVec.ofNat 32 (littleEndian data)) :: rest }) ∧
      resolveMove s.params (.busRead (m.regBase + 4 * reg) 4) = some (.readReg reg) ∧
      step { s with host := .busRead (m.regBase + 4 * reg) 4 :: rest } = step { s with host := .readReg reg :: rest })

/-- spec/20_memory.md R62: a command that reads an element nothing has written since reset is refused. The refusal names the
element where it is the first one the command reads that holds no value (the order of the reads is log entry 11); for OPT and
BUILDCODES that is an element met by the downward trim, or one below the last nonzero count when the trimmed length fits the
scratch array. A command that succeeds has read only elements that hold values. -/
def Obligations.UnwrittenElementRefused : Prop :=
  (∀ (s : State) (k : Nat), Ready s → s.n.toNat ≤ s.params.maxSyms → k < s.n.toNat →
    (bufGet k s.hist = none → (∀ j < s.n.toNat, k < j → bufGet j s.hist = some 0) →
      exec .opt s = .refused (.unwrittenElement .hist k)) ∧
    (bufGet k s.hist = none → (∀ j < s.n.toNat, k < j → bufGet j s.hist = some 0) → s.dlim ≠ 0 →
      exec .buildcodes s = .refused (.unwrittenElement .hist k)) ∧
    (bufGet k s.hist = none → Written s.hist k → s.dlim ≠ 0 →
      exec .build s = .refused (.unwrittenElement .hist k)) ∧
    (bufGet k s.len = none → Written s.len k → exec .assign s = .refused (.unwrittenElement .len k)) ∧
    (bufGet k s.len = none → Written s.len k → k ≤ s.maxtok.toNat → s.maxtok.toNat ≤ s.params.tokEntries →
      exec .tokenize s = .refused (.unwrittenElement .len k))) ∧
  (∀ (s : State) (k l : Nat) (c : Count), Ready s → s.n.toNat ≤ s.params.maxSyms → k < l → l < s.n.toNat →
    bufGet k s.hist = none → Written s.hist k → bufGet l s.hist = some c → c ≠ 0 →
    (∀ j < s.n.toNat, l < j → bufGet j s.hist = some 0) → l + 1 ≤ s.params.scratchBits →
    exec .opt s = .refused (.unwrittenElement .hist k) ∧
    (s.dlim ≠ 0 → exec .buildcodes s = .refused (.unwrittenElement .hist k))) ∧
  (∀ s t : State, Ready s →
    (∀ i ∈ [Instr.opt, .build, .buildcodes], exec i s = .next t → t.ok = true → Written s.hist s.n.toNat) ∧
    (∀ i ∈ [Instr.assign, .tokenize], exec i s = .next t → t.ok = true → Written s.len s.n.toNat))

/-! ### OPT -/

/-- spec/40_optimizer.md R103: with `L = 0` OPT succeeds with ALLZERO, writes nothing to HIST, whatever SCRATCH_BITS is. -/
def Obligations.OptAllZeroSucceeds : Prop :=
  ∀ s : State, Ready s → s.n.toNat ≤ s.params.maxSyms → (∀ i < s.n.toNat, bufGet i s.hist = some 0) →
    exec .opt s = .next { s with status := 0xE, cause := 0, phase := .idle }

/-- spec/40_optimizer.md R100, R107, R108: OPT on a histogram with a nonzero count whose trimmed length fits the scratch array succeeds;
`HIST[0 .. L-1]` become the collapsed counts, everything else stays. -/
def Obligations.OptCollapsesHistogram : Prop :=
  ∀ (s : State) (l : Nat), Ready s → s.n.toNat ≤ s.params.maxSyms → Written s.hist s.n.toNat →
    IsTrimmedLength (elements s.hist s.n.toNat) l → l ≠ 0 → l ≤ s.params.scratchBits →
    ∃ t, exec .opt s = .next t ∧
      t = { s with hist := t.hist, status := 0x6, cause := 0, phase := .idle } ∧
      elements t.hist l = optimizeCounts (elements s.hist l) ∧ Written t.hist l ∧
      (∀ i, l ≤ i → bufGet i t.hist = bufGet i s.hist)

/-- spec/40_optimizer.md R104: `fail(ALLOC)` when `L > SCRATCH_BITS`, with HIST unchanged, and only then; with `SCRATCH_BITS >=
MAX_SYMS` never. -/
def Obligations.OptFailsWithoutScratch : Prop :=
  (∀ (s : State) (l : Nat), Ready s → s.n.toNat ≤ s.params.maxSyms → Written s.hist s.n.toNat →
    IsTrimmedLength (elements s.hist s.n.toNat) l → s.params.scratchBits < l →
    exec .opt s = .next { s with status := 0x2, cause := 1, phase := .idle }) ∧
  (∀ (s t : State) (l : Nat), Ready s → Written s.hist s.n.toNat → IsTrimmedLength (elements s.hist s.n.toNat) l →
    exec .opt s = .next t → t.cause = 1 → s.params.scratchBits < l) ∧
  (∀ s t : State, Ready s → s.params.maxSyms ≤ s.params.scratchBits → exec .opt s = .next t → t.cause ≠ 1)

/-- spec/40_optimizer.md R105: the one-sweep implementation marks exactly the elements of maximal runs that are zero-runs of
length at least 5 or nonzero-runs of length at least 7. The spec marks the sweep as derived. -/
def Obligations.MarkSweepComputesGoodRuns : Prop :=
  (∀ h : List Nat, h ≠ [] → markSweep h = goodMarks h) ∧
  (∀ (h : List Nat) (a b v : Nat), a < b → b ≤ h.length → (∀ j, a ≤ j → j < b → h[j]? = some v) →
    (a = 0 ∨ h[a - 1]? ≠ some v) → h[b]? ≠ some v →
    ∀ j, a ≤ j → j < b → ((goodMarks h)[j]? = some true ↔ (v = 0 ∧ 5 ≤ b - a) ∨ (v ≠ 0 ∧ 7 ≤ b - a)))

/-- spec/40_optimizer.md R107 to R111: the sweep as printed, with its scalars and its array writes, computes the model's collapse. -/
def Obligations.CollapseSweepComputesTheCollapse : Prop :=
  ∀ h : List Nat, h ≠ [] → collapseSweep (goodMarks h) h = optimizeCounts h

/-- spec/40_optimizer.md R112: what OPT never does, on its trimmed counts. (c) it never turns a nonzero count into zero; (e) it
never writes a value above the largest value of the stride it collapses; (f) it never writes a GOOD element; the length stays.
The spec marks this as derived. -/
def Obligations.OptKeepsNonzeroAndGoodCounts : Prop :=
  ∀ h : List Nat,
    (optimizeCounts h).length = h.length ∧
    (∀ j c : Nat, h[j]? = some c → c ≠ 0 → ∃ c', (optimizeCounts h)[j]? = some c' ∧ c' ≠ 0) ∧
    (∀ j : Nat, (goodMarks h)[j]? = some true → (optimizeCounts h)[j]? = h[j]?) ∧
    (∀ stride : List Nat, ∀ x ∈ collapseStride stride, ∃ y ∈ stride, x ≤ y) ∧
    (∀ x ∈ optimizeCounts h, ∃ y ∈ h, x ≤ y)

/-- spec/40_optimizer.md R113: if every position is marked good, OPT changes nothing, on the first run as on the second. The
spec marks this as derived. -/
def Obligations.OptLeavesGoodHistogramUnchanged : Prop :=
  ∀ (s : State) (l : Nat), Ready s → s.n.toNat ≤ s.params.maxSyms → Written s.hist s.n.toNat →
    IsTrimmedLength (elements s.hist s.n.toNat) l → l ≠ 0 → l ≤ s.params.scratchBits →
    (∀ g ∈ goodMarks (elements s.hist l), g = true) →
    ∃ t u, exec .opt s = .next t ∧ (∀ i, bufGet i t.hist = bufGet i s.hist) ∧
      exec .opt t = .next u ∧ (∀ i, bufGet i u.hist = bufGet i s.hist)

/-! ### BUILD -/

/-- spec/41_builder.md R123: all counts zero. No tree, no arena, no size assertion: `LEN[i] <- 0` for every `i < N`, `CMIN <- 0`, success
with ALLZERO. -/
def Obligations.BuildAllZeroSucceeds : Prop :=
  ∀ s : State, Ready s → s.n.toNat ≤ s.params.maxSyms → s.dlim ≠ 0 → (∀ i < s.n.toNat, bufGet i s.hist = some 0) →
    ∃ t, exec .build s = .next t ∧
      t = { s with len := t.len, cmin := 0, status := 0xE, cause := 0, phase := .idle } ∧
      (∀ i < s.n.toNat, bufGet i t.len = some 0) ∧ (∀ i, s.n.toNat ≤ i → bufGet i t.len = bufGet i s.len)

/-- spec/41_builder.md R124, spec/90_conflicts.md C3, spec/60_exceptions.md R228: more than `2^(DLIM-1)` nonzero counts raise ASSERT_SIZE,
before the arena is looked at; LEN and CMIN are not written. -/
def Obligations.BuildAssertsSize : Prop :=
  ∀ s : State, Ready s → s.n.toNat ≤ s.params.maxSyms → s.dlim ≠ 0 → Written s.hist s.n.toNat →
    2 ^ (s.dlim.toNat - 1) < ((elements s.hist s.n.toNat).filter (· ≠ 0)).length →
    exec .build s = .next { s with status := 0x10, cause := 2, phase := .faulted }

/-- spec/41_builder.md R124, R143: an attempt needs `3*n_nz - 2` nodes; with fewer in the arena BUILD FAILs with LEN and CMIN unwritten. -/
def Obligations.BuildFailsWithoutArena : Prop :=
  ∀ s : State, Ready s → s.n.toNat ≤ s.params.maxSyms → s.dlim ≠ 0 → Written s.hist s.n.toNat →
    ((elements s.hist s.n.toNat).filter (· ≠ 0)).length ≤ 2 ^ (s.dlim.toNat - 1) →
    s.params.arenaNodes + 2 < 3 * ((elements s.hist s.n.toNat).filter (· ≠ 0)).length →
    exec .build s = .next { s with status := 0x2, cause := 1, phase := .idle }

/-- spec/41_builder.md R132, R133, spec/70_reset_and_hazards.md R250: BUILD ends. The accepted floor is the least power of two whose
attempt fits DLIM, its depths are in LEN and the floor is in CMIN. -/
def Obligations.BuildAcceptsLeastFloor : Prop :=
  ∀ s : State, Ready s → s.n.toNat ≤ s.params.maxSyms → s.dlim ≠ 0 → Written s.hist s.n.toNat →
    (∃ c ∈ elements s.hist s.n.toNat, c ≠ 0) →
    ((elements s.hist s.n.toNat).filter (· ≠ 0)).length ≤ 2 ^ (s.dlim.toNat - 1) →
    3 * ((elements s.hist s.n.toNat).filter (· ≠ 0)).length ≤ s.params.arenaNodes + 2 →
    ∃ t k, exec .build s = .next t ∧
      t = { s with len := t.len, cmin := t.cmin, status := 0x6, cause := 0, phase := .idle } ∧
      t.cmin.toNat = 2 ^ k ∧ Written t.len s.n.toNat ∧
      elements t.len s.n.toNat = attemptDepths (elements s.hist s.n.toNat) (2 ^ k) ∧
      maxDepth (attemptDepths (elements s.hist s.n.toNat) (2 ^ k)) ≤ s.dlim.toNat ∧
      (∀ j < k, s.dlim.toNat < maxDepth (attemptDepths (elements s.hist s.n.toNat) (2 ^ j))) ∧
      (∀ i, s.n.toNat ≤ i → bufGet i t.len = bufGet i s.len)

/-- spec/70_reset_and_hazards.md R250: under the size assertion the retry loop makes at most `ceil(log2(M)) + 1` attempts, `M`
the largest count, and at most 33. The spec marks the bound as derived. -/
def Obligations.RetryLoopEndsInLogManyAttempts : Prop :=
  ∀ (hist : List Nat) (d big : Nat), 1 ≤ d → nonzeroSymbols hist ≠ [] → (nonzeroSymbols hist).length ≤ 2 ^ (d - 1) →
    (∀ c ∈ hist, c ≤ big) → big < 2 ^ 32 →
    ∃ j, j ≤ Nat.clog 2 big ∧ j + 1 ≤ 33 ∧
      retryLoop hist d (Nat.clog 2 big + 1) 1 = some (attemptDepths hist (2 ^ j), 2 ^ j) ∧
      retryLoop hist d Config.maxAttempts 1 = some (attemptDepths hist (2 ^ j), 2 ^ j)

/-- spec/41_builder.md R140: what an accepted result satisfies. (a) every depth is at most DLIM; (b) `LEN[i] = 0` exactly when
`HIST[i] = 0`; (c) the Kraft sum (scaled by `2^15`) is 1 with at least two symbols and 1/2 with one; (d) within the accepted
attempt a symbol of larger weight never gets a greater depth. The spec marks (b), (d) and the exact sums as derived. -/
def Obligations.AcceptedLengthsAreHuffman : Prop :=
  ∀ s t : State, Ready s → exec .build s = .next t → t.status = 0x6 →
    (∀ i < s.n.toNat, ∃ l, bufGet i t.len = some l ∧ l.toNat ≤ s.dlim.toNat) ∧
    (∀ i < s.n.toNat, bufGet i t.len = some 0 ↔ bufGet i s.hist = some 0) ∧
    kraftScaled (elements t.len s.n.toNat) =
      (if ((elements s.hist s.n.toNat).filter (· ≠ 0)).length = 1 then 2 ^ 14 else 2 ^ 15) ∧
    (∀ i j, i < s.n.toNat → j < s.n.toNat →
      (elements s.hist s.n.toNat).getD i 0 ≠ 0 → (elements s.hist s.n.toNat).getD j 0 ≠ 0 →
      max ((elements s.hist s.n.toNat).getD j 0) t.cmin.toNat < max ((elements s.hist s.n.toNat).getD i 0) t.cmin.toNat →
      (elements t.len s.n.toNat).getD i 0 ≤ (elements t.len s.n.toNat).getD j 0)

/-- spec/41_builder.md R131: exactly one nonzero count gets depth 1 whatever it is, on the first attempt, at every DLIM from 1. -/
def Obligations.SingleSymbolGetsDepthOne : Prop :=
  ∀ (s : State) (k : Nat) (c : Count), Ready s → s.n.toNat ≤ s.params.maxSyms → s.dlim ≠ 0 → 1 ≤ s.params.arenaNodes →
    k < s.n.toNat → bufGet k s.hist = some c → c ≠ 0 → (∀ i < s.n.toNat, i ≠ k → bufGet i s.hist = some 0) →
    ∃ t, exec .build s = .next t ∧
      t = { s with len := t.len, cmin := 1, status := 0x6, cause := 0, phase := .idle } ∧
      bufGet k t.len = some 1 ∧ (∀ i < s.n.toNat, i ≠ k → bufGet i t.len = some 0)

/-- spec/41_builder.md R127: the live list is the leaves, higher weight first, among equal weights higher symbol first. -/
def Obligations.LiveListIsSorted : Prop :=
  ∀ (hist : List Nat) (countMin : Nat),
    (initialLive (nonzeroSymbols hist) countMin).Perm
      ((nonzeroSymbols hist).map fun p => leafNode (max p.2 countMin) p.1) ∧
    (initialLive (nonzeroSymbols hist) countMin).Pairwise fun x y =>
      y.weight < x.weight ∨ (x.weight = y.weight ∧ y.symbol < x.symbol)

/-- spec/41_builder.md R129: the merged node becomes element `k`, the least index whose weight is at most its own, or the length if there
is none; the nodes before stay and those after move one place. -/
def Obligations.MergedNodeGoesBeforeEqualWeights : Prop :=
  ∀ (x : Node) (live : List Node), ∃ k ≤ live.length,
    insertMerged x live = live.take k ++ x :: live.drop k ∧
    (∀ y ∈ live.take k, x.weight < y.weight) ∧ (∀ y, live[k]? = some y → y.weight ≤ x.weight)

/-- spec/41_builder.md R124, R128: an attempt on `n_nz` leaves makes `n_nz - 1` merges, ends with one root and `2*(n_nz - 1)`
pool nodes, so `3*n_nz - 2` nodes are enough. The spec marks this as derived. -/
def Obligations.AttemptUsesTheArenaItNeeds : Prop :=
  ∀ (hist : List Nat) (countMin : Nat), nonzeroSymbols hist ≠ [] →
    ∃ root, (mergeAll ((nonzeroSymbols hist).length - 1) (initialLive (nonzeroSymbols hist) countMin) []).1 = [root] ∧
      (mergeAll ((nonzeroSymbols hist).length - 1) (initialLive (nonzeroSymbols hist) countMin) []).2.length =
        2 * ((nonzeroSymbols hist).length - 1) ∧
      (nonzeroSymbols hist).length + 2 * ((nonzeroSymbols hist).length - 1) = arenaNeed (nonzeroSymbols hist).length

/-- spec/41_builder.md R135: the result of BUILD is a function of `HIST[0 .. N-1]`, N and DLIM (and the parameters of
spec/00_scope.md R8): two states that agree on those, whatever else they hold, end alike and get the same LEN elements and CMIN.
The spec marks this as derived. -/
def Obligations.BuildDependsOnHistAndOperandsOnly : Prop :=
  ∀ s s' t : State, Ready s → Ready s' → s.params = s'.params → s.n = s'.n → s.dlim = s'.dlim →
    (∀ i < s.n.toNat, bufGet i s.hist = bufGet i s'.hist) → exec .build s = .next t →
    ∃ t', exec .build s' = .next t' ∧ t'.status = t.status ∧ t'.cause = t.cause ∧ t'.phase = t.phase ∧
      (t.ok = true → t'.cmin = t.cmin ∧ ∀ i < s.n.toNat, bufGet i t'.len = bufGet i t.len)

/-! ### ASSIGN -/

/-- spec/42_assigner.md R154, R155, R157, R158: on lengths whose Kraft sum is at most 1 ASSIGN succeeds. A symbol of length `l >
0` gets the reversal of `next_code[l]` plus the number of earlier symbols of its length, a value below `2^l`. Every other
element of CODE stays: where `LEN[i] = 0` that is log entry 14 (DEDUCED from R157), and U1 tells a reader to take any value
there. -/
def Obligations.AssignGivesCanonicalCodes : Prop :=
  ∀ s : State, Ready s → s.n.toNat ≤ s.params.maxSyms → Written s.len s.n.toNat →
    kraftScaled (elements s.len s.n.toNat) ≤ 2 ^ 15 →
    ∃ t, exec .assign s = .next t ∧
      t = { s with code := t.code, status := 0x6, cause := 0, phase := .idle } ∧
      (∀ i l : Nat, i < s.n.toNat → (elements s.len s.n.toNat)[i]? = some l → l ≠ 0 →
        ∃ c, c = firstCode (elements s.len s.n.toNat) l + ((elements s.len s.n.toNat).take i).count l ∧ c < 2 ^ l ∧
          bufGet i t.code = some (BitVec.ofNat 16 (revBits l c))) ∧
      (∀ i, (s.n.toNat ≤ i ∨ bufGet i s.len = some 0) → bufGet i t.code = bufGet i s.code)

/-- spec/42_assigner.md R153: the first code of each length, its closed form, and its bound under the precondition of R158. The
spec marks the closed form and the bound as derived. -/
def Obligations.FirstCodesFollowTheFormula : Prop :=
  ∀ lens : List Nat,
    firstCode lens 0 = 0 ∧ firstCode lens 1 = 0 ∧
    (∀ d, 1 ≤ d → firstCode lens d = (firstCode lens (d - 1) + depthCount lens (d - 1)) <<< 1) ∧
    (∀ d, 1 ≤ d → firstCode lens d = ((List.range' 1 (d - 1)).map fun e => depthCount lens e * 2 ^ (d - e)).sum) ∧
    ((∀ l ∈ lens, l ≤ 15) → kraftScaled lens ≤ 2 ^ 15 → ∀ d ≤ 15, firstCode lens d + depthCount lens d ≤ 2 ^ d)

/-- spec/42_assigner.md R160: the canonical codes. (a) equal lengths: increasing in symbol order; (b) no code is a prefix of
another, also on the wire, where bit 0 of CODE goes first (spec/30_encoding.md R87); (c) a shorter code padded with zeros is
below every longer one. The spec marks (c) and the form on the wire as derived. -/
def Obligations.CanonicalCodesArePrefixFree : Prop :=
  ∀ lens : List Nat, (∀ l ∈ lens, l ≤ 15) → kraftScaled lens ≤ 2 ^ 15 →
    ∀ i j li lj ci cj : Nat, lens[i]? = some li → lens[j]? = some lj →
      (canonicalCodes lens)[i]? = some (some ci) → (canonicalCodes lens)[j]? = some (some cj) →
      (i < j → li = lj → ci < cj) ∧
      (i ≠ j → li ≤ lj → cj / 2 ^ (lj - li) ≠ ci) ∧
      (li < lj → ci * 2 ^ (lj - li) < cj) ∧
      (i ≠ j → li ≤ lj → revBits lj cj % 2 ^ li ≠ revBits li ci)

/-- spec/42_assigner.md R158, spec/93_implementation_defined.md U5: ASSIGN on lengths whose Kraft sum exceeds 1 is refused. The
refusal is the one the spec asks of a model (log entry 12). -/
def Obligations.AssignRefusesKraftAboveOne : Prop :=
  ∀ s : State, Ready s → s.n.toNat ≤ s.params.maxSyms → Written s.len s.n.toNat →
    2 ^ 15 < kraftScaled (elements s.len s.n.toNat) → exec .assign s = .refused .kraftAboveOne

/-- spec/42_assigner.md R155: bit `j` of `rev(l, c)` is bit `l-1-j` of `c`, and `rev(l, rev(l, c)) = c`. -/
def Obligations.ReversalMirrorsTheBits : Prop :=
  ∀ l c : Nat, 1 ≤ l → l ≤ 15 → c < 2 ^ l →
    revBits l c < 2 ^ l ∧ (∀ j < l, (revBits l c).testBit j = c.testBit (l - 1 - j)) ∧ revBits l (revBits l c) = c

/-- spec/42_assigner.md R156: REVNIB[x] is rev(4, x), and the nibble composition equals R155. The spec marks the table as
derived and the loop as general knowledge. -/
def Obligations.NibbleCompositionIsReversal : Prop :=
  (∀ x < 16, revNib[x]? = some (revBits 4 x)) ∧
  (∀ l c : Nat, 1 ≤ l → l ≤ 15 → c < 2 ^ l → revByNibbles l c = revBits l c)

/-! ### TOKENIZE -/

/-- spec/43_tokenizer.md R170, R174, R182: TOKENIZE with room for its tokens succeeds; TOK holds the stream in order, TOKCNT its length,
and the elements after it are not written. -/
def Obligations.TokenizeWritesTheStream : Prop :=
  ∀ s : State, Ready s → s.n.toNat ≤ s.params.maxSyms → s.maxtok.toNat ≤ s.params.tokEntries → Written s.len s.n.toNat →
    (encodeLengths (elements s.len s.n.toNat)).length ≤ s.maxtok.toNat →
    ∃ t, exec .tokenize s = .next t ∧
      t = { s with tok := t.tok, tokcnt := t.tokcnt, status := 0x6, cause := 0, phase := .idle } ∧
      t.tokcnt.toNat = (encodeLengths (elements s.len s.n.toNat)).length ∧
      (∀ (j : Nat) (x : Token), (encodeLengths (elements s.len s.n.toNat))[j]? = some x → bufGet j t.tok = some (tokenWord x.code x.extra)) ∧
      (∀ j, t.tokcnt.toNat ≤ j → bufGet j t.tok = bufGet j s.tok)

/-- spec/43_tokenizer.md R187: the token round trip, in the machine. After TOKENIZE with `MAXTOK >= N`, presenting `TOK[0 ..
TOKCNT-1]` to the reference expander at the start of a stream (out empty, prev 8) gives exactly `LEN[0 .. N-1]`, and so does
`expand` on the tokens of those words. The spec marks the expander's seed and the induction as derived. -/
def Obligations.TokenRoundTrip : Prop :=
  ∀ s : State, Ready s → s.n.toNat ≤ s.params.maxSyms → s.maxtok.toNat ≤ s.params.tokEntries → Written s.len s.n.toNat →
    s.n.toNat ≤ s.maxtok.toNat → s.expOut = [] → s.expPrev = 8 →
    ∃ t u ws, exec .tokenize s = .next t ∧ t.status = 0x6 ∧ ws.length = t.tokcnt.toNat ∧
      (∀ j < ws.length, bufGet j t.tok = ws[j]?) ∧ expand (ws.map Token.ofWord) = elements s.len s.n.toNat ∧
      Host.Core.run Sys2Proof.core ws.length (presentTokens ws t) = .next u ∧
      u.expOut.length = s.n.toNat ∧ (∀ i < s.n.toNat, bufGet i s.len = u.expOut[i]?)

/-- spec/43_tokenizer.md R183: every token stands for at least one element and the tokens of a stream for exactly N, so there are at
most N: a TOKENIZE that succeeds leaves `TOKCNT <= N`, and `MAXTOK >= N` rules out ASSERT_TOKENS. The spec marks this as derived. -/
def Obligations.TokenCountAtMostN : Prop :=
  (∀ lens : List Nat, (∀ l ∈ lens, l ≤ 15) → (encodeLengths lens).length ≤ lens.length ∧
    (∀ x ∈ encodeLengths lens, 1 ≤ tokenSpan x) ∧ ((encodeLengths lens).map tokenSpan).sum = lens.length) ∧
  (∀ s t : State, Ready s → exec .tokenize s = .next t → t.ok = true → t.tokcnt.toNat ≤ s.n.toNat) ∧
  (∀ s t : State, Ready s → s.n.toNat ≤ s.maxtok.toNat → exec .tokenize s = .next t → t.cause ≠ 3)

/-- spec/43_tokenizer.md R184: on ASSERT_TOKENS the tokens already written, `TOK[0 .. MAXTOK-1]`, stay in TOK, TOKCNT is not written, the
block is in the FAULT state; with `MAXTOK = 0` and `N >= 1` the fault is raised at the first token. -/
def Obligations.TokenBoundIsAsserted : Prop :=
  (∀ s : State, Ready s → s.n.toNat ≤ s.params.maxSyms → s.maxtok.toNat ≤ s.params.tokEntries → Written s.len s.n.toNat →
    s.maxtok.toNat < (encodeLengths (elements s.len s.n.toNat)).length →
    ∃ t, exec .tokenize s = .next t ∧
      t = { s with tok := t.tok, status := 0x10, cause := 3, phase := .faulted } ∧
      (∀ (j : Nat) (x : Token), j < s.maxtok.toNat → (encodeLengths (elements s.len s.n.toNat))[j]? = some x →
        bufGet j t.tok = some (tokenWord x.code x.extra)) ∧
      (∀ j, s.maxtok.toNat ≤ j → bufGet j t.tok = bufGet j s.tok)) ∧
  (∀ s : State, Ready s → s.n.toNat ≤ s.params.maxSyms → Written s.len s.n.toNat → 1 ≤ s.n.toNat → s.maxtok = 0 →
    exec .tokenize s = .next { s with status := 0x10, cause := 3, phase := .faulted })

/-- spec/43_tokenizer.md R177: a zero run of `r` gives `q = (r-1)/138` tokens (18, 0x7f), then its remainder by its size class.
The spec marks this as derived. -/
def Obligations.ZeroRunClosedForm : Prop :=
  ∀ r q r' : Nat, 1 ≤ r → q = (r - 1) / 138 → r' = r - 138 * q →
    (1 ≤ r' ∧ r' ≤ 138) ∧
    zeroRun r = List.replicate q ⟨18, 0x7f⟩ ++
      (if r' = 1 then [⟨0, 0⟩] else if r' = 2 then [⟨0, 0⟩, ⟨0, 0⟩] else if r' ≤ 10 then [⟨17, r' - 3⟩] else [⟨18, r' - 11⟩])

/-- spec/43_tokenizer.md R179: `r` repetitions of `v` give `q = (r-1)/6` tokens (16, 3) (none when `r = 0`), then the remainder;
literal repeats carry the value `v` itself. The spec marks the closed form as derived. -/
def Obligations.RepeatRunClosedForm : Prop :=
  ∀ r v q r' : Nat, q = (r - 1) / 6 → r' = r - 6 * q →
    r' ≤ 6 ∧
    repeatRun r v = List.replicate q ⟨16, 3⟩ ++
      (if r' = 0 then [] else if r' = 1 then [⟨v, 0⟩] else if r' = 2 then [⟨v, 0⟩, ⟨v, 0⟩] else [⟨16, r' - 3⟩])

/-- spec/30_encoding.md R84: every token that a table of code lengths gives is a legal one: its word decodes, so CODE is at most
18, the reserved bits are 0 and EXTRA is in the range of R81. The spec marks this as derived. -/
def Obligations.EncodedTokensAreLegal : Prop :=
  ∀ lens : List Nat, (∀ l ∈ lens, l ≤ 15) → ∀ x ∈ encodeLengths lens, ∃ i, decodeToken (tokenWord x.code x.extra) = .ok i

/-! ### BUILDCODES -/

/-- spec/44_sequencer.md R200: where OPT, BUILD and ASSIGN succeed one after another, BUILDCODES succeeds with their HIST, LEN, CODE and
CMIN, and ALLZERO as OPT reports it. -/
def Obligations.BuildCodesRunsTheThreeUnits : Prop :=
  ∀ s s1 s2 s3 : State, Ready s → s.dlim ≠ 0 →
    exec .opt s = .next s1 → s1.ok = true → exec .build s1 = .next s2 → s2.ok = true → exec .assign s2 = .next s3 → s3.ok = true →
    exec .buildcodes s = .next { s3 with status := s1.status }

/-- spec/44_sequencer.md R200, spec/41_builder.md R140, spec/42_assigner.md R158: BUILDCODES completes. On a written histogram whose
optimized counts pass the size assertion and fit the arena it succeeds: inside BUILDCODES the ASSIGN phase never refuses the lengths of the BUILD phase. -/
def Obligations.BuildCodesCompletes : Prop :=
  ∀ (s : State) (l : Nat), Ready s → s.n.toNat ≤ s.params.maxSyms → s.dlim ≠ 0 → Written s.hist s.n.toNat →
    IsTrimmedLength (elements s.hist s.n.toNat) l → l ≠ 0 → l ≤ s.params.scratchBits →
    ((optimizeCounts (elements s.hist l)).filter (· ≠ 0)).length ≤ 2 ^ (s.dlim.toNat - 1) →
    3 * ((optimizeCounts (elements s.hist l)).filter (· ≠ 0)).length ≤ s.params.arenaNodes + 2 →
    ∃ t, exec .buildcodes s = .next t ∧ t.status = 0x6 ∧ t.cause = 0 ∧ t.phase = .idle ∧
      elements t.hist l = optimizeCounts (elements s.hist l) ∧
      (∀ i < s.n.toNat, ∃ d, bufGet i t.len = some d ∧ d.toNat ≤ s.dlim.toNat) ∧
      (∀ i < s.n.toNat, bufGet i t.len ≠ some 0 → bufGet i t.code ≠ none) ∧ t.cmin ≠ 0

/-- spec/44_sequencer.md R202: short-circuit. A FAIL of the OPT phase ends BUILDCODES with every buffer unchanged; a FAIL or ASSERT_SIZE of
the BUILD phase ends it with HIST optimized and LEN, CODE, CMIN unchanged. -/
def Obligations.BuildCodesShortCircuits : Prop :=
  ∀ s s1 : State, Ready s → s.dlim ≠ 0 → s.n.toNat ≤ s.params.maxSyms → exec .opt s = .next s1 →
    (s1.ok = false → exec .buildcodes s = .next { s with status := 0x2, cause := 1, phase := .idle }) ∧
    (∀ s2, s1.ok = true → exec .build s1 = .next s2 → s2.ok = false →
      exec .buildcodes s = .next { s with hist := s1.hist, status := s2.status, cause := s2.cause, phase := s2.phase } ∧
      ((s2.status = 0x2 ∧ s2.cause = 1) ∨ (s2.status = 0x10 ∧ s2.cause = 2)))

/-- spec/44_sequencer.md R204: all-zero histogram. HIST and CODE are not written, `LEN[i] <- 0` for all `i < N`, `CMIN <- 0`, success with
ALLZERO. -/
def Obligations.BuildCodesAllZeroSucceeds : Prop :=
  ∀ s : State, Ready s → s.n.toNat ≤ s.params.maxSyms → s.dlim ≠ 0 → (∀ i < s.n.toNat, bufGet i s.hist = some 0) →
    ∃ t, exec .buildcodes s = .next t ∧
      t = { s with len := t.len, cmin := 0, status := 0xE, cause := 0, phase := .idle } ∧
      (∀ i < s.n.toNat, bufGet i t.len = some 0) ∧ (∀ i, s.n.toNat ≤ i → bufGet i t.len = bufGet i s.len)

/-! ### Tokens -/

/-- spec/30_encoding.md R81, spec/43_tokenizer.md R186: LIT0 to LIT15 complete in every state. A literal appends its code length to the
expander's output; LIT1 to LIT15 become the previous nonzero value, LIT0 does not; nothing else changes. -/
def Obligations.LiteralTokensExpand : Prop :=
  ∀ s : State,
    exec .lit0 s = .next { s with expOut := s.expOut ++ [0] } ∧
    ∀ p ∈ [(Instr.lit1, (1 : Len)), (.lit2, 2), (.lit3, 3), (.lit4, 4), (.lit5, 5), (.lit6, 6), (.lit7, 7), (.lit8, 8), (.lit9, 9),
      (.lit10, 10), (.lit11, 11), (.lit12, 12), (.lit13, 13), (.lit14, 14), (.lit15, 15)],
      exec p.1 s = .next { s with expOut := s.expOut ++ [p.2], expPrev := p.2 }

/-- spec/30_encoding.md R81, spec/43_tokenizer.md R186: REP, ZREP and ZREPL complete in every state on every legal `extra_bits`; outside the
range the expander refuses the token (spec/93_implementation_defined.md U10). -/
def Obligations.EscapeTokensExpand : Prop :=
  ∀ (s : State) (extra : Nat),
    (extra ≤ 3 → exec (.rep extra) s = .next { s with expOut := s.expOut ++ List.replicate (extra + 3) s.expPrev }) ∧
    (extra ≤ 7 → exec (.zrep extra) s = .next { s with expOut := s.expOut ++ List.replicate (extra + 3) 0 }) ∧
    (extra ≤ 127 → exec (.zrepl extra) s = .next { s with expOut := s.expOut ++ List.replicate (extra + 11) 0 }) ∧
    (3 < extra → exec (.rep extra) s = .refused .reservedToken) ∧
    (7 < extra → exec (.zrep extra) s = .refused .reservedToken) ∧
    (127 < extra → exec (.zrepl extra) s = .refused .reservedToken)

/-! ### Further statements on the host's transactions -/

/-- spec/30_encoding.md R90: a byte access that is neither of an element's size at an element's address nor of 4 bytes at a
register's address is no HCB access, and without a map no byte access is one: a step that takes it changes nothing but the list
of moves. That such a move is taken and records no value is log entry 13 (DESIGN CHOICE). -/
def Obligations.OtherBusAccessChangesNothing : Prop :=
  ∀ (s : State) (addr size : Nat) (rest : List HostMove),
    (∀ m, s.params.hostMap = some m →
      (∀ reg < 8, ¬(size = 4 ∧ addr = m.regBase + 4 * reg)) ∧
      (∀ (space : Space) (i : Nat), i < spaceSize s.params space →
        ¬(size = elementBytes space ∧ addr = spaceBase m space + elementBytes space * i))) →
    step { s with host := .busRead addr size :: rest } = .next { s with host := rest } ∧
    (∀ data : List Byte, data.length = size → step { s with host := .busWrite addr data :: rest } = .next { s with host := rest })

/-- spec/20_memory.md R51, R55: a host write of an element inside its space puts the low bits of the value there and changes
nothing else: no other element, written or not, no register, no other field. That the value has 32 bits is log entry 19 (DESIGN
CHOICE). -/
def Obligations.ElementWriteChangesNothingElse : Prop :=
  ∀ (s : State) (space : Space) (i : Nat) (v : Word) (rest : List HostMove), Ready s → i < spaceSize s.params space →
    s.host = .writeElem space i v :: rest →
    ∃ t, step s = .next t ∧ t = { s with host := rest, hist := t.hist, len := t.len, code := t.code, tok := t.tok } ∧
      (∃ w, spaceGet space i t = some w ∧
        w.toNat = v.toNat % 2 ^ (match space with | .hist => 32 | .len => 4 | .code => 16 | .tok => 16)) ∧
      (∀ space' j, (space', j) ≠ (space, i) → spaceGet space' j t = spaceGet space' j s)
end

