-- ==== Sys2Proof/Laws/Builder.lean ====
section
/-! SUPPORT. The laws of one attempt of BUILD: the sort, the merges, the tree in the arena, and the depths it gives.
The depths of an attempt are followed on the weights alone (`finalDepths`), and `attemptDepths_get` says that the arena computes them. -/

namespace Sys2Proof.Machine

/-! ### Sorting and popping -/

theorem popTail_append {α : Type} (xs : List α) (x : α) : popTail (xs ++ [x]) = some (xs, x) := by
  induction xs with
  | nil => rfl
  | cons y ys ih =>
    cases ys with
    | nil => rfl
    | cons z zs =>
      simp only [List.cons_append] at ih ⊢
      rw [popTail, ih]

/-- A list of at least two elements ends in two elements. -/
theorem exists_append_pair {α : Type} (l : List α) (h : 2 ≤ l.length) : ∃ pre b a, l = pre ++ [b, a] := by
  induction l with
  | nil => simp at h
  | cons x xs ih =>
    cases xs with
    | nil => simp at h
    | cons y ys =>
      cases ys with
      | nil => exact ⟨[], x, y, rfl⟩
      | cons z zs =>
        obtain ⟨pre, b, a, he⟩ := ih (by simp)
        exact ⟨x :: pre, b, a, by rw [he]; rfl⟩

theorem insertLeaf_perm (x : Node) (l : List Node) : (insertLeaf x l).Perm (x :: l) := by
  induction l with
  | nil => exact List.Perm.refl _
  | cons y ys ih =>
    rw [insertLeaf]
    split
    · exact List.Perm.refl _
    · exact (List.Perm.cons y ih).trans (List.Perm.swap x y ys)

/-- The sorted live list holds exactly the leaves. -/
theorem sortLive_perm (l : List Node) : (sortLive l).Perm l := by
  induction l with
  | nil => exact List.Perm.refl _
  | cons x xs ih =>
    rw [sortLive, List.foldr_cons]
    exact (insertLeaf_perm x _).trans (List.Perm.cons x ih)

/-- Weight descending, the part of the order of R127 that the merges need. -/
theorem insertLeaf_descending (x : Node) (l : List Node) (h : l.Pairwise (fun p q => q.weight ≤ p.weight)) :
    (insertLeaf x l).Pairwise (fun p q => q.weight ≤ p.weight) := by
  induction l with
  | nil => simp [insertLeaf]
  | cons y ys ih =>
    rw [insertLeaf]
    rw [List.pairwise_cons] at h
    split
    · rename_i hb
      simp only [standsBefore, decide_eq_true_eq] at hb
      have hxy : y.weight ≤ x.weight := by omega
      refine List.pairwise_cons.2 ⟨fun q hq => ?_, List.pairwise_cons.2 h⟩
      rcases List.mem_cons.1 hq with rfl | hq
      · exact hxy
      · exact le_trans (h.1 q hq) hxy
    · rename_i hb
      simp only [standsBefore, decide_eq_true_eq, not_or, not_and] at hb
      refine List.pairwise_cons.2 ⟨fun q hq => ?_, ih h.2⟩
      rcases List.mem_cons.1 ((insertLeaf_perm x ys).mem_iff.1 hq) with rfl | hq
      · omega
      · exact h.1 q hq

theorem sortLive_descending (l : List Node) : (sortLive l).Pairwise (fun p q => q.weight ≤ p.weight) := by
  induction l with
  | nil => simp [sortLive]
  | cons x xs ih => rw [sortLive, List.foldr_cons]; exact insertLeaf_descending x _ ih

/-! ### The insertion position -/

/-- The first position whose weight is at most `w`, or the length if there is none (R129). -/
def mergePos (w : Nat) (ws : List Nat) : Nat := ws.findIdx (fun v => decide (v ≤ w))

theorem mergePos_le (w : Nat) (ws : List Nat) : mergePos w ws ≤ ws.length := List.findIdx_le_length

theorem mergePos_cons (w v : Nat) (ws : List Nat) :
    mergePos w (v :: ws) = if v ≤ w then 0 else mergePos w ws + 1 := by
  unfold mergePos
  rw [List.findIdx_cons]
  by_cases h : v ≤ w <;> simp [h]

/-- Insertion at the position of R129. -/
theorem insertMerged_eq (x : Node) (l : List Node) :
    insertMerged x l = l.take (mergePos x.weight (l.map Node.weight)) ++
      x :: l.drop (mergePos x.weight (l.map Node.weight)) := by
  induction l with
  | nil => rfl
  | cons y ys ih =>
    rw [insertMerged, List.map_cons, mergePos_cons]
    split
    · rfl
    · rw [ih]; simp

/-- Everything before the insertion position is heavier. -/
theorem mergePos_before {w : Nat} {ws : List Nat} {v : Nat} (h : v ∈ ws.take (mergePos w ws)) : w < v := by
  induction ws with
  | nil => simp at h
  | cons u us ih =>
    rw [mergePos_cons] at h
    by_cases hu : u ≤ w
    · simp [hu] at h
    · simp only [hu, if_false, List.take_succ_cons, List.mem_cons] at h
      rcases h with rfl | h
      · omega
      · exact ih h

/-- In a descending list everything from the insertion position on is at most as heavy. -/
theorem mergePos_after {w : Nat} {ws : List Nat} {v : Nat} (hs : ws.Pairwise (fun a b => b ≤ a))
    (h : v ∈ ws.drop (mergePos w ws)) : v ≤ w := by
  induction ws with
  | nil => simp at h
  | cons u us ih =>
    rw [List.pairwise_cons] at hs
    rw [mergePos_cons] at h
    by_cases hu : u ≤ w
    · simp only [hu, if_true, List.drop_zero, List.mem_cons] at h
      rcases h with rfl | h
      · exact hu
      · exact le_trans (hs.1 v h) hu
    · simp only [hu, if_false, List.drop_succ_cons] at h
      exact ih hs.2 h

/-- The live weights after a merge. -/
def insertWeight (w : Nat) (ws : List Nat) : List Nat := ws.take (mergePos w ws) ++ w :: ws.drop (mergePos w ws)

theorem map_insertMerged (x : Node) (l : List Node) :
    (insertMerged x l).map Node.weight = insertWeight x.weight (l.map Node.weight) := by
  rw [insertMerged_eq, insertWeight]; simp [List.map_take, List.map_drop]

@[simp] theorem insertWeight_length (w : Nat) (ws : List Nat) : (insertWeight w ws).length = ws.length + 1 := by
  have := mergePos_le w ws
  simp [insertWeight]; omega

/-- "merged node inserted to keep the array sorted" (R129). -/
theorem insertWeight_descending (w : Nat) {ws : List Nat} (hs : ws.Pairwise (fun a b => b ≤ a)) :
    (insertWeight w ws).Pairwise (fun a b => b ≤ a) := by
  have hsplit : (ws.take (mergePos w ws) ++ ws.drop (mergePos w ws)).Pairwise (fun a b => b ≤ a) := by
    rwa [List.take_append_drop]
  rw [List.pairwise_append] at hsplit
  rw [insertWeight, List.pairwise_append, List.pairwise_cons]
  refine ⟨hsplit.1, ⟨fun v hv => mergePos_after hs hv, hsplit.2.1⟩, fun u hu v hv => ?_⟩
  rcases List.mem_cons.1 hv with rfl | hv
  · exact (mergePos_before hu).le
  · exact hsplit.2.2 u hu v hv

/-! ### Depths, followed on the weights -/

/-- The depth that each tree of a live list gets in the final tree after `fuel` merges, in the order of the live list. -/
def finalDepths : Nat → List Nat → List Nat
  | 0, ws => ws.map fun _ => 0
  | fuel + 1, ws =>
    match popTail ws with
    | none => []
    | some (ws1, a) =>
      match popTail ws1 with
      | none => [0]
      | some (ws2, b) =>
        let ds := finalDepths fuel (insertWeight (a + b) ws2)
        ds.eraseIdx (mergePos (a + b) ws2) ++
          [ds.getD (mergePos (a + b) ws2) 0 + 1, ds.getD (mergePos (a + b) ws2) 0 + 1]

theorem finalDepths_succ (fuel : Nat) (pre : List Nat) (b a : Nat) :
    finalDepths (fuel + 1) (pre ++ [b, a]) =
      (finalDepths fuel (insertWeight (a + b) pre)).eraseIdx (mergePos (a + b) pre) ++
        [(finalDepths fuel (insertWeight (a + b) pre)).getD (mergePos (a + b) pre) 0 + 1,
         (finalDepths fuel (insertWeight (a + b) pre)).getD (mergePos (a + b) pre) 0 + 1] := by
  have h : pre ++ [b, a] = (pre ++ [b]) ++ [a] := by simp
  rw [h, finalDepths]
  simp only [popTail_append]

/-- Splitting the depths after a merge at the merged tree. -/
theorem finalDepths_split (fuel : Nat) (pre : List Nat) (b a : Nat)
    (hlen : (finalDepths fuel (insertWeight (a + b) pre)).length = pre.length + 1) :
    ∃ d1 e d2, finalDepths fuel (insertWeight (a + b) pre) = d1 ++ e :: d2 ∧ d1.length = mergePos (a + b) pre ∧
      d1.length + d2.length = pre.length ∧ finalDepths (fuel + 1) (pre ++ [b, a]) = (d1 ++ d2) ++ [e + 1, e + 1] := by
  set ds := finalDepths fuel (insertWeight (a + b) pre) with hds
  set k := mergePos (a + b) pre with hk
  have hkl : k < ds.length := by rw [hlen, hk]; have := mergePos_le (a + b) pre; omega
  refine ⟨ds.take k, ds[k], ds.drop (k + 1), ?_, ?_, ?_, ?_⟩
  · rw [List.cons_getElem_drop_succ, List.take_append_drop]
  · simp; omega
  · simp; omega
  · rw [finalDepths_succ, ← hds, ← hk, List.eraseIdx_eq_take_drop_succ, List.getD_eq_getElem _ _ hkl]

theorem finalDepths_length (fuel : Nat) (ws : List Nat) (h : fuel + 1 ≤ ws.length) :
    (finalDepths fuel ws).length = ws.length := by
  induction fuel generalizing ws with
  | zero => simp [finalDepths]
  | succ fuel ih =>
    obtain ⟨pre, b, a, rfl⟩ := exists_append_pair ws (by omega)
    simp only [List.length_append, List.length_cons, List.length_nil] at h
    have h1 := ih (insertWeight (a + b) pre) (by simp; omega)
    rw [insertWeight_length] at h1
    obtain ⟨d1, e, d2, -, -, h4, h5⟩ := finalDepths_split fuel pre b a h1
    rw [h5]; simp; omega

/-- The split for a live list of `fuel + 2` trees, `fuel + 1` merges before the end. -/
theorem finalDepths_cases (fuel : Nat) (ws : List Nat) (h : ws.length = fuel + 2) :
    ∃ pre b a d1 e d2, ws = pre ++ [b, a] ∧ pre.length = fuel ∧
      finalDepths fuel (insertWeight (a + b) pre) = d1 ++ e :: d2 ∧ d1.length = mergePos (a + b) pre ∧
      d1.length + d2.length = pre.length ∧ finalDepths (fuel + 1) ws = (d1 ++ d2) ++ [e + 1, e + 1] := by
  obtain ⟨pre, b, a, rfl⟩ := exists_append_pair ws (by omega)
  simp only [List.length_append, List.length_cons, List.length_nil] at h
  have h1 : (finalDepths fuel (insertWeight (a + b) pre)).length = pre.length + 1 := by
    rw [finalDepths_length _ _ (by simp; omega), insertWeight_length]
  obtain ⟨d1, e, d2, h2, h3, h4, h5⟩ := finalDepths_split fuel pre b a h1
  exact ⟨pre, b, a, d1, e, d2, rfl, by omega, h2, h3, h4, h5⟩

/-- The depths of a full binary tree: `sum of 2^(-depth)` is exactly 1 (R140 (c)), scaled by `2^H`. -/
theorem finalDepths_kraft (H fuel : Nat) (ws : List Nat) (h : ws.length = fuel + 1)
    (hH : ∀ e ∈ finalDepths fuel ws, e ≤ H) :
    ((finalDepths fuel ws).map fun e => 2 ^ (H - e)).sum = 2 ^ H := by
  induction fuel generalizing ws with
  | zero =>
    obtain ⟨x, rfl⟩ := List.length_eq_one_iff.1 h
    simp [finalDepths]
  | succ fuel ih =>
    obtain ⟨pre, b, a, d1, e, d2, rfl, h1, h2, -, -, h5⟩ := finalDepths_cases fuel ws h
    rw [h5] at hH ⊢
    have he : e + 1 ≤ H := hH (e + 1) (by simp)
    have := ih (insertWeight (a + b) pre) (by simp; omega) (by
      rw [h2]
      intro x hx
      simp only [List.mem_append, List.mem_cons] at hx
      rcases hx with hx | rfl | hx
      · exact hH x (by simp [hx])
      · omega
      · exact hH x (by simp [hx]))
    rw [h2] at this
    simp only [List.map_append, List.sum_append, List.map_cons, List.sum_cons, List.map_nil, List.sum_nil] at this ⊢
    have hp : 2 ^ (H - e) = 2 ^ (H - (e + 1)) + 2 ^ (H - (e + 1)) := by
      rw [show H - e = H - (e + 1) + 1 by omega, pow_succ]; omega
    omega

/-- With at least two trees every depth is at least 1 (R130). -/
theorem finalDepths_pos (fuel : Nat) (ws : List Nat) (h : ws.length = fuel + 2) :
    ∀ e ∈ finalDepths (fuel + 1) ws, 1 ≤ e := by
  induction fuel generalizing ws with
  | zero =>
    obtain ⟨pre, b, a, d1, e, d2, rfl, h1, h2, -, h4, h5⟩ := finalDepths_cases 0 ws h
    rw [h5]
    have : d1 = [] ∧ d2 = [] := by
      constructor <;> apply List.eq_nil_of_length_eq_zero <;> omega
    simp [this.1, this.2]
  | succ fuel ih =>
    obtain ⟨pre, b, a, d1, e, d2, rfl, h1, h2, -, h4, h5⟩ := finalDepths_cases (fuel + 1) ws h
    have := ih (insertWeight (a + b) pre) (by simp; omega)
    rw [h2] at this
    rw [h5]
    intro x hx
    simp only [List.mem_append, List.mem_cons, List.not_mem_nil, or_false] at hx
    rcases hx with (hx | hx) | rfl | rfl
    · exact this x (by simp [hx])
    · exact this x (by simp [hx])
    · omega
    · omega

/-- No depth exceeds the number of merges (R130: "at most `n_nz - 1`"). -/
theorem finalDepths_le (fuel : Nat) (ws : List Nat) (h : ws.length = fuel + 1) :
    ∀ e ∈ finalDepths fuel ws, e ≤ fuel := by
  induction fuel generalizing ws with
  | zero => simp [finalDepths]
  | succ fuel ih =>
    obtain ⟨pre, b, a, d1, e, d2, rfl, h1, h2, -, h4, h5⟩ := finalDepths_cases fuel ws h
    have := ih (insertWeight (a + b) pre) (by simp; omega)
    rw [h2] at this
    rw [h5]
    intro x hx
    simp only [List.mem_append, List.mem_cons, List.not_mem_nil, or_false] at hx
    have he : e ≤ fuel := this e (by simp)
    rcases hx with (hx | hx) | rfl | rfl
    · exact le_trans (this x (by simp [hx])) (by omega)
    · exact le_trans (this x (by simp [hx])) (by omega)
    · omega
    · omega

/-- In a descending live list the depths ascend, and a tree no heavier than the sum of the last two is at most one level above
the deepest: the sibling property of Huffman's construction. -/
theorem finalDepths_monotone (fuel : Nat) (ws : List Nat) (h : ws.length = fuel + 1)
    (hs : ws.Pairwise (fun a b => b ≤ a)) :
    (finalDepths fuel ws).Pairwise (fun d e => d ≤ e) ∧
    ∀ pre b a, ws = pre ++ [b, a] → ∀ i (hi : i < ws.length) (hd : i < (finalDepths fuel ws).length),
      ws[i] ≤ a + b → ∀ e ∈ finalDepths fuel ws, e ≤ (finalDepths fuel ws)[i] + 1 := by
  induction fuel generalizing ws with
  | zero =>
    obtain ⟨x, rfl⟩ := List.length_eq_one_iff.1 h
    simp [finalDepths]
  | succ fuel ih =>
    obtain ⟨pre, b, a, d1, e, d2, rfl, h1, h2, h3, h4, h5⟩ := finalDepths_cases fuel ws h
    have hpre : pre.Pairwise (fun a b => b ≤ a) := (List.pairwise_append.1 hs).1
    have hba : a ≤ b := by
      have := (List.pairwise_append.1 hs).2.1
      simpa using this
    have hpb : ∀ x ∈ pre, b ≤ x := fun x hx => (List.pairwise_append.1 hs).2.2 x hx b (by simp)
    obtain ⟨ih1, ih2⟩ := ih (insertWeight (a + b) pre) (by simp; omega) (insertWeight_descending _ hpre)
    rw [h2] at ih1 ih2
    -- every other depth is at most one more than that of the merged tree
    have hmax : ∀ x ∈ d1 ++ e :: d2, x ≤ e + 1 := by
      by_cases hshort : (insertWeight (a + b) pre).length < 2
      · have : d1 = [] ∧ d2 = [] := by
          simp only [insertWeight_length] at hshort
          constructor <;> apply List.eq_nil_of_length_eq_zero <;> omega
        simp [this.1, this.2]
      · obtain ⟨pre', b', a', hp'⟩ := exists_append_pair (insertWeight (a + b) pre) (by omega)
        have hsum : a + b ≤ a' + b' := by
          have hmem : ∀ x ∈ insertWeight (a + b) pre, x = a + b ∨ b ≤ x := by
            intro x hx
            rw [insertWeight] at hx
            simp only [List.mem_append, List.mem_cons] at hx
            rcases hx with hx | rfl | hx
            · exact .inr (hpb x (List.mem_of_mem_take hx))
            · exact .inl rfl
            · exact .inr (hpb x (List.mem_of_mem_drop hx))
          have ha' := hmem a' (by rw [hp']; simp)
          have hb' := hmem b' (by rw [hp']; simp)
          omega
        have hk : mergePos (a + b) pre ≤ pre.length := mergePos_le _ _
        have hget : (insertWeight (a + b) pre)[mergePos (a + b) pre]'(by simp; omega) = a + b := by
          simp only [insertWeight]
          rw [List.getElem_append_right (by simp)]
          simp [Nat.min_eq_left hk]
        have := ih2 pre' b' a' hp' (mergePos (a + b) pre) (by simp; omega) (by simp; omega) (by rw [hget]; exact hsum)
        intro x hx
        have hge : (d1 ++ e :: d2)[mergePos (a + b) pre]'(by simp; omega) = e := by
          rw [List.getElem_append_right (by omega)]; simp [h3]
        have := this x hx
        rwa [hge] at this
    have hsplit := List.pairwise_append.1 ih1
    have hd2 := List.pairwise_cons.1 hsplit.2.1
    rw [h5]
    constructor
    · rw [List.pairwise_append]
      refine ⟨?_, by simp, fun x hx y hy => ?_⟩
      · rw [List.pairwise_append]
        exact ⟨hsplit.1, hd2.2, fun x hx y hy => hsplit.2.2 x hx y (by simp [hy])⟩
      · have : y = e + 1 := by simpa using hy
        rw [this]
        refine hmax x ?_
        simp only [List.mem_append, List.mem_cons] at hx ⊢
        tauto
    · rintro pre' b' a' he' i hi hdi hle
      have hab : pre' = pre ∧ b' = b ∧ a' = a := by
        have hlen : pre.length = pre'.length := by
          have := congrArg List.length he'
          simpa using this
        have := List.append_inj he' hlen
        simp at this; tauto
      obtain ⟨rfl, rfl, rfl⟩ := hab
      -- every depth is at most e + 1
      have hall : ∀ x ∈ (d1 ++ d2) ++ [e + 1, e + 1], x ≤ e + 1 := by
        intro x hx
        simp only [List.mem_append, List.mem_cons, List.not_mem_nil, or_false] at hx
        rcases hx with (hx | hx) | rfl | rfl
        · exact hmax x (by simp [hx])
        · exact hmax x (by simp [hx])
        · exact le_refl _
        · exact le_refl _
      intro x hx
      refine le_trans (hall x hx) ?_
      -- the depth at i is at least e
      suffices he : e ≤ ((d1 ++ d2) ++ [e + 1, e + 1])[i] by omega
      by_cases hi1 : i < (d1 ++ d2).length
      · rw [List.getElem_append_left hi1]
        by_cases hi2 : i < d1.length
        · exfalso
          have hipre : i < pre'.length := by simp at hi1; omega
          rw [List.getElem_append_left hipre] at hle
          have : a' + b' < pre'[i] := by
            apply mergePos_before (ws := pre')
            rw [List.mem_take_iff_getElem]
            exact ⟨i, by omega, rfl⟩
          omega
        · rw [List.getElem_append_right (by omega)]
          exact hd2.1 _ (List.getElem_mem _)
      · rw [List.getElem_append_right (by omega)]
        have hmem := List.getElem_mem (l := [e + 1, e + 1]) (n := i - (d1 ++ d2).length) (by
          simp only [List.length_append, List.length_cons, List.length_nil] at hdi
          simp; omega)
        simp only [List.mem_cons, List.not_mem_nil, or_false, or_self] at hmem
        omega

/-! ### Weights within a factor of two give a tree of least height (R250) -/

/-- In such a live list the merged tree goes to the front, so the trees are popped first in, first out. `k` and `r` place the list:
`ws` is `2^k + r` trees; the trees that are popped in this round get one level more. -/
theorem finalDepths_balanced (fuel k r : Nat) (ws : List Nat) (h : ws.length = fuel + 1)
    (hs : ws.Pairwise (fun a b => b ≤ a)) (hk : ws.length = 2 ^ k + r) (hr : r ≤ 2 ^ k)
    (hsum : ∀ pre b a, ws = pre ++ [b, a] → ∀ x ∈ ws, x ≤ a + b) :
    (∀ e ∈ finalDepths fuel ws, e ≤ k + 1) ∧ ∀ e ∈ (finalDepths fuel ws).take (2 ^ k - r), e ≤ k := by
  induction fuel generalizing ws k r with
  | zero =>
    obtain ⟨x, rfl⟩ := List.length_eq_one_iff.1 h
    have : ∀ e ∈ finalDepths 0 [x], e = 0 := by simp [finalDepths]
    exact ⟨fun e he => by rw [this e he]; omega, fun e he => by rw [this e (List.mem_of_mem_take he)]; omega⟩
  | succ fuel ih =>
    -- a full round starts again one level lower
    suffices main : ∀ k r, ws.length = 2 ^ k + r → r ≤ 2 ^ k → 1 ≤ r →
        (∀ e ∈ finalDepths (fuel + 1) ws, e ≤ k + 1) ∧
        ∀ e ∈ (finalDepths (fuel + 1) ws).take (2 ^ k - r), e ≤ k by
      by_cases hr0 : r = 0
      · subst hr0
        cases k with
        | zero => simp at hk; omega
        | succ k =>
          rw [pow_succ] at hk
          obtain ⟨m1, -⟩ := main k (2 ^ k) (by omega) (le_refl _) Nat.one_le_two_pow
          exact ⟨fun e he => le_trans (m1 e he) (by omega), fun e he => m1 e (List.mem_of_mem_take he)⟩
      · exact main k r hk hr (by omega)
    intro k r hk hr hr1
    obtain ⟨pre, b, a, d1, e, d2, rfl, h1, h2, h3, h4, h5⟩ := finalDepths_cases fuel ws h
    have hle : ∀ x ∈ pre ++ [b, a], x ≤ a + b := hsum pre b a rfl
    have hpos : mergePos (a + b) pre = 0 := by
      cases pre with
      | nil => rfl
      | cons p ps => rw [mergePos_cons, if_pos (hle p (by simp))]
    have hd1 : d1 = [] := List.eq_nil_of_length_eq_zero (by omega)
    subst hd1
    have hins : insertWeight (a + b) pre = (a + b) :: pre := by rw [insertWeight, hpos]; rfl
    have hpre : pre.Pairwise (fun a b => b ≤ a) := (List.pairwise_append.1 hs).1
    have hba : a ≤ b := by
      have := (List.pairwise_append.1 hs).2.1
      simpa using this
    have hpb : ∀ x ∈ pre, b ≤ x := fun x hx => (List.pairwise_append.1 hs).2.2 x hx b (by simp)
    simp only [List.length_append, List.length_cons, List.length_nil] at hk
    have hih := ih k (r - 1) ((a + b) :: pre) (by simp; omega)
      (List.pairwise_cons.2 ⟨fun x hx => hle x (by simp [hx]), hpre⟩) (by simp; omega) (by omega) (by
        intro pre' b' a' he x hx
        have hx' : x ≤ a + b := by
          rcases List.mem_cons.1 hx with rfl | hx
          · exact le_refl _
          · exact hle x (by simp [hx])
        have hmem : ∀ y ∈ (a + b) :: pre, y = a + b ∨ b ≤ y := by
          intro y hy
          rcases List.mem_cons.1 hy with rfl | hy
          · exact .inl rfl
          · exact .inr (hpb y hy)
        have ha' := hmem a' (by rw [he]; simp)
        have hb' := hmem b' (by rw [he]; simp)
        omega)
    rw [← hins, h2] at hih
    simp only [List.nil_append] at hih h5 h4
    have he : e ≤ k := hih.2 e (by
      rw [show 2 ^ k - (r - 1) = (2 ^ k - r) + 1 by omega]; simp)
    rw [h5]
    constructor
    · intro x hx
      simp only [List.mem_append, List.mem_cons, List.not_mem_nil, or_false] at hx
      rcases hx with hx | rfl | rfl
      · exact hih.1 x (by simp [hx])
      · omega
      · omega
    · intro x hx
      have hlen : 2 ^ k - r ≤ d2.length := by simp at h4; omega
      rw [List.take_append_of_le_length hlen] at hx
      apply hih.2 x
      rw [show 2 ^ k - (r - 1) = (2 ^ k - r) + 1 by omega]
      simp [hx]

/-- `n` trees whose weights are within a factor of two of each other get depths at most `H` when `n <= 2^H`. -/
theorem finalDepths_le_of_balanced {H fuel : Nat} {ws : List Nat} (h : ws.length = fuel + 1)
    (hs : ws.Pairwise (fun a b => b ≤ a)) (hn : ws.length ≤ 2 ^ H)
    (hsum : ∀ x ∈ ws, ∀ y ∈ ws, ∀ z ∈ ws, x ≤ y + z) : ∀ e ∈ finalDepths fuel ws, e ≤ H := by
  have hne : ws.length ≠ 0 := by omega
  set k := ws.length.log2 with hkdef
  have h1 : 2 ^ k ≤ ws.length := Nat.log2_self_le hne
  have h2 : ws.length < 2 ^ (k + 1) := Nat.lt_log2_self
  have hkH : k ≤ H := by
    by_contra hc
    have : 2 ^ H < 2 ^ k := Nat.pow_lt_pow_right (by omega) (by omega)
    omega
  have hb := finalDepths_balanced fuel k (ws.length - 2 ^ k) ws h hs (by omega) (by rw [pow_succ] at h2; omega)
    (fun pre b a he x hx => hsum x hx a (by rw [he]; simp) b (by rw [he]; simp))
  intro e he
  by_cases hr : ws.length = 2 ^ k
  · apply le_trans _ hkH
    apply hb.2 e
    rw [List.take_of_length_le]
    · exact he
    · rw [finalDepths_length _ _ (by omega)]; omega
  · have : k < H := by
      by_contra hc
      have : k = H := by omega
      subst this; omega
    exact le_trans (hb.1 e he) (by omega)

end Sys2Proof.Machine
end

