-- ==== Sys2Proof/Laws/Arena.lean ====
section
/-! SUPPORT. The arena holds a tree: what `mergeAll` builds with pool indices is a binary tree over the leaves, and `setDepths` writes
the depth of each of its leaves. `attemptDepths_eq` says what an attempt writes. -/

namespace Sys2Proof.Machine

/-- A binary tree over symbols, what a root node and the pool stand for. -/
inductive HTree where
  | leaf (sym : Nat)
  | node (left right : HTree)

/-- The leaves of a tree whose root is at `level`, each symbol with its depth, left to right (R130). -/
def HTree.depths : HTree → Nat → List (Nat × Nat)
  | .leaf sym, level => [(sym, level)]
  | .node l r, level => l.depths (level + 1) ++ r.depths (level + 1)

def HTree.height : HTree → Nat
  | .leaf _ => 0
  | .node l r => max l.height r.height + 1

theorem HTree.height_lt_length (t : HTree) (level : Nat) : t.height < (t.depths level).length := by
  induction t generalizing level with
  | leaf => simp [height, depths]
  | node l r ihl ihr =>
    have := ihl (level + 1)
    have := ihr (level + 1)
    simp only [height, depths, List.length_append]
    omega

/-- A node and the pool stand for a tree. -/
inductive Represents (pool : List Node) : Node → HTree → Prop
  | leaf (w sym : Nat) : Represents pool (leafNode w sym) (.leaf sym)
  | node {x left right : Node} {l r : Nat} {tl tr : HTree} (hl : x.leftIndex = some l) (hr : x.rightIndex = some r)
      (hpl : pool[l]? = some left) (hpr : pool[r]? = some right)
      (htl : Represents pool left tl) (htr : Represents pool right tr) : Represents pool x (.node tl tr)

/-- The pool is append-only (R37), so what a node stands for stays. -/
theorem Represents.append {pool : List Node} {x : Node} {t : HTree} (h : Represents pool x t) (more : List Node) :
    Represents (pool ++ more) x t := by
  have get : ∀ {i : Nat} {y : Node}, pool[i]? = some y → (pool ++ more)[i]? = some y := by
    intro i y hy
    have hi : i < pool.length := (List.getElem?_eq_some_iff.1 hy).1
    rw [List.getElem?_append_left hi, hy]
  induction h with
  | leaf w sym => exact .leaf w sym
  | node hl hr hpl hpr _ _ ihl ihr => exact .node hl hr (get hpl) (get hpr) ihl ihr

/-- `depth[symbol] <- level` for each pair in order. -/
def setAll (pairs : List (Nat × Nat)) (depth : List Nat) : List Nat :=
  pairs.foldl (fun d p => d.set p.1 p.2) depth

theorem setAll_append (ps qs : List (Nat × Nat)) (depth : List Nat) :
    setAll (ps ++ qs) depth = setAll qs (setAll ps depth) := by
  rw [setAll, setAll, setAll, List.foldl_append]

/-- `set_depths` writes the depth of every leaf (R130). -/
theorem setDepths_eq {pool : List Node} {x : Node} {t : HTree} (h : Represents pool x t) :
    ∀ (fuel level : Nat) (depth : List Nat), t.height < fuel → setDepths pool fuel x level depth = setAll (t.depths level) depth := by
  induction h with
  | leaf w sym =>
    intro fuel level depth hf
    obtain ⟨fuel, rfl⟩ : ∃ k, fuel = k + 1 := ⟨fuel - 1, by omega⟩
    simp [setDepths, leafNode, HTree.depths, setAll]
  | node hl hr hpl hpr _ _ ihl ihr =>
    intro fuel level depth hf
    obtain ⟨fuel, rfl⟩ : ∃ k, fuel = k + 1 := ⟨fuel - 1, by omega⟩
    simp only [HTree.height] at hf
    simp only [setDepths, hl, hr, hpl, hpr, HTree.depths, setAll_append]
    rw [ihl fuel _ _ (by omega), ihr fuel _ _ (by omega)]

theorem setAll_length (ps : List (Nat × Nat)) (depth : List Nat) : (setAll ps depth).length = depth.length := by
  induction ps generalizing depth with
  | nil => rfl
  | cons p ps ih => rw [setAll, List.foldl_cons]; exact (ih _).trans (by simp)

/-- An entry no pair names stays. -/
theorem setAll_get_other {ps : List (Nat × Nat)} {depth : List Nat} {i : Nat} (h : ∀ p ∈ ps, p.1 ≠ i) :
    (setAll ps depth)[i]? = depth[i]? := by
  induction ps generalizing depth with
  | nil => rfl
  | cons p ps ih =>
    rw [setAll, List.foldl_cons]
    refine (ih (fun q hq => h q (by simp [hq]))).trans ?_
    rw [List.getElem?_set_ne (h p (by simp))]

/-- With distinct symbols each named entry holds its pair's value. -/
theorem setAll_get_mem {ps : List (Nat × Nat)} {depth : List Nat} (hn : (ps.map Prod.fst).Nodup)
    {p : Nat × Nat} (hp : p ∈ ps) (hi : p.1 < depth.length) : (setAll ps depth)[p.1]? = some p.2 := by
  induction ps generalizing depth with
  | nil => simp at hp
  | cons q qs ih =>
    rw [setAll, List.foldl_cons]
    simp only [List.map_cons, List.nodup_cons] at hn
    rcases List.mem_cons.1 hp with rfl | hp
    · refine (setAll_get_other (fun x hx he => hn.1 ?_)).trans (by rw [List.getElem?_set_self hi])
      exact he ▸ List.mem_map_of_mem hx
    · exact ih hn.2 hp (by simpa using hi)

/-- A sum over the entries, where each entry named was one that counts 0. -/
theorem setAll_sum (f : Nat → Nat) {ps : List (Nat × Nat)} {depth : List Nat} (hn : (ps.map Prod.fst).Nodup)
    (h0 : ∀ p ∈ ps, ∃ v, depth[p.1]? = some v ∧ f v = 0) :
    ((setAll ps depth).map f).sum = (depth.map f).sum + (ps.map fun p => f p.2).sum := by
  induction ps generalizing depth with
  | nil => simp [setAll]
  | cons q qs ih =>
    rw [setAll, List.foldl_cons]
    simp only [List.map_cons, List.nodup_cons] at hn
    have hset : ∀ (l : List Nat) (i v x : Nat), l[i]? = some v → f v = 0 →
        ((l.set i x).map f).sum = (l.map f).sum + f x := by
      intro l
      induction l with
      | nil => intro i v x h; simp at h
      | cons y ys ihl =>
        intro i v x h hv
        cases i with
        | zero =>
          simp at h; subst h
          simp [hv]; omega
        | succ i =>
          have := ihl i v x (by simpa using h) hv
          simp only [List.set_cons_succ, List.map_cons, List.sum_cons, this]; omega
    obtain ⟨v, hv, hfv⟩ := h0 q (by simp)
    have := ih (depth := depth.set q.1 q.2) hn.2 (fun p hp => by
      obtain ⟨u, hu, hfu⟩ := h0 p (by simp [hp])
      refine ⟨u, ?_, hfu⟩
      rw [List.getElem?_set_ne, hu]
      rintro he
      exact hn.1 (he ▸ List.mem_map_of_mem hp))
    rw [setAll] at this
    rw [this, hset depth q.1 v q.2 hv hfv]
    simp only [List.map_cons, List.sum_cons]; omega

/-- The trees of a live list at their final depths. -/
def placed (trees : List HTree) (ds : List Nat) : List (Nat × Nat) :=
  (trees.zip ds).flatMap fun p => p.1.depths p.2

theorem placed_append {t1 t2 : List HTree} {d1 d2 : List Nat} (h : t1.length = d1.length) :
    placed (t1 ++ t2) (d1 ++ d2) = placed t1 d1 ++ placed t2 d2 := by
  rw [placed, List.zip_append h, List.flatMap_append]; rfl

theorem placed_cons (t : HTree) (ts : List HTree) (d : Nat) (ds : List Nat) :
    placed (t :: ts) (d :: ds) = t.depths d ++ placed ts ds := by
  simp [placed]

/-- The merges of an attempt: one root remains, it stands for a tree, and every tree of the live list is in it at the depth that
`finalDepths` follows. -/
theorem mergeAll_tree (fuel : Nat) (live pool : List Node) (trees : List HTree) (h : live.length = fuel + 1)
    (hr : List.Forall₂ (Represents pool) live trees) :
    ∃ root t, (mergeAll fuel live pool).1 = [root] ∧ Represents (mergeAll fuel live pool).2 root t ∧
      (mergeAll fuel live pool).2.length = pool.length + 2 * fuel ∧
      (t.depths 0).Perm (placed trees (finalDepths fuel (live.map Node.weight))) := by
  induction fuel generalizing live pool trees with
  | zero =>
    obtain ⟨x, rfl⟩ := List.length_eq_one_iff.1 h
    cases hr with
    | cons h1 h2 =>
      cases h2
      rename_i t
      exact ⟨x, t, rfl, h1, by simp [mergeAll], by simp [finalDepths, placed]⟩
  | succ fuel ih =>
    obtain ⟨pre, b, a, rfl⟩ := exists_append_pair live (by omega)
    simp only [List.length_append, List.length_cons, List.length_nil] at h
    -- the trees end in two as well
    have htl : trees.length = pre.length + 2 := by
      have := hr.length_eq
      simp at this; omega
    obtain ⟨tpre, tb, ta, rfl⟩ := exists_append_pair trees (by omega)
    have hpl : pre.length = tpre.length := by simp at htl; omega
    have hr1 : List.Forall₂ (Represents pool) pre tpre := by
      have := List.forall₂_take pre.length hr
      simpa [List.take_append_of_le_length, hpl] using this
    have hr2 : List.Forall₂ (Represents pool) [b, a] [tb, ta] := by
      have := List.forall₂_drop pre.length hr
      simpa [hpl] using this
    obtain ⟨hb, ha⟩ : Represents pool b tb ∧ Represents pool a ta := by
      cases hr2 with
      | cons h1 h2 => cases h2 with
        | cons h3 h4 => exact ⟨h1, h3⟩
    set merged : Node :=
      { weight := a.weight + b.weight, symbol := -1, leftIndex := some (pool.length + 1),
        rightIndex := some pool.length } with hm
    have hstep : mergeAll (fuel + 1) (pre ++ [b, a]) pool = mergeAll fuel (insertMerged merged pre) (pool ++ [a, b]) := by
      have he : pre ++ [b, a] = (pre ++ [b]) ++ [a] := by simp
      rw [he, mergeAll]
      simp only [popTail_append]
      rfl
    have hmr : Represents (pool ++ [a, b]) merged (.node tb ta) :=
      .node (l := pool.length + 1) (r := pool.length) rfl rfl (by simp) (by simp) (hb.append _) (ha.append _)
    set k := mergePos (a.weight + b.weight) (pre.map Node.weight) with hk
    have hkle : k ≤ pre.length := by
      have := mergePos_le (a.weight + b.weight) (pre.map Node.weight)
      rw [List.length_map] at this; exact this
    have hins : insertMerged merged pre = pre.take k ++ merged :: pre.drop k := insertMerged_eq merged pre
    have hr' : List.Forall₂ (Represents (pool ++ [a, b])) (insertMerged merged pre)
        (tpre.take k ++ HTree.node tb ta :: tpre.drop k) := by
      have hmono : List.Forall₂ (Represents (pool ++ [a, b])) pre tpre := hr1.imp fun _ _ h => h.append _
      rw [hins]
      exact List.rel_append (List.forall₂_take k hmono) (.cons hmr (List.forall₂_drop k hmono))
    have hlen' : (insertMerged merged pre).length = fuel + 1 := by
      rw [hins]; simp; omega
    obtain ⟨root, t, e1, e2, e3, e4⟩ := ih _ (pool ++ [a, b]) _ hlen' hr'
    refine ⟨root, t, by rw [hstep]; exact e1, by rw [hstep]; exact e2, by rw [hstep, e3]; simp; omega, ?_⟩
    -- the depths of the two popped trees are one below the merged tree's
    have hw : (insertMerged merged pre).map Node.weight = insertWeight (a.weight + b.weight) (pre.map Node.weight) :=
      map_insertMerged merged pre
    rw [hw] at e4
    have hdl : (finalDepths fuel (insertWeight (a.weight + b.weight) (pre.map Node.weight))).length = pre.length + 1 := by
      rw [finalDepths_length _ _ (by simp; omega)]; simp
    obtain ⟨d1, e, d2, s1, s2, s3, s4⟩ := finalDepths_split fuel (pre.map Node.weight) b.weight a.weight (by simpa using hdl)
    rw [s1] at e4
    rw [show (pre ++ [b, a]).map Node.weight = pre.map Node.weight ++ [b.weight, a.weight] by simp, s4]
    rw [← hk] at s2
    simp only [List.length_map] at s3
    have ht1 : (tpre.take k).length = d1.length := by simp; omega
    have ht2 : (tpre.drop k).length = d2.length := by simp; omega
    have hleft : placed (tpre.take k ++ HTree.node tb ta :: tpre.drop k) (d1 ++ e :: d2) =
        placed (tpre.take k) d1 ++ ((tb.depths (e + 1) ++ ta.depths (e + 1)) ++ placed (tpre.drop k) d2) := by
      rw [placed_append ht1, placed_cons]; rfl
    have hright : placed (tpre ++ [tb, ta]) (d1 ++ d2 ++ [e + 1, e + 1]) =
        placed (tpre.take k) d1 ++ placed (tpre.drop k) d2 ++ (tb.depths (e + 1) ++ ta.depths (e + 1)) := by
      rw [placed_append (by simp; omega)]
      conv_lhs => rw [← List.take_append_drop k tpre]
      rw [placed_append ht1, placed_cons, placed_cons]
      simp [placed]
    rw [hleft] at e4
    rw [hright, List.append_assoc]
    exact e4.trans (List.Perm.append_left _ List.perm_append_comm)

end Sys2Proof.Machine
end

