-- ==== Sys2Proof/Laws/Buffer.lean ====
section
/-! SUPPORT. The laws of buffer elements: read after write, frames, the canonical form, and what reading a range says. -/

namespace Sys2Proof.Machine

variable {w : Nat}

@[simp] theorem bufGet_nil (i : Nat) : bufGet i ([] : Buf w) = none := rfl

/-- Read after write, the same element. -/
@[simp] theorem bufGet_bufSet_same (i : Nat) (v : BitVec w) (b : Buf w) : bufGet i (bufSet i v b) = some v := by
  induction b with
  | nil => simp [bufSet, bufGet]
  | cons p rest ih =>
    obtain ⟨j, x⟩ := p
    by_cases h1 : i < j
    · simp [bufSet, h1, bufGet]
    · by_cases h2 : i = j
      · simp [bufSet, h2, bufGet]
      · have : ¬ j = i := fun h => h2 h.symm
        simp [bufSet, h1, h2, bufGet, this, ih]

/-- Read after write, another element: a write leaves every other element as it was. -/
theorem bufGet_bufSet_other {i k : Nat} (v : BitVec w) (b : Buf w) (h : k ≠ i) :
    bufGet k (bufSet i v b) = bufGet k b := by
  induction b with
  | nil => simp [bufSet, bufGet, Ne.symm h]
  | cons p rest ih =>
    obtain ⟨j, x⟩ := p
    by_cases h1 : i < j
    · simp [bufSet, h1, bufGet, Ne.symm h]
    · by_cases h2 : i = j
      · subst h2; simp [bufSet, bufGet, Ne.symm h]
      · by_cases h3 : j = k
        · subst h3; simp [bufSet, h1, h2, bufGet]
        · simp [bufSet, h1, h2, bufGet, h3, ih]

theorem bufGet_bufSet (i k : Nat) (v : BitVec w) (b : Buf w) :
    bufGet k (bufSet i v b) = if k = i then some v else bufGet k b := by
  by_cases h : k = i
  · simp [h]
  · simp [h, bufGet_bufSet_other v b h]

/-- The element of index `k` after an ascending write of `vs` from `i` on. -/
theorem bufGet_bufSetFrom (i k : Nat) (vs : List (BitVec w)) (b : Buf w) :
    bufGet k (bufSetFrom i vs b) = if h : i ≤ k ∧ k - i < vs.length then some (vs[k - i]'h.2) else bufGet k b := by
  induction vs generalizing i b with
  | nil => simp [bufSetFrom]
  | cons v vs ih =>
    rw [bufSetFrom, ih]
    by_cases h1 : i + 1 ≤ k ∧ k - (i + 1) < vs.length
    · have h2 : i ≤ k ∧ k - i < (v :: vs).length := by simp; omega
      rw [dif_pos h1, dif_pos h2]
      have : k - i = k - (i + 1) + 1 := by omega
      simp [this]
    · rw [dif_neg h1, bufGet_bufSet]
      by_cases h3 : k = i
      · subst h3; simp
      · rw [if_neg h3, dif_neg]
        simp; omega

/-- An ascending write leaves every element outside its range as it was. -/
theorem bufGet_bufSetFrom_outside {i k : Nat} (vs : List (BitVec w)) (b : Buf w)
    (h : k < i ∨ i + vs.length ≤ k) : bufGet k (bufSetFrom i vs b) = bufGet k b := by
  rw [bufGet_bufSetFrom, dif_neg]; omega

theorem bufGet_bufSetFrom_zero {k : Nat} (vs : List (BitVec w)) (b : Buf w) (h : k < vs.length) :
    bufGet k (bufSetFrom 0 vs b) = some vs[k] := by
  rw [bufGet_bufSetFrom, dif_pos ⟨Nat.zero_le _, by simpa using h⟩]; simp

/-! ### The canonical form -/

/-- A member of the buffer after a write is the written element or was a member before. -/
theorem mem_bufSet {p : Nat × BitVec w} {i : Nat} {v : BitVec w} {b : Buf w} (h : p ∈ bufSet i v b) :
    p = (i, v) ∨ p ∈ b := by
  induction b with
  | nil => simpa [bufSet] using h
  | cons q rest ih =>
    obtain ⟨j, x⟩ := q
    by_cases h1 : i < j
    · simpa [bufSet, h1] using h
    · by_cases h2 : i = j
      · subst h2
        have : p = (i, v) ∨ p ∈ rest := by simpa [bufSet] using h
        rcases this with h | h
        · exact .inl h
        · exact .inr (List.mem_cons_of_mem _ h)
      · have : p = (j, x) ∨ p ∈ bufSet i v rest := by simpa [bufSet, h1, h2] using h
        rcases this with h | h
        · exact .inr (h ▸ List.mem_cons_self ..)
        · rcases ih h with h | h
          · exact .inl h
          · exact .inr (List.mem_cons_of_mem _ h)

/-- A write keeps the indices strictly rising. -/
theorem bufSet_rising (i : Nat) (v : BitVec w) (b : Buf w) (h : b.Pairwise (fun p q => p.1 < q.1)) :
    (bufSet i v b).Pairwise (fun p q => p.1 < q.1) := by
  induction b with
  | nil => simp [bufSet]
  | cons q rest ih =>
    obtain ⟨j, x⟩ := q
    rw [List.pairwise_cons] at h
    by_cases h1 : i < j
    · rw [show bufSet i v ((j, x) :: rest) = (i, v) :: (j, x) :: rest by simp [bufSet, h1]]
      refine List.pairwise_cons.2 ⟨?_, List.pairwise_cons.2 h⟩
      intro p hp
      rcases List.mem_cons.1 hp with rfl | hp
      · exact h1
      · exact Nat.lt_trans h1 (h.1 p hp)
    · by_cases h2 : i = j
      · subst h2
        rw [show bufSet i v ((i, x) :: rest) = (i, v) :: rest by simp [bufSet]]
        exact List.pairwise_cons.2 ⟨h.1, h.2⟩
      · rw [show bufSet i v ((j, x) :: rest) = (j, x) :: bufSet i v rest by simp [bufSet, h1, h2]]
        refine List.pairwise_cons.2 ⟨?_, ih h.2⟩
        intro p hp
        rcases mem_bufSet hp with rfl | hp
        · simp only; omega
        · exact h.1 p hp

/-- A write inside the space keeps the canonical form. -/
theorem bufSet_wf {size i : Nat} (v : BitVec w) {b : Buf w} (hi : i < size) (h : Buf.wf size b) :
    Buf.wf size (bufSet i v b) := by
  refine ⟨bufSet_rising i v b h.1, fun p hp => ?_⟩
  rcases mem_bufSet hp with rfl | hp
  · exact hi
  · exact h.2 p hp

/-- An ascending write inside the space keeps the canonical form. -/
theorem bufSetFrom_wf {size i : Nat} (vs : List (BitVec w)) {b : Buf w} (hi : i + vs.length ≤ size)
    (h : Buf.wf size b) : Buf.wf size (bufSetFrom i vs b) := by
  induction vs generalizing i b with
  | nil => exact h
  | cons v vs ih =>
    simp only [List.length_cons] at hi
    exact ih (by omega) (bufSet_wf v (by omega) h)

theorem empty_wf (size : Nat) : Buf.wf size ([] : Buf w) := ⟨List.Pairwise.nil, by simp⟩

/-! ### Reading a range -/

/-- What a successful read of a range says: one value per element. -/
theorem bufRead_ok_iff {b : Buf w} {i k : Nat} {vs : List (BitVec w)} :
    bufRead b i k = .ok vs ↔ vs.length = k ∧ ∀ j (h : j < vs.length), bufGet (i + j) b = some vs[j] := by
  induction k generalizing i vs with
  | zero =>
    simp only [bufRead, Except.ok.injEq]
    constructor
    · rintro rfl; simp
    · rintro ⟨h, -⟩; exact (List.eq_nil_of_length_eq_zero h).symm
  | succ k ih =>
    rw [bufRead]
    cases hv : bufGet i b with
    | none =>
      simp only [reduceCtorEq, false_iff]
      rintro ⟨hl, hs⟩
      have := hs 0 (by omega)
      simp [hv] at this
    | some v =>
      cases hr : bufRead b (i + 1) k with
      | error j =>
        simp only [reduceCtorEq, false_iff]
        rintro ⟨hl, hs⟩
        cases vs with
        | nil => simp at hl
        | cons x xs =>
          have : bufRead b (i + 1) k = .ok xs := by
            refine ih.2 ⟨by simpa using hl, fun j hj => ?_⟩
            have := hs (j + 1) (by simpa using hj)
            rw [show i + 1 + j = i + (j + 1) by omega]
            simpa using this
          rw [hr] at this; cases this
      | ok xs =>
        simp only [Except.ok.injEq]
        have hxs := ih.1 hr
        constructor
        · rintro rfl
          refine ⟨by simp [hxs.1], fun j hj => ?_⟩
          cases j with
          | zero => simp [hv]
          | succ j =>
            have := hxs.2 j (by simpa using hj)
            rw [show i + (j + 1) = i + 1 + j by omega]
            simpa using this
        · rintro ⟨hl, hs⟩
          cases vs with
          | nil => simp at hl
          | cons y ys =>
            have h0 := hs 0 (by simp)
            simp [hv] at h0
            have : bufRead b (i + 1) k = .ok ys := by
              refine ih.2 ⟨by simpa using hl, fun j hj => ?_⟩
              have := hs (j + 1) (by simpa using hj)
              rw [show i + 1 + j = i + (j + 1) by omega]
              simpa using this
            rw [hr] at this
            cases this; rw [h0]

/-- A range all of whose elements hold a value reads. -/
theorem bufRead_of_written {b : Buf w} {i k : Nat} (h : ∀ j < k, bufGet (i + j) b ≠ none) :
    ∃ vs, bufRead b i k = .ok vs := by
  induction k generalizing i with
  | zero => exact ⟨[], rfl⟩
  | succ k ih =>
    obtain ⟨v, hv⟩ := Option.ne_none_iff_exists'.1 (h 0 (by omega))
    obtain ⟨vs, hvs⟩ := @ih (i + 1) (fun j hj => by
      have := h (j + 1) (by omega)
      rwa [show i + (j + 1) = i + 1 + j by omega] at this)
    exact ⟨v :: vs, by rw [Nat.add_zero] at hv; simp [bufRead, hv, hvs]⟩

/-- A read of a range that fails names the first element that holds no value. -/
theorem bufRead_error_iff {b : Buf w} {i k j : Nat} :
    bufRead b i k = .error j ↔ i ≤ j ∧ j < i + k ∧ bufGet j b = none ∧ ∀ m, i ≤ m → m < j → bufGet m b ≠ none := by
  induction k generalizing i with
  | zero => simp only [bufRead, reduceCtorEq, false_iff]; omega
  | succ k ih =>
    rw [bufRead]
    cases hv : bufGet i b with
    | none =>
      simp only [Except.error.injEq]
      constructor
      · rintro rfl; exact ⟨le_refl _, by omega, hv, fun m h1 h2 => by omega⟩
      · rintro ⟨h1, -, -, h4⟩
        by_contra hne
        exact h4 i (le_refl _) (by omega) hv
    | some v =>
      have key : (∃ e, bufRead b (i + 1) k = .error e) ∨ ∃ vs, bufRead b (i + 1) k = .ok vs := by
        cases bufRead b (i + 1) k with
        | error e => exact .inl ⟨e, rfl⟩
        | ok vs => exact .inr ⟨vs, rfl⟩
      have step : (i ≤ j ∧ j < i + (k + 1) ∧ bufGet j b = none ∧ ∀ m, i ≤ m → m < j → bufGet m b ≠ none) ↔
          (i + 1 ≤ j ∧ j < i + 1 + k ∧ bufGet j b = none ∧ ∀ m, i + 1 ≤ m → m < j → bufGet m b ≠ none) := by
        constructor
        · rintro ⟨h1, h2, h3, h4⟩
          have : i ≠ j := by rintro rfl; rw [hv] at h3; cases h3
          exact ⟨by omega, by omega, h3, fun m h5 h6 => h4 m (by omega) h6⟩
        · rintro ⟨h1, h2, h3, h4⟩
          refine ⟨by omega, by omega, h3, fun m h5 h6 => ?_⟩
          by_cases hm : m = i
          · subst hm; simp [hv]
          · exact h4 m (by omega) h6
      rw [step, ← ih]
      rcases key with ⟨e, he⟩ | ⟨vs, hvs⟩
      · simp [he]
      · simp [hvs]


end Sys2Proof.Machine
end

