-- ==== Sys2Proof/Laws/State.lean ====
section
/-! SUPPORT. One lemma per field per update of State, each true by rfl, so that no later proof unfolds a record update. -/

namespace Sys2Proof.Machine

variable (s : State)

/-! PHASE moves to a unit. -/

@[simp] theorem enterPhase_params (p : Phase) : (enterPhase p s).params = s.params := rfl
@[simp] theorem enterPhase_status (p : Phase) : (enterPhase p s).status = s.status := rfl
@[simp] theorem enterPhase_cause (p : Phase) : (enterPhase p s).cause = s.cause := rfl
@[simp] theorem enterPhase_n (p : Phase) : (enterPhase p s).n = s.n := rfl
@[simp] theorem enterPhase_dlim (p : Phase) : (enterPhase p s).dlim = s.dlim := rfl
@[simp] theorem enterPhase_maxtok (p : Phase) : (enterPhase p s).maxtok = s.maxtok := rfl
@[simp] theorem enterPhase_tokcnt (p : Phase) : (enterPhase p s).tokcnt = s.tokcnt := rfl
@[simp] theorem enterPhase_cmin (p : Phase) : (enterPhase p s).cmin = s.cmin := rfl
@[simp] theorem enterPhase_phase (p : Phase) : (enterPhase p s).phase = p := rfl
@[simp] theorem enterPhase_hist (p : Phase) : (enterPhase p s).hist = s.hist := rfl
@[simp] theorem enterPhase_len (p : Phase) : (enterPhase p s).len = s.len := rfl
@[simp] theorem enterPhase_code (p : Phase) : (enterPhase p s).code = s.code := rfl
@[simp] theorem enterPhase_tok (p : Phase) : (enterPhase p s).tok = s.tok := rfl
@[simp] theorem enterPhase_host (p : Phase) : (enterPhase p s).host = s.host := rfl
@[simp] theorem enterPhase_reads (p : Phase) : (enterPhase p s).reads = s.reads := rfl
@[simp] theorem enterPhase_epoch (p : Phase) : (enterPhase p s).epoch = s.epoch := rfl
@[simp] theorem enterPhase_expOut (p : Phase) : (enterPhase p s).expOut = s.expOut := rfl
@[simp] theorem enterPhase_expPrev (p : Phase) : (enterPhase p s).expPrev = s.expPrev := rfl

/-! Acceptance. -/

@[simp] theorem acceptCommand_params : (acceptCommand s).params = s.params := rfl
@[simp] theorem acceptCommand_status : (acceptCommand s).status = statusBusy := rfl
@[simp] theorem acceptCommand_cause : (acceptCommand s).cause = causeCode .none := rfl
@[simp] theorem acceptCommand_n : (acceptCommand s).n = s.n := rfl
@[simp] theorem acceptCommand_dlim : (acceptCommand s).dlim = s.dlim := rfl
@[simp] theorem acceptCommand_maxtok : (acceptCommand s).maxtok = s.maxtok := rfl
@[simp] theorem acceptCommand_tokcnt : (acceptCommand s).tokcnt = s.tokcnt := rfl
@[simp] theorem acceptCommand_cmin : (acceptCommand s).cmin = s.cmin := rfl
@[simp] theorem acceptCommand_phase : (acceptCommand s).phase = s.phase := rfl
@[simp] theorem acceptCommand_hist : (acceptCommand s).hist = s.hist := rfl
@[simp] theorem acceptCommand_len : (acceptCommand s).len = s.len := rfl
@[simp] theorem acceptCommand_code : (acceptCommand s).code = s.code := rfl
@[simp] theorem acceptCommand_tok : (acceptCommand s).tok = s.tok := rfl
@[simp] theorem acceptCommand_host : (acceptCommand s).host = s.host := rfl
@[simp] theorem acceptCommand_reads : (acceptCommand s).reads = s.reads := rfl
@[simp] theorem acceptCommand_epoch : (acceptCommand s).epoch = s.epoch := rfl
@[simp] theorem acceptCommand_expOut : (acceptCommand s).expOut = s.expOut := rfl
@[simp] theorem acceptCommand_expPrev : (acceptCommand s).expPrev = s.expPrev := rfl

/-! Success. -/

@[simp] theorem endSuccess_params (z : Bool) : (endSuccess z s).params = s.params := rfl
@[simp] theorem endSuccess_status (z : Bool) : (endSuccess z s).status = statusSuccess z := rfl
@[simp] theorem endSuccess_cause (z : Bool) : (endSuccess z s).cause = causeCode .none := rfl
@[simp] theorem endSuccess_n (z : Bool) : (endSuccess z s).n = s.n := rfl
@[simp] theorem endSuccess_dlim (z : Bool) : (endSuccess z s).dlim = s.dlim := rfl
@[simp] theorem endSuccess_maxtok (z : Bool) : (endSuccess z s).maxtok = s.maxtok := rfl
@[simp] theorem endSuccess_tokcnt (z : Bool) : (endSuccess z s).tokcnt = s.tokcnt := rfl
@[simp] theorem endSuccess_cmin (z : Bool) : (endSuccess z s).cmin = s.cmin := rfl
@[simp] theorem endSuccess_phase (z : Bool) : (endSuccess z s).phase = .idle := rfl
@[simp] theorem endSuccess_hist (z : Bool) : (endSuccess z s).hist = s.hist := rfl
@[simp] theorem endSuccess_len (z : Bool) : (endSuccess z s).len = s.len := rfl
@[simp] theorem endSuccess_code (z : Bool) : (endSuccess z s).code = s.code := rfl
@[simp] theorem endSuccess_tok (z : Bool) : (endSuccess z s).tok = s.tok := rfl
@[simp] theorem endSuccess_host (z : Bool) : (endSuccess z s).host = s.host := rfl
@[simp] theorem endSuccess_reads (z : Bool) : (endSuccess z s).reads = s.reads := rfl
@[simp] theorem endSuccess_epoch (z : Bool) : (endSuccess z s).epoch = s.epoch := rfl
@[simp] theorem endSuccess_expOut (z : Bool) : (endSuccess z s).expOut = s.expOut := rfl
@[simp] theorem endSuccess_expPrev (z : Bool) : (endSuccess z s).expPrev = s.expPrev := rfl

/-! FAIL. -/

@[simp] theorem endFail_params (c : Cause) : (endFail c s).params = s.params := rfl
@[simp] theorem endFail_status (c : Cause) : (endFail c s).status = statusFail := rfl
@[simp] theorem endFail_cause (c : Cause) : (endFail c s).cause = causeCode c := rfl
@[simp] theorem endFail_n (c : Cause) : (endFail c s).n = s.n := rfl
@[simp] theorem endFail_dlim (c : Cause) : (endFail c s).dlim = s.dlim := rfl
@[simp] theorem endFail_maxtok (c : Cause) : (endFail c s).maxtok = s.maxtok := rfl
@[simp] theorem endFail_tokcnt (c : Cause) : (endFail c s).tokcnt = s.tokcnt := rfl
@[simp] theorem endFail_cmin (c : Cause) : (endFail c s).cmin = s.cmin := rfl
@[simp] theorem endFail_phase (c : Cause) : (endFail c s).phase = .idle := rfl
@[simp] theorem endFail_hist (c : Cause) : (endFail c s).hist = s.hist := rfl
@[simp] theorem endFail_len (c : Cause) : (endFail c s).len = s.len := rfl
@[simp] theorem endFail_code (c : Cause) : (endFail c s).code = s.code := rfl
@[simp] theorem endFail_tok (c : Cause) : (endFail c s).tok = s.tok := rfl
@[simp] theorem endFail_host (c : Cause) : (endFail c s).host = s.host := rfl
@[simp] theorem endFail_reads (c : Cause) : (endFail c s).reads = s.reads := rfl
@[simp] theorem endFail_epoch (c : Cause) : (endFail c s).epoch = s.epoch := rfl
@[simp] theorem endFail_expOut (c : Cause) : (endFail c s).expOut = s.expOut := rfl
@[simp] theorem endFail_expPrev (c : Cause) : (endFail c s).expPrev = s.expPrev := rfl

/-! FAULT entry. -/

@[simp] theorem raiseFault_params (c : Cause) : (raiseFault c s).params = s.params := rfl
@[simp] theorem raiseFault_status (c : Cause) : (raiseFault c s).status = statusFault := rfl
@[simp] theorem raiseFault_cause (c : Cause) : (raiseFault c s).cause = causeCode c := rfl
@[simp] theorem raiseFault_n (c : Cause) : (raiseFault c s).n = s.n := rfl
@[simp] theorem raiseFault_dlim (c : Cause) : (raiseFault c s).dlim = s.dlim := rfl
@[simp] theorem raiseFault_maxtok (c : Cause) : (raiseFault c s).maxtok = s.maxtok := rfl
@[simp] theorem raiseFault_tokcnt (c : Cause) : (raiseFault c s).tokcnt = s.tokcnt := rfl
@[simp] theorem raiseFault_cmin (c : Cause) : (raiseFault c s).cmin = s.cmin := rfl
@[simp] theorem raiseFault_phase (c : Cause) : (raiseFault c s).phase = .faulted := rfl
@[simp] theorem raiseFault_hist (c : Cause) : (raiseFault c s).hist = s.hist := rfl
@[simp] theorem raiseFault_len (c : Cause) : (raiseFault c s).len = s.len := rfl
@[simp] theorem raiseFault_code (c : Cause) : (raiseFault c s).code = s.code := rfl
@[simp] theorem raiseFault_tok (c : Cause) : (raiseFault c s).tok = s.tok := rfl
@[simp] theorem raiseFault_host (c : Cause) : (raiseFault c s).host = s.host := rfl
@[simp] theorem raiseFault_reads (c : Cause) : (raiseFault c s).reads = s.reads := rfl
@[simp] theorem raiseFault_epoch (c : Cause) : (raiseFault c s).epoch = s.epoch := rfl
@[simp] theorem raiseFault_expOut (c : Cause) : (raiseFault c s).expOut = s.expOut := rfl
@[simp] theorem raiseFault_expPrev (c : Cause) : (raiseFault c s).expPrev = s.expPrev := rfl

/-! Reset. -/

@[simp] theorem resetBlock_params : (resetBlock s).params = s.params := rfl
@[simp] theorem resetBlock_status : (resetBlock s).status = 0 := rfl
@[simp] theorem resetBlock_cause : (resetBlock s).cause = 0 := rfl
@[simp] theorem resetBlock_n : (resetBlock s).n = 0 := rfl
@[simp] theorem resetBlock_dlim : (resetBlock s).dlim = 0 := rfl
@[simp] theorem resetBlock_maxtok : (resetBlock s).maxtok = 0 := rfl
@[simp] theorem resetBlock_tokcnt : (resetBlock s).tokcnt = 0 := rfl
@[simp] theorem resetBlock_cmin : (resetBlock s).cmin = 0 := rfl
@[simp] theorem resetBlock_phase : (resetBlock s).phase = .idle := rfl
@[simp] theorem resetBlock_hist : (resetBlock s).hist = [] := rfl
@[simp] theorem resetBlock_len : (resetBlock s).len = [] := rfl
@[simp] theorem resetBlock_code : (resetBlock s).code = [] := rfl
@[simp] theorem resetBlock_tok : (resetBlock s).tok = [] := rfl
@[simp] theorem resetBlock_host : (resetBlock s).host = s.host := rfl
@[simp] theorem resetBlock_reads : (resetBlock s).reads = s.reads := rfl
@[simp] theorem resetBlock_epoch : (resetBlock s).epoch = s.epoch + 1 := rfl
@[simp] theorem resetBlock_expOut : (resetBlock s).expOut = s.expOut := rfl
@[simp] theorem resetBlock_expPrev : (resetBlock s).expPrev = s.expPrev := rfl

/-! The write of LEN. -/

@[simp] theorem writeLengths_params (depth : List Nat) : (writeLengths depth s).params = s.params := rfl
@[simp] theorem writeLengths_status (depth : List Nat) : (writeLengths depth s).status = s.status := rfl
@[simp] theorem writeLengths_cause (depth : List Nat) : (writeLengths depth s).cause = s.cause := rfl
@[simp] theorem writeLengths_n (depth : List Nat) : (writeLengths depth s).n = s.n := rfl
@[simp] theorem writeLengths_dlim (depth : List Nat) : (writeLengths depth s).dlim = s.dlim := rfl
@[simp] theorem writeLengths_maxtok (depth : List Nat) : (writeLengths depth s).maxtok = s.maxtok := rfl
@[simp] theorem writeLengths_tokcnt (depth : List Nat) : (writeLengths depth s).tokcnt = s.tokcnt := rfl
@[simp] theorem writeLengths_cmin (depth : List Nat) : (writeLengths depth s).cmin = s.cmin := rfl
@[simp] theorem writeLengths_phase (depth : List Nat) : (writeLengths depth s).phase = s.phase := rfl
@[simp] theorem writeLengths_hist (depth : List Nat) : (writeLengths depth s).hist = s.hist := rfl
@[simp] theorem writeLengths_len (depth : List Nat) : (writeLengths depth s).len = bufSetFrom 0 (depth.map (BitVec.ofNat 4)) s.len := rfl
@[simp] theorem writeLengths_code (depth : List Nat) : (writeLengths depth s).code = s.code := rfl
@[simp] theorem writeLengths_tok (depth : List Nat) : (writeLengths depth s).tok = s.tok := rfl
@[simp] theorem writeLengths_host (depth : List Nat) : (writeLengths depth s).host = s.host := rfl
@[simp] theorem writeLengths_reads (depth : List Nat) : (writeLengths depth s).reads = s.reads := rfl
@[simp] theorem writeLengths_epoch (depth : List Nat) : (writeLengths depth s).epoch = s.epoch := rfl
@[simp] theorem writeLengths_expOut (depth : List Nat) : (writeLengths depth s).expOut = s.expOut := rfl
@[simp] theorem writeLengths_expPrev (depth : List Nat) : (writeLengths depth s).expPrev = s.expPrev := rfl

/-! The answer of a host read. -/

@[simp] theorem answerRead_params (v : Word) : (answerRead v s).params = s.params := rfl
@[simp] theorem answerRead_status (v : Word) : (answerRead v s).status = s.status := rfl
@[simp] theorem answerRead_cause (v : Word) : (answerRead v s).cause = s.cause := rfl
@[simp] theorem answerRead_n (v : Word) : (answerRead v s).n = s.n := rfl
@[simp] theorem answerRead_dlim (v : Word) : (answerRead v s).dlim = s.dlim := rfl
@[simp] theorem answerRead_maxtok (v : Word) : (answerRead v s).maxtok = s.maxtok := rfl
@[simp] theorem answerRead_tokcnt (v : Word) : (answerRead v s).tokcnt = s.tokcnt := rfl
@[simp] theorem answerRead_cmin (v : Word) : (answerRead v s).cmin = s.cmin := rfl
@[simp] theorem answerRead_phase (v : Word) : (answerRead v s).phase = s.phase := rfl
@[simp] theorem answerRead_hist (v : Word) : (answerRead v s).hist = s.hist := rfl
@[simp] theorem answerRead_len (v : Word) : (answerRead v s).len = s.len := rfl
@[simp] theorem answerRead_code (v : Word) : (answerRead v s).code = s.code := rfl
@[simp] theorem answerRead_tok (v : Word) : (answerRead v s).tok = s.tok := rfl
@[simp] theorem answerRead_host (v : Word) : (answerRead v s).host = s.host := rfl
@[simp] theorem answerRead_reads (v : Word) : (answerRead v s).reads = v :: s.reads := rfl
@[simp] theorem answerRead_epoch (v : Word) : (answerRead v s).epoch = s.epoch := rfl
@[simp] theorem answerRead_expOut (v : Word) : (answerRead v s).expOut = s.expOut := rfl
@[simp] theorem answerRead_expPrev (v : Word) : (answerRead v s).expPrev = s.expPrev := rfl

/-! A literal token. -/

@[simp] theorem expandLiteral_params (v : Len) : (expandLiteral v s).params = s.params := rfl
@[simp] theorem expandLiteral_status (v : Len) : (expandLiteral v s).status = s.status := rfl
@[simp] theorem expandLiteral_cause (v : Len) : (expandLiteral v s).cause = s.cause := rfl
@[simp] theorem expandLiteral_n (v : Len) : (expandLiteral v s).n = s.n := rfl
@[simp] theorem expandLiteral_dlim (v : Len) : (expandLiteral v s).dlim = s.dlim := rfl
@[simp] theorem expandLiteral_maxtok (v : Len) : (expandLiteral v s).maxtok = s.maxtok := rfl
@[simp] theorem expandLiteral_tokcnt (v : Len) : (expandLiteral v s).tokcnt = s.tokcnt := rfl
@[simp] theorem expandLiteral_cmin (v : Len) : (expandLiteral v s).cmin = s.cmin := rfl
@[simp] theorem expandLiteral_phase (v : Len) : (expandLiteral v s).phase = s.phase := rfl
@[simp] theorem expandLiteral_hist (v : Len) : (expandLiteral v s).hist = s.hist := rfl
@[simp] theorem expandLiteral_len (v : Len) : (expandLiteral v s).len = s.len := rfl
@[simp] theorem expandLiteral_code (v : Len) : (expandLiteral v s).code = s.code := rfl
@[simp] theorem expandLiteral_tok (v : Len) : (expandLiteral v s).tok = s.tok := rfl
@[simp] theorem expandLiteral_host (v : Len) : (expandLiteral v s).host = s.host := rfl
@[simp] theorem expandLiteral_reads (v : Len) : (expandLiteral v s).reads = s.reads := rfl
@[simp] theorem expandLiteral_epoch (v : Len) : (expandLiteral v s).epoch = s.epoch := rfl
@[simp] theorem expandLiteral_expOut (v : Len) : (expandLiteral v s).expOut = s.expOut ++ [v] := rfl
@[simp] theorem expandLiteral_expPrev (v : Len) : (expandLiteral v s).expPrev = if v = 0 then s.expPrev else v := rfl

/-! An escape token. -/

@[simp] theorem expandCopies_params (v : Len) (k : Nat) : (expandCopies v k s).params = s.params := rfl
@[simp] theorem expandCopies_status (v : Len) (k : Nat) : (expandCopies v k s).status = s.status := rfl
@[simp] theorem expandCopies_cause (v : Len) (k : Nat) : (expandCopies v k s).cause = s.cause := rfl
@[simp] theorem expandCopies_n (v : Len) (k : Nat) : (expandCopies v k s).n = s.n := rfl
@[simp] theorem expandCopies_dlim (v : Len) (k : Nat) : (expandCopies v k s).dlim = s.dlim := rfl
@[simp] theorem expandCopies_maxtok (v : Len) (k : Nat) : (expandCopies v k s).maxtok = s.maxtok := rfl
@[simp] theorem expandCopies_tokcnt (v : Len) (k : Nat) : (expandCopies v k s).tokcnt = s.tokcnt := rfl
@[simp] theorem expandCopies_cmin (v : Len) (k : Nat) : (expandCopies v k s).cmin = s.cmin := rfl
@[simp] theorem expandCopies_phase (v : Len) (k : Nat) : (expandCopies v k s).phase = s.phase := rfl
@[simp] theorem expandCopies_hist (v : Len) (k : Nat) : (expandCopies v k s).hist = s.hist := rfl
@[simp] theorem expandCopies_len (v : Len) (k : Nat) : (expandCopies v k s).len = s.len := rfl
@[simp] theorem expandCopies_code (v : Len) (k : Nat) : (expandCopies v k s).code = s.code := rfl
@[simp] theorem expandCopies_tok (v : Len) (k : Nat) : (expandCopies v k s).tok = s.tok := rfl
@[simp] theorem expandCopies_host (v : Len) (k : Nat) : (expandCopies v k s).host = s.host := rfl
@[simp] theorem expandCopies_reads (v : Len) (k : Nat) : (expandCopies v k s).reads = s.reads := rfl
@[simp] theorem expandCopies_epoch (v : Len) (k : Nat) : (expandCopies v k s).epoch = s.epoch := rfl
@[simp] theorem expandCopies_expOut (v : Len) (k : Nat) : (expandCopies v k s).expOut = s.expOut ++ List.replicate k v := rfl
@[simp] theorem expandCopies_expPrev (v : Len) (k : Nat) : (expandCopies v k s).expPrev = s.expPrev := rfl

/-! The start of a token stream. -/

@[simp] theorem startExpander_params : (startExpander s).params = s.params := rfl
@[simp] theorem startExpander_status : (startExpander s).status = s.status := rfl
@[simp] theorem startExpander_cause : (startExpander s).cause = s.cause := rfl
@[simp] theorem startExpander_n : (startExpander s).n = s.n := rfl
@[simp] theorem startExpander_dlim : (startExpander s).dlim = s.dlim := rfl
@[simp] theorem startExpander_maxtok : (startExpander s).maxtok = s.maxtok := rfl
@[simp] theorem startExpander_tokcnt : (startExpander s).tokcnt = s.tokcnt := rfl
@[simp] theorem startExpander_cmin : (startExpander s).cmin = s.cmin := rfl
@[simp] theorem startExpander_phase : (startExpander s).phase = s.phase := rfl
@[simp] theorem startExpander_hist : (startExpander s).hist = s.hist := rfl
@[simp] theorem startExpander_len : (startExpander s).len = s.len := rfl
@[simp] theorem startExpander_code : (startExpander s).code = s.code := rfl
@[simp] theorem startExpander_tok : (startExpander s).tok = s.tok := rfl
@[simp] theorem startExpander_host : (startExpander s).host = s.host := rfl
@[simp] theorem startExpander_reads : (startExpander s).reads = s.reads := rfl
@[simp] theorem startExpander_epoch : (startExpander s).epoch = s.epoch := rfl
@[simp] theorem startExpander_expOut : (startExpander s).expOut = [] := rfl
@[simp] theorem startExpander_expPrev : (startExpander s).expPrev = Config.sentinelPrev := rfl

/-! A host write of a register or of an element changes that register or element only. -/

@[simp] theorem writeRegister_params (reg : Nat) (v : Word) : (writeRegister reg v s).params = s.params := by
  unfold writeRegister; split <;> rfl
@[simp] theorem writeRegister_status (reg : Nat) (v : Word) : (writeRegister reg v s).status = s.status := by
  unfold writeRegister; split <;> rfl
@[simp] theorem writeRegister_cause (reg : Nat) (v : Word) : (writeRegister reg v s).cause = s.cause := by
  unfold writeRegister; split <;> rfl
@[simp] theorem writeRegister_tokcnt (reg : Nat) (v : Word) : (writeRegister reg v s).tokcnt = s.tokcnt := by
  unfold writeRegister; split <;> rfl
@[simp] theorem writeRegister_cmin (reg : Nat) (v : Word) : (writeRegister reg v s).cmin = s.cmin := by
  unfold writeRegister; split <;> rfl
@[simp] theorem writeRegister_phase (reg : Nat) (v : Word) : (writeRegister reg v s).phase = s.phase := by
  unfold writeRegister; split <;> rfl
@[simp] theorem writeRegister_hist (reg : Nat) (v : Word) : (writeRegister reg v s).hist = s.hist := by
  unfold writeRegister; split <;> rfl
@[simp] theorem writeRegister_len (reg : Nat) (v : Word) : (writeRegister reg v s).len = s.len := by
  unfold writeRegister; split <;> rfl
@[simp] theorem writeRegister_code (reg : Nat) (v : Word) : (writeRegister reg v s).code = s.code := by
  unfold writeRegister; split <;> rfl
@[simp] theorem writeRegister_tok (reg : Nat) (v : Word) : (writeRegister reg v s).tok = s.tok := by
  unfold writeRegister; split <;> rfl
@[simp] theorem writeRegister_host (reg : Nat) (v : Word) : (writeRegister reg v s).host = s.host := by
  unfold writeRegister; split <;> rfl
@[simp] theorem writeRegister_reads (reg : Nat) (v : Word) : (writeRegister reg v s).reads = s.reads := by
  unfold writeRegister; split <;> rfl
@[simp] theorem writeRegister_epoch (reg : Nat) (v : Word) : (writeRegister reg v s).epoch = s.epoch := by
  unfold writeRegister; split <;> rfl
@[simp] theorem writeRegister_expOut (reg : Nat) (v : Word) : (writeRegister reg v s).expOut = s.expOut := by
  unfold writeRegister; split <;> rfl
@[simp] theorem writeRegister_expPrev (reg : Nat) (v : Word) : (writeRegister reg v s).expPrev = s.expPrev := by
  unfold writeRegister; split <;> rfl
@[simp] theorem writeElement_params (space : Space) (i : Nat) (v : Word) : (writeElement space i v s).params = s.params := by
  unfold writeElement; split <;> [cases space <;> rfl; rfl]
@[simp] theorem writeElement_status (space : Space) (i : Nat) (v : Word) : (writeElement space i v s).status = s.status := by
  unfold writeElement; split <;> [cases space <;> rfl; rfl]
@[simp] theorem writeElement_cause (space : Space) (i : Nat) (v : Word) : (writeElement space i v s).cause = s.cause := by
  unfold writeElement; split <;> [cases space <;> rfl; rfl]
@[simp] theorem writeElement_n (space : Space) (i : Nat) (v : Word) : (writeElement space i v s).n = s.n := by
  unfold writeElement; split <;> [cases space <;> rfl; rfl]
@[simp] theorem writeElement_dlim (space : Space) (i : Nat) (v : Word) : (writeElement space i v s).dlim = s.dlim := by
  unfold writeElement; split <;> [cases space <;> rfl; rfl]
@[simp] theorem writeElement_maxtok (space : Space) (i : Nat) (v : Word) : (writeElement space i v s).maxtok = s.maxtok := by
  unfold writeElement; split <;> [cases space <;> rfl; rfl]
@[simp] theorem writeElement_tokcnt (space : Space) (i : Nat) (v : Word) : (writeElement space i v s).tokcnt = s.tokcnt := by
  unfold writeElement; split <;> [cases space <;> rfl; rfl]
@[simp] theorem writeElement_cmin (space : Space) (i : Nat) (v : Word) : (writeElement space i v s).cmin = s.cmin := by
  unfold writeElement; split <;> [cases space <;> rfl; rfl]
@[simp] theorem writeElement_phase (space : Space) (i : Nat) (v : Word) : (writeElement space i v s).phase = s.phase := by
  unfold writeElement; split <;> [cases space <;> rfl; rfl]
@[simp] theorem writeElement_host (space : Space) (i : Nat) (v : Word) : (writeElement space i v s).host = s.host := by
  unfold writeElement; split <;> [cases space <;> rfl; rfl]
@[simp] theorem writeElement_reads (space : Space) (i : Nat) (v : Word) : (writeElement space i v s).reads = s.reads := by
  unfold writeElement; split <;> [cases space <;> rfl; rfl]
@[simp] theorem writeElement_epoch (space : Space) (i : Nat) (v : Word) : (writeElement space i v s).epoch = s.epoch := by
  unfold writeElement; split <;> [cases space <;> rfl; rfl]
@[simp] theorem writeElement_expOut (space : Space) (i : Nat) (v : Word) : (writeElement space i v s).expOut = s.expOut := by
  unfold writeElement; split <;> [cases space <;> rfl; rfl]
@[simp] theorem writeElement_expPrev (space : Space) (i : Nat) (v : Word) : (writeElement space i v s).expPrev = s.expPrev := by
  unfold writeElement; split <;> [cases space <;> rfl; rfl]

/-! What the host reads does not depend on the model's own fields. -/

theorem readRegister_host (reg : Nat) (moves : List HostMove) : readRegister reg { s with host := moves } = readRegister reg s := by
  unfold readRegister; split <;> rfl

theorem readElement_host (space : Space) (i : Nat) (moves : List HostMove) :
    readElement space i { s with host := moves } = readElement space i s := by cases space <;> rfl

/-! The bits of the four words a command's course writes to STATUS. -/

theorem busy_of_status {s : State} (h : s.status = 0 ∨ s.status = 0x6 ∨ s.status = 0xE ∨ s.status = 0x2 ∨ s.status = 0x10) :
    s.busy = false := by
  unfold State.busy
  rcases h with h | h | h | h | h <;> rw [h] <;> decide

@[simp] theorem endSuccess_busy (z : Bool) : (endSuccess z s).busy = false := by
  rw [State.busy, endSuccess_status]; revert z; decide
@[simp] theorem endFail_busy (c : Cause) : (endFail c s).busy = false := by rw [State.busy, endFail_status]; decide
@[simp] theorem raiseFault_busy (c : Cause) : (raiseFault c s).busy = false := by rw [State.busy, raiseFault_status]; decide
@[simp] theorem resetBlock_busy : (resetBlock s).busy = false := by rw [State.busy, resetBlock_status]; decide
@[simp] theorem endSuccess_ok (z : Bool) : (endSuccess z s).ok = true := by
  rw [State.ok, endSuccess_status]; revert z; decide
@[simp] theorem endFail_ok (c : Cause) : (endFail c s).ok = false := by rw [State.ok, endFail_status]; decide
@[simp] theorem raiseFault_ok (c : Cause) : (raiseFault c s).ok = false := by rw [State.ok, raiseFault_status]; decide

end Sys2Proof.Machine
end

