-- ==== Sys2Proof/Laws/Command.lean ====
section
/-! SUPPORT. What the course of a command can be: acceptance, the ends of a command, and the inversion of `runCommand`; and what
reading `B[0 .. n-1]` says in terms of `elements`. -/

namespace Sys2Proof.Machine

variable {w : Nat}

/-! ### The elements of a buffer as numbers -/

@[simp] theorem elements_length (b : Buf w) (n : Nat) : (elements b n).length = n := by simp [elements]

theorem elements_getElem? {b : Buf w} {n i : Nat} (h : i < n) :
    (elements b n)[i]? = some (((bufGet i b).map BitVec.toNat).getD 0) := by
  simp [elements, h]

theorem elements_of_get {b : Buf w} {n i : Nat} {v : BitVec w} (h : i < n) (hv : bufGet i b = some v) :
    (elements b n)[i]? = some v.toNat := by
  rw [elements_getElem? h, hv]; rfl

theorem elements_getD {b : Buf w} {n i : Nat} {v : BitVec w} (h : i < n) (hv : bufGet i b = some v) :
    (elements b n).getD i 0 = v.toNat := by
  rw [List.getD_eq_getElem?_getD, elements_of_get h hv]; rfl

/-- The first `l` of `n` elements. -/
theorem elements_take {b : Buf w} {l n : Nat} (h : l ≤ n) : (elements b n).take l = elements b l := by
  simp [elements, ← List.map_take, List.take_range, Nat.min_eq_left h]

/-- Two buffers that agree on `0 .. n-1` have the same elements. -/
theorem elements_congr {b c : Buf w} {n : Nat} (h : ∀ i < n, bufGet i b = bufGet i c) : elements b n = elements c n := by
  apply List.map_congr_left
  intro i hi
  rw [h i (List.mem_range.1 hi)]

theorem bufRead_congr {b c : Buf w} {n : Nat} (h : ∀ i < n, bufGet i b = bufGet i c) : bufRead b 0 n = bufRead c 0 n := by
  suffices ∀ i k, i + k ≤ n → bufRead b i k = bufRead c i k from this 0 n (by omega)
  intro i k
  induction k generalizing i with
  | zero => intros; rfl
  | succ k ih => intro hk; rw [bufRead, bufRead, ih (i + 1) (by omega), h i (by omega)]

/-- A read of `B[0 .. n-1]` that succeeds. -/
theorem bufRead_zero_ok {b : Buf w} {n : Nat} {vs : List (BitVec w)} (h : bufRead b 0 n = .ok vs) :
    vs.length = n ∧ Written b n ∧ vs.map BitVec.toNat = elements b n := by
  obtain ⟨h1, h2⟩ := bufRead_ok_iff.1 h
  have hget : ∀ i (hi : i < n), bufGet i b = some (vs[i]'(by omega)) := fun i hi => by
    have := h2 i (by omega); rwa [Nat.zero_add] at this
  refine ⟨h1, fun i hi => by rw [hget i hi]; simp, ?_⟩
  apply List.ext_getElem?
  intro i
  by_cases hi : i < n
  · rw [elements_of_get hi (hget i hi)]
    simp [h1, hi]
  · rw [List.getElem?_eq_none (by simp; omega), List.getElem?_eq_none (by simp; omega)]

theorem bufRead_zero_of_written {b : Buf w} {n : Nat} (h : Written b n) :
    ∃ vs, bufRead b 0 n = .ok vs ∧ vs.length = n ∧ vs.map BitVec.toNat = elements b n := by
  obtain ⟨vs, hvs⟩ := bufRead_of_written (b := b) (i := 0) (k := n) (fun j hj => by rw [Nat.zero_add]; exact h j hj)
  exact ⟨vs, hvs, (bufRead_zero_ok hvs).1, (bufRead_zero_ok hvs).2.2⟩

/-- The elements after a whole ascending write from element 0. -/
theorem elements_bufSetFrom {b : Buf w} {ds : List Nat} (h : ∀ d ∈ ds, d < 2 ^ w) :
    elements (bufSetFrom 0 (ds.map (BitVec.ofNat w)) b) ds.length = ds := by
  apply List.ext_getElem?
  intro i
  by_cases hi : i < ds.length
  · rw [elements_getElem? hi, bufGet_bufSetFrom_zero _ _ (by simpa using hi)]
    simp [hi, Nat.mod_eq_of_lt (h _ (List.getElem_mem hi))]
  · rw [List.getElem?_eq_none (by simp; omega), List.getElem?_eq_none (by omega)]

/-- The elements of a written buffer are below the element's range. -/
theorem elements_lt (b : Buf w) (n : Nat) : ∀ x ∈ elements b n, x < 2 ^ w := by
  intro x hx
  simp only [elements, List.mem_map] at hx
  obtain ⟨i, -, rfl⟩ := hx
  cases bufGet i b with
  | none => simp
  | some v => simpa using v.isLt

/-! ### The operand checks (R224) -/

theorem badN_eq_false {s : State} : s.badN = false ↔ s.n.toNat ≤ s.params.maxSyms := by
  rw [State.badN, decide_eq_false_iff_not, State.operandN]; omega

theorem badD_eq_false {s : State} : s.badD = false ↔ s.dlim ≠ 0 := by
  rw [State.badD, decide_eq_false_iff_not]
  exact not_congr ⟨fun h => BitVec.eq_of_toNat_eq h, fun h => by simp [State.operandD, h]⟩

theorem badM_eq_false {s : State} : s.badM = false ↔ s.maxtok.toNat ≤ s.params.tokEntries := by
  rw [State.badM, decide_eq_false_iff_not, State.operandM]; omega

/-! ### The course of a command -/

theorem ready_params {s : State} (h : Ready s) : s.phase ≠ .faulted ∧ s.busy = false := h

theorem runCommand_faulted {bad : Bool} {body : State → UnitEnd} {s : State} (h : s.phase = .faulted) :
    runCommand bad body s = .next s := by rw [runCommand, if_pos h]

theorem runCommand_busy {bad : Bool} {body : State → UnitEnd} {s : State} (h : s.phase ≠ .faulted) (hb : s.busy = true) :
    runCommand bad body s = .refused .hostAccessWhileBusy := by rw [runCommand, if_neg h, if_pos hb]

theorem runCommand_badOperand {body : State → UnitEnd} {s : State} (h : Ready s) :
    runCommand true body s = .next (raiseFault .badOperand s) := by
  rw [runCommand, if_neg h.1, h.2]; rfl

theorem runCommand_ready {body : State → UnitEnd} {s : State} (h : Ready s) :
    runCommand false body s = finish (body (acceptCommand s)) := by
  rw [runCommand, if_neg h.1, h.2]; rfl

/-- Everything a command's write to CMD can do when it answers a next state. -/
theorem runCommand_next {bad : Bool} {body : State → UnitEnd} {s t : State} (h : runCommand bad body s = .next t) :
    (s.phase = .faulted ∧ t = s) ∨
    (Ready s ∧ bad = true ∧ t = raiseFault .badOperand s) ∨
    (Ready s ∧ bad = false ∧
      ((∃ z u, body (acceptCommand s) = .success z u ∧ t = endSuccess z u) ∨
       (∃ c u, body (acceptCommand s) = .fail c u ∧ t = endFail c u) ∨
       (∃ c u, body (acceptCommand s) = .fault c u ∧ t = raiseFault c u))) := by
  by_cases hf : s.phase = .faulted
  · rw [runCommand_faulted hf] at h
    cases h; exact .inl ⟨hf, rfl⟩
  by_cases hb : s.busy = true
  · rw [runCommand_busy hf hb] at h; cases h
  have hr : Ready s := ⟨hf, by simpa using hb⟩
  cases bad with
  | true =>
    rw [runCommand_badOperand hr] at h
    cases h; exact .inr (.inl ⟨hr, rfl, rfl⟩)
  | false =>
    rw [runCommand_ready hr] at h
    refine .inr (.inr ⟨hr, rfl, ?_⟩)
    cases he : body (acceptCommand s) with
    | success z u => rw [he] at h; cases h; exact .inl ⟨z, u, rfl, rfl⟩
    | fail c u => rw [he] at h; cases h; exact .inr (.inl ⟨c, u, rfl, rfl⟩)
    | fault c u => rw [he] at h; cases h; exact .inr (.inr ⟨c, u, rfl, rfl⟩)
    | refused r => rw [he] at h; cases h
    | stopped f => rw [he] at h; cases h

/-- `UnitEnd.andThen` succeeds only through the success of both. -/
theorem andThen_success {e : UnitEnd} {next : Bool → State → UnitEnd} {z : Bool} {u : State}
    (h : e.andThen next = .success z u) : ∃ z1 s1, e = .success z1 s1 ∧ next z1 s1 = .success z u := by
  cases e with
  | success z1 s1 => exact ⟨z1, s1, rfl, h⟩
  | fail c s1 => cases h
  | fault c s1 => cases h
  | refused r => cases h
  | stopped f => cases h

theorem andThen_fail {e : UnitEnd} {next : Bool → State → UnitEnd} {c : Cause} {u : State}
    (h : e.andThen next = .fail c u) : e = .fail c u ∨ ∃ z1 s1, e = .success z1 s1 ∧ next z1 s1 = .fail c u := by
  cases e with
  | success z1 s1 => exact .inr ⟨z1, s1, rfl, h⟩
  | fail c s1 => exact .inl h
  | fault c s1 => cases h
  | refused r => cases h
  | stopped f => cases h

theorem andThen_fault {e : UnitEnd} {next : Bool → State → UnitEnd} {c : Cause} {u : State}
    (h : e.andThen next = .fault c u) : e = .fault c u ∨ ∃ z1 s1, e = .success z1 s1 ∧ next z1 s1 = .fault c u := by
  cases e with
  | success z1 s1 => exact .inr ⟨z1, s1, rfl, h⟩
  | fail c s1 => cases h
  | fault c s1 => exact .inl h
  | refused r => cases h
  | stopped f => cases h

end Sys2Proof.Machine
end

