-- ==== Sys2Proof/Laws/Assigner.lean ====
section
/-! SUPPORT. ASSIGN: the closed form of the first codes, the code of each symbol, the bound that the Kraft precondition gives, the bits
of a reversal, and everything the body of ASSIGN can do. -/

namespace Sys2Proof.Machine

/-! ### The first codes (spec/42_assigner.md R152, R153, R158) -/

theorem firstCode_succ (lens : List Nat) (d : Nat) :
    firstCode lens (d + 1) = (firstCode lens d + depthCount lens d) * 2 := rfl

/-- The number of `d`-bit codes that the codes of length at most `d` take up. -/
def spaceTaken (lens : List Nat) (d : Nat) : Nat :=
  (lens.map fun l => if l = 0 ∨ d < l then 0 else 2 ^ (d - l)).sum

theorem spaceTaken_succ (lens : List Nat) (d : Nat) :
    spaceTaken lens (d + 1) = spaceTaken lens d * 2 + depthCount lens (d + 1) := by
  rw [depthCount, if_neg (by omega)]
  induction lens with
  | nil => rfl
  | cons l rest ih =>
    simp only [spaceTaken, List.map_cons, List.sum_cons] at ih ⊢
    rw [ih, List.count_cons]
    by_cases h0 : l = 0
    · subst h0; simp
    by_cases h1 : l = d + 1
    · subst h1; simp; omega
    by_cases h2 : d < l
    · rw [if_pos (by omega), if_pos (by omega)]; simp [h1]
    · rw [if_neg (by omega), if_neg (by omega), show d + 1 - l = (d - l) + 1 by omega, pow_succ]
      simp [h1]; omega

/-- After the codes of length `d` the next `d`-bit code is the space taken so far. -/
theorem firstCode_add_depthCount (lens : List Nat) (d : Nat) :
    firstCode lens d + depthCount lens d = spaceTaken lens d := by
  induction d with
  | zero =>
    have : ∀ l ∈ lens.map (fun l => if l = 0 ∨ 0 < l then 0 else 2 ^ (0 - l)), l = 0 := by
      intro x hx
      obtain ⟨l, -, rfl⟩ := List.mem_map.1 hx
      rw [if_pos (by omega)]
    rw [spaceTaken, List.sum_eq_zero this]; rfl
  | succ d ih => rw [firstCode_succ, ih, spaceTaken_succ]

theorem spaceTaken_mul_le (lens : List Nat) {d : Nat} (hd : d ≤ 15) : spaceTaken lens d * 2 ^ (15 - d) ≤ kraftScaled lens := by
  induction lens with
  | nil => simp [spaceTaken]
  | cons l rest ih =>
    simp only [spaceTaken, kraftScaled, List.map_cons, List.sum_cons, Nat.add_mul] at ih ⊢
    refine Nat.add_le_add ?_ ih
    by_cases h0 : l = 0
    · simp [h0]
    by_cases h1 : d < l
    · simp [h1]
    · rw [if_neg (by omega), if_neg h0, ← pow_add]
      exact Nat.pow_le_pow_right (by omega) (by omega)

/-- Under the precondition of R158 the codes of length `d` and below fit `d` bits. -/
theorem spaceTaken_le {lens : List Nat} (h : kraftScaled lens ≤ 2 ^ 15) {d : Nat} (hd : d ≤ 15) : spaceTaken lens d ≤ 2 ^ d := by
  have h1 := le_trans (spaceTaken_mul_le lens hd) h
  rw [show 2 ^ 15 = 2 ^ d * 2 ^ (15 - d) by rw [← pow_add]; congr 1; omega] at h1
  exact Nat.le_of_mul_le_mul_right h1 (Nat.two_pow_pos _)

/-- A longer length starts after the space taken by every shorter one. -/
theorem spaceTaken_mul_le_firstCode (lens : List Nat) (d k : Nat) :
    spaceTaken lens d * 2 ^ (k + 1) ≤ firstCode lens (d + (k + 1)) := by
  induction k with
  | zero => rw [Nat.zero_add, firstCode_succ, firstCode_add_depthCount, pow_one]
  | succ k ih =>
    rw [show d + (k + 1 + 1) = d + (k + 1) + 1 by omega, firstCode_succ, pow_succ, ← Nat.mul_assoc]
    exact Nat.mul_le_mul_right _ (le_trans ih (Nat.le_add_right _ _))

/-! ### The codes (R154) -/

/-- The code of each symbol, from any registers `next`: the register of its length plus the number of earlier symbols of that length. -/
theorem canonicalFrom_get {next lens : List Nat} {i l : Nat} (hn : ∀ l ∈ lens, l < next.length) (hi : lens[i]? = some l) :
    (canonicalFrom next lens)[i]? = some (if l = 0 then none else some (next.getD l 0 + (lens.take i).count l)) := by
  induction lens generalizing next i with
  | nil => simp at hi
  | cons x rest ih =>
    rw [canonicalFrom]
    cases i with
    | zero =>
      simp at hi; subst hi
      split <;> simp
    | succ i =>
      have hi' : rest[i]? = some l := by simpa using hi
      split
      · rename_i hx; subst hx
        rw [List.getElem?_cons_succ, ih (fun y hy => hn y (by simp [hy])) hi']
        by_cases hl : l = 0
        · simp [hl]
        · simp [hl, Ne.symm hl]
      · rename_i hx
        rw [List.getElem?_cons_succ, ih (fun y hy => by rw [List.length_set]; exact hn y (by simp [hy])) hi']
        by_cases hl : l = 0
        · simp [hl]
        · have hxl : x < next.length := hn x (by simp)
          by_cases hxe : x = l
          · subst hxe
            simp [hl, List.getD_eq_getElem?_getD, hxl]; omega
          · simp [hl, List.getD_eq_getElem?_getD, hxe]

theorem canonicalFrom_length (next lens : List Nat) : (canonicalFrom next lens).length = lens.length := by
  induction lens generalizing next with
  | nil => rfl
  | cons x rest ih => rw [canonicalFrom]; split <;> simp [ih]

theorem canonicalCodes_length (lens : List Nat) : (canonicalCodes lens).length = lens.length := canonicalFrom_length _ _

/-- The canonical code of each symbol (R154). -/
theorem canonicalCodes_get {lens : List Nat} {i l : Nat} (hn : ∀ l ∈ lens, l ≤ 15) (hi : lens[i]? = some l) :
    (canonicalCodes lens)[i]? = some (if l = 0 then none else some (firstCode lens l + (lens.take i).count l)) := by
  have hl : l < 16 := by have := hn l (List.mem_iff_getElem?.2 ⟨i, hi⟩); omega
  rw [canonicalCodes, canonicalFrom_get (fun l h => by have := hn l h; simp [firstCodes]; omega) hi]
  simp [firstCodes, List.getD_eq_getElem?_getD, hl]

/-- Earlier symbols of the same length are fewer than all of them. -/
theorem count_take_lt {lens : List Nat} {i l : Nat} (hi : lens[i]? = some l) : (lens.take i).count l < lens.count l := by
  obtain ⟨h1, h2⟩ := List.getElem?_eq_some_iff.1 hi
  have : lens.count l = (lens.take i).count l + (lens.drop i).count l := by
    rw [← List.count_append, List.take_append_drop]
  have hd : lens.drop i = l :: lens.drop (i + 1) := by rw [← h2]; exact List.drop_eq_getElem_cons h1
  rw [this, hd, List.count_cons_self]; omega

theorem count_take_mono {lens : List Nat} {i j l : Nat} (hij : i < j) (hi : lens[i]? = some l) :
    (lens.take i).count l < (lens.take j).count l := by
  have h := count_take_lt (lens := lens.take j) (i := i) (l := l) (by rw [List.getElem?_take, if_pos hij, hi])
  rwa [List.take_take, Nat.min_eq_left (by omega)] at h

/-- The facts of a symbol's code: where it lies, and that it fits its length. -/
theorem canonical_code_range {lens : List Nat} {i l c : Nat} (hn : ∀ l ∈ lens, l ≤ 15) (hi : lens[i]? = some l)
    (hc : (canonicalCodes lens)[i]? = some (some c)) :
    l ≠ 0 ∧ l ≤ 15 ∧ c = firstCode lens l + (lens.take i).count l ∧ c < spaceTaken lens l := by
  have hl : l ≤ 15 := hn l (List.mem_iff_getElem?.2 ⟨i, hi⟩)
  rw [canonicalCodes_get hn hi] at hc
  split at hc
  · cases hc
  · rename_i h0
    have hce : c = firstCode lens l + (lens.take i).count l := by
      have := Option.some.inj (Option.some.inj hc); exact this.symm
    refine ⟨h0, hl, hce, ?_⟩
    rw [← firstCode_add_depthCount, depthCount, if_neg h0, hce]
    exact Nat.add_lt_add_left (count_take_lt hi) _

/-! ### The bits of a reversal (R155) -/

/-- A number given by its bits: it is below `2^l` and has those bits. -/
theorem sum_of_bits (f : Nat → Bool) (l : Nat) :
    ((List.range l).map fun j => (f j).toNat * 2 ^ j).sum < 2 ^ l ∧
    ∀ j, ((List.range l).map fun j => (f j).toNat * 2 ^ j).sum.testBit j = (decide (j < l) && f j) := by
  induction l with
  | zero => simp
  | succ l ih =>
    obtain ⟨h1, h2⟩ := ih
    rw [List.range_succ, List.map_append, List.sum_append]
    simp only [List.map_cons, List.map_nil, List.sum_cons, List.sum_nil, Nat.add_zero]
    have hb : (f l).toNat ≤ 1 := Bool.toNat_le _
    refine ⟨?_, fun j => ?_⟩
    · rw [pow_succ]
      have : (f l).toNat * 2 ^ l ≤ 1 * 2 ^ l := Nat.mul_le_mul_right _ hb
      omega
    · rw [Nat.add_comm, Nat.mul_comm, Nat.testBit_two_pow_mul_add _ h1]
      by_cases hj : j < l
      · rw [if_pos hj, h2]; simp [hj, show j < l + 1 by omega]
      · rw [if_neg hj]
        by_cases hjl : j = l
        · subst hjl; cases f j <;> simp
        · have : (f l).toNat.testBit (j - l) = false := by
            apply Nat.testBit_lt_two_pow
            have : 2 ^ 1 ≤ 2 ^ (j - l) := Nat.pow_le_pow_right (by omega) (by omega)
            omega
          rw [this]; simp [show ¬ j < l + 1 by omega]

theorem revBits_lt (l c : Nat) : revBits l c < 2 ^ l := (sum_of_bits (fun j => c.testBit (l - 1 - j)) l).1

theorem revBits_testBit (l c j : Nat) : (revBits l c).testBit j = (decide (j < l) && c.testBit (l - 1 - j)) :=
  (sum_of_bits (fun j => c.testBit (l - 1 - j)) l).2 j

/-- A code fits its 16-bit element (R157). -/
theorem revBits_lt_word {l c : Nat} (hl : l ≤ 15) : revBits l c < 2 ^ 16 :=
  lt_of_lt_of_le (revBits_lt l c) (Nat.pow_le_pow_right (by omega) (by omega))

/-! ### The command -/

theorem writeCodes_get {i k : Nat} {lens : List Nat} {codes : List (Option Nat)} {b : Buf 16} (hlen : codes.length = lens.length) :
    bufGet k (writeCodes i lens codes b) =
      if i ≤ k then
        match lens[k - i]?, codes[k - i]? with
        | some l, some (some c) => some (BitVec.ofNat 16 (revBits l c))
        | _, _ => bufGet k b
      else bufGet k b := by
  induction lens generalizing i codes b with
  | nil => simp [writeCodes]
  | cons l lens ih =>
    cases codes with
    | nil => simp at hlen
    | cons c codes =>
      have hlen' : codes.length = lens.length := by simpa using hlen
      cases c with
      | none =>
        rw [writeCodes, ih hlen']
        by_cases hk : i ≤ k
        · by_cases hki : k = i
          · subst hki; simp [show ¬ k + 1 ≤ k by omega]
          · rw [if_pos (by omega), if_pos hk, show k - i = (k - (i + 1)) + 1 by omega]; simp
        · rw [if_neg (by omega), if_neg hk]
      | some c =>
        rw [writeCodes, ih hlen', bufGet_bufSet]
        by_cases hk : i ≤ k
        · by_cases hki : k = i
          · subst hki; simp [show ¬ k + 1 ≤ k by omega]
          · rw [if_pos (by omega), if_pos hk, show k - i = (k - (i + 1)) + 1 by omega, if_neg hki]; simp
        · rw [if_neg (by omega), if_neg hk, if_neg (by omega)]

theorem writeCodes_wf {size i : Nat} {lens : List Nat} {codes : List (Option Nat)} {b : Buf 16} (hi : i + lens.length ≤ size)
    (h : Buf.wf size b) : Buf.wf size (writeCodes i lens codes b) := by
  induction lens generalizing i codes b with
  | nil => cases codes <;> exact h
  | cons l lens ih =>
    simp only [List.length_cons] at hi
    cases codes with
    | nil => exact h
    | cons c codes =>
      cases c with
      | none => exact ih (by omega) h
      | some c => exact ih (by omega) (bufSet_wf _ (by omega) h)

/-- Everything the body of ASSIGN can do (R150, R158). -/
theorem runAssign_cases (n : Nat) (s : State) :
    (∃ i, i < n ∧ bufGet i s.len = none ∧ runAssign n s = .refused (.unwrittenElement .len i)) ∨
    (Written s.len n ∧ 2 ^ 15 < kraftScaled (elements s.len n) ∧ runAssign n s = .refused .kraftAboveOne) ∨
    (Written s.len n ∧ kraftScaled (elements s.len n) ≤ 2 ^ 15 ∧
      runAssign n s = .success false
        { s with code := writeCodes 0 (elements s.len n) (canonicalCodes (elements s.len n)) s.code }) := by
  rw [runAssign]
  cases hr : bufRead s.len 0 n with
  | error i =>
    obtain ⟨-, h4, h5, -⟩ := bufRead_error_iff.1 hr
    exact .inl ⟨i, by omega, h5, rfl⟩
  | ok elems =>
    obtain ⟨-, hw, he⟩ := bufRead_zero_ok hr
    simp only [he, kraftAtMostOne, decide_eq_true_eq]
    by_cases hk : kraftScaled (elements s.len n) ≤ 2 ^ 15
    · rw [if_pos hk]; exact .inr (.inr ⟨hw, hk, rfl⟩)
    · rw [if_neg hk]; exact .inr (.inl ⟨hw, by omega, rfl⟩)

theorem elements_len_le (b : Buf 4) (n : Nat) : ∀ l ∈ elements b n, l ≤ 15 := fun l hl => by
  have := elements_lt b n l hl; omega

end Sys2Proof.Machine
end

