-- ==== Sys2Proof/Laws/Attempt.lean ====
section
/-! SUPPORT. What one attempt of BUILD gives every symbol, and that the retry loop ends (spec/41_builder.md R132, R140,
spec/70_reset_and_hazards.md R250). -/

namespace Sys2Proof.Machine

/-! ### The symbols of nonzero count -/

theorem mem_nonzeroFrom {i s c : Nat} {hist : List Nat} :
    (s, c) ∈ nonzeroFrom i hist ↔ i ≤ s ∧ hist[s - i]? = some c ∧ c ≠ 0 := by
  induction hist generalizing i with
  | nil => simp [nonzeroFrom]
  | cons x xs ih =>
    have hrest : (i + 1 ≤ s ∧ xs[s - (i + 1)]? = some c ∧ c ≠ 0) ↔
        (i ≤ s ∧ s ≠ i ∧ (x :: xs)[s - i]? = some c ∧ c ≠ 0) := by
      constructor
      · rintro ⟨h1, h2, h3⟩
        refine ⟨by omega, by omega, ?_, h3⟩
        rw [show s - i = s - (i + 1) + 1 by omega]; simpa using h2
      · rintro ⟨h1, h2, h3, h4⟩
        refine ⟨by omega, ?_, h4⟩
        rw [show s - i = s - (i + 1) + 1 by omega] at h3; simpa using h3
    rw [nonzeroFrom]
    split
    · rename_i hx
      rw [ih, hrest]
      constructor
      · rintro ⟨h1, -, h3⟩; exact ⟨h1, h3⟩
      · rintro ⟨h1, h2, h3⟩
        refine ⟨h1, ?_, h2, h3⟩
        rintro rfl
        simp at h2; omega
    · rename_i hx
      rw [List.mem_cons, ih, hrest, Prod.mk.injEq]
      constructor
      · rintro (⟨rfl, rfl⟩ | ⟨h1, -, h3⟩)
        · simp [hx]
        · exact ⟨h1, h3⟩
      · rintro ⟨h1, h2, h3⟩
        by_cases hs : s = i
        · subst hs; simp at h2; exact .inl ⟨rfl, h2.symm⟩
        · exact .inr ⟨h1, hs, h2, h3⟩

theorem mem_nonzeroSymbols {s c : Nat} {hist : List Nat} :
    (s, c) ∈ nonzeroSymbols hist ↔ hist[s]? = some c ∧ c ≠ 0 := by
  rw [nonzeroSymbols, mem_nonzeroFrom]; simp

theorem nonzeroFrom_nodup (i : Nat) (hist : List Nat) : ((nonzeroFrom i hist).map Prod.fst).Nodup := by
  induction hist generalizing i with
  | nil => simp [nonzeroFrom]
  | cons x xs ih =>
    rw [nonzeroFrom]
    split
    · exact ih _
    · rw [List.map_cons, List.nodup_cons]
      refine ⟨fun h => ?_, ih _⟩
      obtain ⟨⟨s, c⟩, hm, he⟩ := List.mem_map.1 h
      have := mem_nonzeroFrom.1 hm
      simp only at he; omega

theorem nonzeroSymbols_nodup (hist : List Nat) : ((nonzeroSymbols hist).map Prod.fst).Nodup := nonzeroFrom_nodup 0 hist

/-- No symbol has a count exactly when every count is 0. -/
theorem nonzeroSymbols_eq_nil {hist : List Nat} : nonzeroSymbols hist = [] ↔ ∀ c ∈ hist, c = 0 := by
  constructor
  · intro h c hc
    by_contra hne
    obtain ⟨s, hs⟩ := List.mem_iff_getElem?.1 hc
    have := mem_nonzeroSymbols.2 ⟨hs, hne⟩
    rw [h] at this; simp at this
  · intro h
    rw [List.eq_nil_iff_forall_not_mem]
    rintro ⟨s, c⟩ hm
    obtain ⟨h1, h2⟩ := mem_nonzeroSymbols.1 hm
    exact h2 (h c (List.mem_iff_getElem?.2 ⟨s, h1⟩))

/-! ### What an attempt writes -/

/-- The live weights at the start of an attempt. -/
def startWeights (hist : List Nat) (countMin : Nat) : List Nat :=
  (initialLive (nonzeroSymbols hist) countMin).map Node.weight

/-- The live symbols at the start of an attempt, in the same order. -/
def startSymbols (hist : List Nat) (countMin : Nat) : List Nat :=
  (initialLive (nonzeroSymbols hist) countMin).map fun x => x.symbol.toNat

/-- The depths in the order of the live list: 1 for a single symbol (R131), else those of the tree. -/
def leafDepths (ws : List Nat) : List Nat := if ws.length = 1 then [1] else finalDepths (ws.length - 1) ws

theorem initialLive_perm (nz : List (Nat × Nat)) (countMin : Nat) :
    (initialLive nz countMin).Perm (nz.map fun p => leafNode (max p.2 countMin) p.1) := sortLive_perm _

theorem initialLive_length (nz : List (Nat × Nat)) (countMin : Nat) : (initialLive nz countMin).length = nz.length := by
  rw [(initialLive_perm nz countMin).length_eq, List.length_map]

theorem startWeights_length (hist : List Nat) (countMin : Nat) :
    (startWeights hist countMin).length = (nonzeroSymbols hist).length := by
  rw [startWeights, List.length_map, initialLive_length]

theorem startSymbols_length (hist : List Nat) (countMin : Nat) :
    (startSymbols hist countMin).length = (nonzeroSymbols hist).length := by
  rw [startSymbols, List.length_map, initialLive_length]

theorem startWeights_descending (hist : List Nat) (countMin : Nat) :
    (startWeights hist countMin).Pairwise (fun a b => b ≤ a) := by
  rw [startWeights, List.pairwise_map]; exact sortLive_descending _

/-- Every symbol with its weight is one of the leaves (R125). -/
theorem startPairs_perm (hist : List Nat) (countMin : Nat) :
    ((startSymbols hist countMin).zip (startWeights hist countMin)).Perm
      ((nonzeroSymbols hist).map fun p => (p.1, max p.2 countMin)) := by
  have hz : ∀ l : List Node, (l.map fun x => x.symbol.toNat).zip (l.map Node.weight) =
      l.map fun x => (x.symbol.toNat, x.weight) := by
    intro l
    induction l with
    | nil => rfl
    | cons x xs ih => simp [ih]
  rw [startSymbols, startWeights, hz]
  refine ((initialLive_perm _ _).map _).trans ?_
  rw [List.map_map]
  exact List.Perm.of_eq (List.map_congr_left fun p _ => by simp [leafNode])

theorem startSymbols_perm (hist : List Nat) (countMin : Nat) :
    (startSymbols hist countMin).Perm ((nonzeroSymbols hist).map Prod.fst) := by
  rw [startSymbols]
  refine ((initialLive_perm _ _).map _).trans ?_
  rw [List.map_map]
  exact List.Perm.of_eq (List.map_congr_left fun p _ => by simp [leafNode])

theorem leafDepths_length {ws : List Nat} (h : ws ≠ []) : (leafDepths ws).length = ws.length := by
  have : 0 < ws.length := List.length_pos_iff.2 h
  rw [leafDepths]
  split
  · simp [*]
  · exact finalDepths_length _ _ (by omega)

/-- What an attempt writes: each live symbol gets its depth, all others stay 0. -/
theorem attemptDepths_eq (hist : List Nat) (countMin : Nat) (h : nonzeroSymbols hist ≠ []) :
    ∃ ps : List (Nat × Nat),
      ps.Perm ((startSymbols hist countMin).zip (leafDepths (startWeights hist countMin))) ∧
      attemptDepths hist countMin = setAll ps (List.replicate hist.length 0) := by
  have hlen := initialLive_length (nonzeroSymbols hist) countMin
  have hwl := startWeights_length hist countMin
  rcases hlive : initialLive (nonzeroSymbols hist) countMin with _ | ⟨x, _ | ⟨y, rest⟩⟩
  · rw [hlive] at hlen
    exact absurd (List.eq_nil_of_length_eq_zero (by simpa using hlen.symm)) h
  · refine ⟨[(x.symbol.toNat, 1)], ?_, ?_⟩
    · rw [leafDepths, if_pos (by rw [startWeights, hlive]; rfl), startSymbols, hlive]; simp
    · simp only [attemptDepths, hlive]; rfl
  · set live := x :: y :: rest with hl
    have hn : live.length = (nonzeroSymbols hist).length - 1 + 1 := by
      rw [hlive] at hlen; rw [hl] at hlen ⊢; simp at hlen ⊢; omega
    -- at the start each live node is the leaf of its symbol
    have hrep : List.Forall₂ (Represents []) live (live.map fun z => HTree.leaf z.symbol.toNat) := by
      have hleaf : ∀ z ∈ live, ∃ w s, z = leafNode w s := by
        intro z hz
        rw [← hlive] at hz
        obtain ⟨p, -, rfl⟩ := List.mem_map.1 ((initialLive_perm _ _).mem_iff.1 hz)
        exact ⟨_, _, rfl⟩
      clear_value live
      clear hl hlive hn
      induction live with
      | nil => exact .nil
      | cons z zs ih =>
        obtain ⟨w, s, rfl⟩ := hleaf z (by simp)
        exact .cons (by simpa [leafNode] using Represents.leaf (pool := []) w s) (ih fun z hz => hleaf z (by simp [hz]))
    obtain ⟨root, t, e1, e2, -, e4⟩ := mergeAll_tree _ live [] _ hn hrep
    have hplaced : ∀ (zs : List Node) (ds : List Nat), zs.length = ds.length →
        placed (zs.map fun z => HTree.leaf z.symbol.toNat) ds = (zs.map fun z => z.symbol.toNat).zip ds := by
      intro zs
      induction zs with
      | nil => intro ds _; simp [placed]
      | cons z zs ih =>
        intro ds hds
        cases ds with
        | nil => simp at hds
        | cons d ds => rw [List.map_cons, placed_cons, ih ds (by simpa using hds)]; simp [HTree.depths]
    have hws : startWeights hist countMin = live.map Node.weight := by rw [startWeights, hlive]
    have hne : ¬ (startWeights hist countMin).length = 1 := by rw [hws, hl]; simp
    have hD : leafDepths (startWeights hist countMin) = finalDepths ((nonzeroSymbols hist).length - 1) (live.map Node.weight) := by
      rw [leafDepths, if_neg hne, hwl, hws]
    have hDl : (finalDepths ((nonzeroSymbols hist).length - 1) (live.map Node.weight)).length = live.length := by
      rw [finalDepths_length _ _ (by rw [List.length_map]; omega), List.length_map]
    rw [hplaced live _ hDl.symm] at e4
    refine ⟨t.depths 0, ?_, ?_⟩
    · rw [hD, startSymbols, hlive]; exact e4
    · have hfuel : t.height < (nonzeroSymbols hist).length := by
        have h1 := t.height_lt_length 0
        have h2 := e4.length_eq
        rw [List.length_zip, List.length_map, hDl, Nat.min_self] at h2
        have h3 : live.length = (nonzeroSymbols hist).length := by rw [← hlen, hlive]
        exact h3 ▸ h2 ▸ h1
      simp only [attemptDepths, hlive, hl]
      rw [e1]
      exact setDepths_eq e2 _ _ _ hfuel

theorem attemptDepths_length (hist : List Nat) (countMin : Nat) : (attemptDepths hist countMin).length = hist.length := by
  by_cases h : nonzeroSymbols hist = []
  · simp [attemptDepths, h, initialLive, sortLive]
  · obtain ⟨ps, -, he⟩ := attemptDepths_eq hist countMin h
    rw [he, setAll_length]; simp

/-- The pairs of symbol and depth of an attempt, with what their symbols are. -/
theorem attemptDepths_pairs (hist : List Nat) (countMin : Nat) (h : nonzeroSymbols hist ≠ []) :
    ∃ ps : List (Nat × Nat),
      attemptDepths hist countMin = setAll ps (List.replicate hist.length 0) ∧
      (ps.map Prod.fst).Nodup ∧ (∀ p ∈ ps, p.1 < hist.length) ∧
      (∀ s, s ∈ ps.map Prod.fst ↔ ∃ c, hist[s]? = some c ∧ c ≠ 0) ∧
      ps.Perm ((startSymbols hist countMin).zip (leafDepths (startWeights hist countMin))) := by
  obtain ⟨ps, hp, he⟩ := attemptDepths_eq hist countMin h
  have hne : startWeights hist countMin ≠ [] := by
    intro hc
    have := startWeights_length hist countMin
    rw [hc] at this
    exact h (List.eq_nil_of_length_eq_zero this.symm)
  have hz : ((startSymbols hist countMin).zip (leafDepths (startWeights hist countMin))).map Prod.fst =
      startSymbols hist countMin := by
    rw [List.map_fst_zip]
    rw [leafDepths_length hne, startWeights_length, startSymbols_length]
  have hk : (ps.map Prod.fst).Perm ((nonzeroSymbols hist).map Prod.fst) := by
    have := hp.map Prod.fst
    rw [hz] at this
    exact this.trans (startSymbols_perm hist countMin)
  have hm : ∀ s, s ∈ ps.map Prod.fst ↔ ∃ c, hist[s]? = some c ∧ c ≠ 0 := by
    intro s
    rw [hk.mem_iff, List.mem_map]
    constructor
    · rintro ⟨⟨s, c⟩, hm, rfl⟩; exact ⟨c, mem_nonzeroSymbols.1 hm⟩
    · rintro ⟨c, hc⟩; exact ⟨(s, c), mem_nonzeroSymbols.2 hc, rfl⟩
  refine ⟨ps, he, hk.nodup_iff.2 (nonzeroSymbols_nodup hist), fun p hp => ?_, hm, hp⟩
  obtain ⟨c, hc, -⟩ := (hm p.1).1 (List.mem_map_of_mem hp)
  exact (List.getElem?_eq_some_iff.1 hc).1

/-- A symbol of zero count keeps depth 0 (R122). -/
theorem attemptDepths_zero {hist : List Nat} {countMin s : Nat} (h : hist[s]? = some 0) :
    (attemptDepths hist countMin)[s]? = some 0 := by
  have hs : s < hist.length := (List.getElem?_eq_some_iff.1 h).1
  by_cases hn : nonzeroSymbols hist = []
  · simp [attemptDepths, hn, initialLive, sortLive, hs]
  · obtain ⟨ps, he, -, -, hm, -⟩ := attemptDepths_pairs hist countMin hn
    rw [he, setAll_get_other]
    · simp [hs]
    · rintro p hp rfl
      obtain ⟨c, hc, hne⟩ := (hm p.1).1 (List.mem_map_of_mem hp)
      rw [h] at hc; exact hne (by simpa using hc.symm)

theorem leafDepths_pos {ws : List Nat} : ∀ e ∈ leafDepths ws, 1 ≤ e := by
  rw [leafDepths]
  split
  · simp
  · rename_i h
    rcases Nat.lt_or_ge ws.length 2 with h2 | h2
    · have : ws = [] := List.eq_nil_of_length_eq_zero (by omega)
      subst this; simp [finalDepths]
    · rw [show ws.length - 1 = ws.length - 2 + 1 by omega]
      exact finalDepths_pos _ _ (by omega)

/-- A symbol of nonzero count gets its depth from the live list, at least 1 (R140 (b)). -/
theorem attemptDepths_nonzero {hist : List Nat} {countMin s c : Nat} (h : hist[s]? = some c) (hc : c ≠ 0) :
    ∃ e, (attemptDepths hist countMin)[s]? = some e ∧ 1 ≤ e ∧
      (s, e) ∈ (startSymbols hist countMin).zip (leafDepths (startWeights hist countMin)) := by
  have hn : nonzeroSymbols hist ≠ [] := fun hn => hc (nonzeroSymbols_eq_nil.1 hn c (List.mem_iff_getElem?.2 ⟨s, h⟩))
  obtain ⟨ps, he, hnd, hlt, hm, hp⟩ := attemptDepths_pairs hist countMin hn
  obtain ⟨p, hps, hp1⟩ := List.mem_map.1 ((hm s).2 ⟨c, h, hc⟩)
  have hz := hp.mem_iff.1 hps
  refine ⟨p.2, ?_, leafDepths_pos _ (List.of_mem_zip hz).2, by rw [← hp1]; exact hz⟩
  rw [he, ← hp1]
  exact setAll_get_mem hnd hps (by simpa using hlt p hps)

/-! ### The greatest depth -/

theorem maxDepth_le_iff {depth : List Nat} {d : Nat} : maxDepth depth ≤ d ↔ ∀ e ∈ depth, e ≤ d := by
  induction depth with
  | nil => simp [maxDepth]
  | cons x xs ih =>
    rw [maxDepth] at ih ⊢
    simp only [List.foldr_cons, List.mem_cons, forall_eq_or_imp, ← ih]
    omega

theorem attemptDepths_maxDepth_le {hist : List Nat} {countMin H : Nat}
    (h : ∀ e ∈ leafDepths (startWeights hist countMin), e ≤ H) : maxDepth (attemptDepths hist countMin) ≤ H := by
  rw [maxDepth_le_iff]
  intro e he
  obtain ⟨s, hs⟩ := List.mem_iff_getElem?.1 he
  have hsl : s < hist.length := by
    have := (List.getElem?_eq_some_iff.1 hs).1
    rwa [attemptDepths_length] at this
  obtain ⟨c, hc⟩ : ∃ c, hist[s]? = some c := ⟨_, List.getElem?_eq_getElem hsl⟩
  by_cases h0 : c = 0
  · subst h0
    rw [attemptDepths_zero hc] at hs
    simp at hs; omega
  · obtain ⟨e', h1, -, h3⟩ := attemptDepths_nonzero (countMin := countMin) hc h0
    rw [h1] at hs
    simp at hs; subst hs
    exact h _ (List.of_mem_zip h3).2

/-- The Kraft sum of an attempt (R140 (c)), scaled by `2^H`: 1 with at least two symbols, 1/2 with one. -/
theorem attemptDepths_kraft {hist : List Nat} {countMin H : Nat} (hn : nonzeroSymbols hist ≠ [])
    (hmax : maxDepth (attemptDepths hist countMin) ≤ H) :
    ((attemptDepths hist countMin).map fun l => if l = 0 then 0 else 2 ^ (H - l)).sum =
      if (nonzeroSymbols hist).length = 1 then 2 ^ (H - 1) else 2 ^ H := by
  obtain ⟨ps, he, hnd, hlt, hm, hp⟩ := attemptDepths_pairs hist countMin hn
  have hne : startWeights hist countMin ≠ [] := by
    intro hc
    have := startWeights_length hist countMin
    rw [hc] at this
    exact hn (List.eq_nil_of_length_eq_zero this.symm)
  have hwl := startWeights_length hist countMin
  have hpos : 0 < (nonzeroSymbols hist).length := List.length_pos_iff.2 hn
  have hsnd : ((startSymbols hist countMin).zip (leafDepths (startWeights hist countMin))).map Prod.snd =
      leafDepths (startWeights hist countMin) := by
    rw [List.map_snd_zip]
    rw [leafDepths_length hne, hwl, startSymbols_length]
  have hsum0 : ((List.replicate hist.length 0).map fun l => if l = 0 then 0 else 2 ^ (H - l)).sum = 0 := by simp
  have hle : ∀ e ∈ leafDepths (startWeights hist countMin), e ≤ H := by
    intro e hx
    rw [← hsnd] at hx
    obtain ⟨p, hpz, rfl⟩ := List.mem_map.1 hx
    have hps := hp.mem_iff.2 hpz
    have hg := setAll_get_mem (depth := List.replicate hist.length 0) hnd hps (by simpa using hlt p hps)
    rw [← he] at hg
    exact maxDepth_le_iff.1 hmax _ (List.mem_iff_getElem?.2 ⟨_, hg⟩)
  rw [he, setAll_sum _ hnd (fun p hps => ⟨0, by simp [hlt p hps], by simp⟩), hsum0, Nat.zero_add]
  have hperm := (hp.map fun p => if p.2 = 0 then 0 else 2 ^ (H - p.2)).sum_eq
  rw [hperm]
  have : ((startSymbols hist countMin).zip (leafDepths (startWeights hist countMin))).map
      (fun p => if p.2 = 0 then 0 else 2 ^ (H - p.2)) =
      (leafDepths (startWeights hist countMin)).map (fun e => 2 ^ (H - e)) := by
    conv_rhs => rw [← hsnd, List.map_map]
    refine List.map_congr_left fun p hpz => ?_
    have := leafDepths_pos _ (List.of_mem_zip hpz).2
    simp only [Function.comp]
    rw [if_neg (by omega)]
  rw [this]
  by_cases h1 : (nonzeroSymbols hist).length = 1
  · rw [if_pos h1, leafDepths, if_pos (by omega)]; simp
  · rw [if_neg h1, leafDepths, if_neg (by omega)]
    rw [leafDepths, if_neg (by omega)] at hle
    exact finalDepths_kraft H _ _ (by omega) hle

/-- A symbol of larger weight never gets a greater depth than one of smaller weight (R140 (d)). -/
theorem attemptDepths_heavier {hist : List Nat} {countMin s t cs ct ds dt : Nat}
    (hs : hist[s]? = some cs) (ht : hist[t]? = some ct) (hcs : cs ≠ 0) (hct : ct ≠ 0)
    (hds : (attemptDepths hist countMin)[s]? = some ds) (hdt : (attemptDepths hist countMin)[t]? = some dt)
    (hw : max ct countMin < max cs countMin) : ds ≤ dt := by
  obtain ⟨e1, a1, -, a3⟩ := attemptDepths_nonzero (countMin := countMin) hs hcs
  obtain ⟨e2, b1, -, b3⟩ := attemptDepths_nonzero (countMin := countMin) ht hct
  rw [a1] at hds; rw [b1] at hdt
  simp only [Option.some.injEq] at hds hdt
  subst hds; subst hdt
  obtain ⟨i, hi, hi'⟩ := List.getElem_of_mem a3
  obtain ⟨j, hj, hj'⟩ := List.getElem_of_mem b3
  rw [List.getElem_zip] at hi' hj'
  simp only [Prod.mk.injEq] at hi' hj'
  rw [List.length_zip] at hi hj
  set ss := startSymbols hist countMin
  set ws := startWeights hist countMin with hws
  have hl1 : ss.length = (nonzeroSymbols hist).length := startSymbols_length hist countMin
  have hl2 : ws.length = (nonzeroSymbols hist).length := startWeights_length hist countMin
  -- the weight beside a symbol is its own
  have hweight : ∀ k (hk : k < ss.length) (hk' : k < ws.length) c, hist[ss[k]]? = some c → ws[k] = max c countMin := by
    intro k hk hk' c hc
    have hmem : (ss[k], ws[k]) ∈ ss.zip ws := by
      rw [← List.getElem_zip (h := by rw [List.length_zip]; omega)]; exact List.getElem_mem _
    obtain ⟨⟨x, y⟩, hxy, he⟩ := List.mem_map.1 ((startPairs_perm hist countMin).mem_iff.1 hmem)
    simp only [Prod.mk.injEq] at he
    have := (mem_nonzeroSymbols.1 hxy).1
    rw [he.1, hc] at this
    simp only [Option.some.injEq] at this
    rw [← he.2, this]
  have hwi := hweight i (by omega) (by omega) cs (by rw [hi'.1]; exact hs)
  have hwj := hweight j (by omega) (by omega) ct (by rw [hj'.1]; exact ht)
  have hdesc := startWeights_descending hist countMin
  rw [← hws] at hdesc
  have hij : i < j := by
    by_contra hc
    have : ws[i] ≤ ws[j] := by
      rcases Nat.lt_or_ge j i with h | h
      · exact (List.pairwise_iff_getElem.1 hdesc) j i (by omega) (by omega) h
      · have : i = j := by omega
        subst this; exact le_refl _
    omega
  have hne : ¬ ws.length = 1 := by omega
  have hD : leafDepths ws = finalDepths (ws.length - 1) ws := by rw [leafDepths, if_neg hne]
  have hmono := (finalDepths_monotone (ws.length - 1) ws (by omega) hdesc).1
  rw [← hD] at hmono
  have := (List.pairwise_iff_getElem.1 hmono) i j (by omega) (by omega) hij
  rw [← hi'.2, ← hj'.2]
  exact this

/-! ### The retry loop ends -/

/-- Once twice the floor is at least every count, the attempt is accepted for every depth limit that passes the size assertion. -/
theorem attemptDepths_flat {hist : List Nat} {countMin d : Nat} (hd : 1 ≤ d)
    (hsize : (nonzeroSymbols hist).length ≤ 2 ^ (d - 1)) (hM : ∀ c ∈ hist, c ≤ 2 * countMin) :
    maxDepth (attemptDepths hist countMin) ≤ d := by
  apply attemptDepths_maxDepth_le
  set ws := startWeights hist countMin with hws
  have hl := startWeights_length hist countMin
  rw [← hws] at hl
  rw [leafDepths]
  split
  · simpa using hd
  · rename_i h1
    rcases Nat.eq_zero_or_pos ws.length with h0 | h0
    · have : ws = [] := List.eq_nil_of_length_eq_zero h0
      simp [this, finalDepths]
    · have hrange : ∀ x ∈ ws, countMin ≤ x ∧ x ≤ 2 * countMin := by
        intro x hx
        rw [hws, startWeights] at hx
        obtain ⟨z, hz, rfl⟩ := List.mem_map.1 hx
        obtain ⟨⟨s, c⟩, hp, rfl⟩ := List.mem_map.1 ((initialLive_perm _ _).mem_iff.1 hz)
        have := hM c (List.mem_iff_getElem?.2 ⟨s, (mem_nonzeroSymbols.1 hp).1⟩)
        simp only [leafNode]
        omega
      intro e he
      have := finalDepths_le_of_balanced (H := d - 1) (fuel := ws.length - 1) (ws := ws) (by omega)
        (startWeights_descending hist countMin) (by omega)
        (fun x hx y hy z hz => by
          have := hrange x hx; have := hrange y hy; have := hrange z hz; omega) e he
      omega

/-- What the retry loop answers: the first power of two times the starting floor whose attempt fits. -/
theorem retryLoop_spec {hist : List Nat} {d : Nat} (fuel countMin k : Nat) (hk : k < fuel)
    (hfit : maxDepth (attemptDepths hist (2 ^ k * countMin)) ≤ d) :
    ∃ j ≤ k, retryLoop hist d fuel countMin = some (attemptDepths hist (2 ^ j * countMin), 2 ^ j * countMin) ∧
      maxDepth (attemptDepths hist (2 ^ j * countMin)) ≤ d ∧
      ∀ i < j, d < maxDepth (attemptDepths hist (2 ^ i * countMin)) := by
  induction fuel generalizing countMin k with
  | zero => omega
  | succ fuel ih =>
    rw [retryLoop]
    split
    · rename_i h
      exact ⟨0, by omega, by simp, by simpa using h, by omega⟩
    · rename_i h
      cases k with
      | zero => simp at hfit; exact absurd hfit h
      | succ k =>
        have hpow : ∀ i, 2 ^ i * (2 * countMin) = 2 ^ (i + 1) * countMin := by intro i; rw [pow_succ]; ring
        obtain ⟨j, hj, h1, h2, h3⟩ := ih (2 * countMin) k (by omega) (by rw [hpow]; exact hfit)
        rw [hpow] at h1 h2
        refine ⟨j + 1, by omega, h1, h2, fun i hi => ?_⟩
        cases i with
        | zero => simpa using Nat.lt_of_not_le h
        | succ i => rw [← hpow]; exact h3 i (by omega)

/-- The retry loop of R132 ends within the attempts of R250; the accepted floor is the least power of two whose attempt fits, and it is
at most `2^31`, so CMIN holds it. -/
theorem retryLoop_ends {hist : List Nat} {d : Nat} (hd : 1 ≤ d)
    (hsize : (nonzeroSymbols hist).length ≤ 2 ^ (d - 1)) (hM : ∀ c ∈ hist, c < 2 ^ 32) :
    ∃ j ≤ 31, retryLoop hist d Config.maxAttempts 1 = some (attemptDepths hist (2 ^ j), 2 ^ j) ∧
      maxDepth (attemptDepths hist (2 ^ j)) ≤ d ∧ ∀ i < j, d < maxDepth (attemptDepths hist (2 ^ i)) := by
  have hfit : maxDepth (attemptDepths hist (2 ^ 31 * 1)) ≤ d :=
    attemptDepths_flat hd hsize fun c hc => by have := hM c hc; omega
  obtain ⟨j, hj, h1, h2, h3⟩ := retryLoop_spec Config.maxAttempts 1 31 (by decide) hfit
  simp only [Nat.mul_one] at h1 h2 h3
  exact ⟨j, hj, h1, h2, h3⟩

/-- An accepted floor is a power of two times the starting floor. -/
theorem retryLoop_some {hist : List Nat} {d fuel countMin : Nat} {depth : List Nat} {cm : Nat}
    (h : retryLoop hist d fuel countMin = some (depth, cm)) :
    ∃ j < fuel, cm = 2 ^ j * countMin ∧ depth = attemptDepths hist cm ∧ maxDepth depth ≤ d := by
  induction fuel generalizing countMin with
  | zero => simp [retryLoop] at h
  | succ fuel ih =>
    rw [retryLoop] at h
    split at h
    · rename_i hm
      simp only [Option.some.injEq, Prod.mk.injEq] at h
      obtain ⟨rfl, rfl⟩ := h
      exact ⟨0, by omega, by simp, rfl, hm⟩
    · obtain ⟨j, hj, h1, h2, h3⟩ := ih h
      exact ⟨j + 1, by omega, by rw [h1, pow_succ]; ring, h2, h3⟩

end Sys2Proof.Machine
end

