-- ==== Sys2Proof/Laws/BuildCommand.lean ====
section
/-! SUPPORT. Everything the body of BUILD can do (spec/41_builder.md R120 to R133). -/

namespace Sys2Proof.Machine

/-- `n_nz` counts the nonzero counts (R122). -/
theorem nonzeroSymbols_length (hist : List Nat) : (nonzeroSymbols hist).length = (hist.filter (· ≠ 0)).length := by
  suffices ∀ i, (nonzeroFrom i hist).length = (hist.filter (· ≠ 0)).length from this 0
  induction hist with
  | nil => intro i; rfl
  | cons c rest ih =>
    intro i
    rw [nonzeroFrom]
    by_cases hc : c = 0
    · simp [hc, ih]
    · simp [hc, ih]

theorem nonzeroSymbols_length_pos {hist : List Nat} : (nonzeroSymbols hist).length ≠ 0 ↔ ∃ c ∈ hist, c ≠ 0 := by
  rw [Ne, List.length_eq_zero_iff, nonzeroSymbols_eq_nil]
  simp

/-- The state after an accepted attempt at the floor `2^j` (R133). -/
abbrev builtState (n j : Nat) (s : State) : State :=
  { writeLengths (attemptDepths (elements s.hist n) (2 ^ j)) s with cmin := BitVec.ofNat 32 (2 ^ j) }

/-- Everything the body of BUILD can do. -/
theorem runBuild_cases (n d : Nat) (s : State) (hd : 1 ≤ d) :
    (∃ i, i < n ∧ bufGet i s.hist = none ∧ runBuild n d s = .refused (.unwrittenElement .hist i)) ∨
    (Written s.hist n ∧ (∀ c ∈ elements s.hist n, c = 0) ∧
      runBuild n d s = .success true { writeLengths (List.replicate n 0) s with cmin := 0 }) ∨
    (Written s.hist n ∧ (∃ c ∈ elements s.hist n, c ≠ 0) ∧ 2 ^ (d - 1) < (nonzeroSymbols (elements s.hist n)).length ∧
      runBuild n d s = .fault .assertSize s) ∨
    (Written s.hist n ∧ (∃ c ∈ elements s.hist n, c ≠ 0) ∧ (nonzeroSymbols (elements s.hist n)).length ≤ 2 ^ (d - 1) ∧
      s.params.arenaNodes < arenaNeed (nonzeroSymbols (elements s.hist n)).length ∧ runBuild n d s = .fail .alloc s) ∨
    (Written s.hist n ∧ (∃ c ∈ elements s.hist n, c ≠ 0) ∧ (nonzeroSymbols (elements s.hist n)).length ≤ 2 ^ (d - 1) ∧
      arenaNeed (nonzeroSymbols (elements s.hist n)).length ≤ s.params.arenaNodes ∧
      ∃ j ≤ 31, maxDepth (attemptDepths (elements s.hist n) (2 ^ j)) ≤ d ∧
        (∀ i < j, d < maxDepth (attemptDepths (elements s.hist n) (2 ^ i))) ∧
        runBuild n d s = .success false (builtState n j s)) := by
  rw [runBuild]
  cases hr : bufRead s.hist 0 n with
  | error i =>
    obtain ⟨-, h4, h5, -⟩ := bufRead_error_iff.1 hr
    exact .inl ⟨i, by omega, h5, rfl⟩
  | ok counts =>
    obtain ⟨-, hw, he⟩ := bufRead_zero_ok hr
    simp only [he]
    refine .inr ?_
    by_cases h0 : (nonzeroSymbols (elements s.hist n)).length = 0
    · rw [if_pos h0]
      exact .inl ⟨hw, nonzeroSymbols_eq_nil.1 (List.length_eq_zero_iff.1 h0), rfl⟩
    · rw [if_neg h0]
      have hc := nonzeroSymbols_length_pos.1 h0
      refine .inr ?_
      by_cases hs : 2 ^ (d - 1) < (nonzeroSymbols (elements s.hist n)).length
      · rw [if_pos hs]; exact .inl ⟨hw, hc, hs, rfl⟩
      · rw [if_neg hs]
        refine .inr ?_
        by_cases ha : s.params.arenaNodes < arenaNeed (nonzeroSymbols (elements s.hist n)).length
        · rw [if_pos ha]; exact .inl ⟨hw, hc, by omega, ha, rfl⟩
        · rw [if_neg ha]
          obtain ⟨j, hj, hloop, hfit, hleast⟩ := retryLoop_ends hd (by omega) (elements_lt s.hist n)
          rw [hloop]
          exact .inr ⟨hw, hc, by omega, by omega, j, hj, hfit, hleast, rfl⟩

/-- The accepted floor fits CMIN: `2^j` with `j` at most 31. -/
theorem ofNat_two_pow_toNat {j : Nat} (h : j ≤ 31) : (BitVec.ofNat 32 (2 ^ j)).toNat = 2 ^ j := by
  rw [BitVec.toNat_ofNat, Nat.mod_eq_of_lt]
  exact Nat.pow_lt_pow_right (by omega) (by omega)

/-- LEN after the write of depths that fit 4 bits. -/
theorem writeLengths_elements {depth : List Nat} {s : State} {n : Nat} (hn : depth.length = n) (h : ∀ e ∈ depth, e ≤ 15) :
    elements (writeLengths depth s).len n = depth := by
  subst hn
  rw [writeLengths_len]
  exact elements_bufSetFrom (fun e he => by have := h e he; omega)

theorem writeLengths_get {depth : List Nat} {s : State} {i : Nat} (h : i < depth.length) :
    bufGet i (writeLengths depth s).len = some (BitVec.ofNat 4 depth[i]) := by
  rw [writeLengths_len, bufGet_bufSetFrom_zero _ _ (by simpa using h)]; simp

theorem writeLengths_get_outside {depth : List Nat} {s : State} {i : Nat} (h : depth.length ≤ i) :
    bufGet i (writeLengths depth s).len = bufGet i s.len := by
  rw [writeLengths_len]
  exact bufGet_bufSetFrom_outside _ _ (.inr (by simpa using h))

theorem writeLengths_written {depth : List Nat} {s : State} : Written (writeLengths depth s).len depth.length := by
  intro i hi
  rw [writeLengths_get hi]; simp

/-- Every depth of an accepted attempt fits LEN. -/
theorem attemptDepths_le {hist : List Nat} {cm d : Nat} (h : maxDepth (attemptDepths hist cm) ≤ d) (hd : d ≤ 15) :
    ∀ e ∈ attemptDepths hist cm, e ≤ 15 := fun e he => le_trans (maxDepth_le_iff.1 h e he) hd

/-- The Kraft sum of an accepted attempt, in the scale that ASSIGN uses (R140 (c)). -/
theorem attemptDepths_kraftScaled {hist : List Nat} {cm d : Nat} (hn : nonzeroSymbols hist ≠ [])
    (h : maxDepth (attemptDepths hist cm) ≤ d) (hd : d ≤ 15) :
    kraftScaled (attemptDepths hist cm) = if (nonzeroSymbols hist).length = 1 then 2 ^ 14 else 2 ^ 15 :=
  attemptDepths_kraft (H := 15) hn (le_trans h hd)

end Sys2Proof.Machine
end

