-- ==== Sys2Proof/Laws/Decode.lean ====
section
/-! SUPPORT. The fields of a word: what each slice of the two encodings is, and the masks of spec/opcode_table.json as conditions on the
fields. -/

namespace Sys2Proof

/-! ### Command words -/

theorem slice_rsv (w : Word) : slice w 31 4 = w.toNat / 16 := by
  have := w.isLt
  rw [slice]
  have h : w.toNat / 2 ^ 4 < 2 ^ (31 + 1 - 4) := by omega
  rw [Nat.mod_eq_of_lt h]; rfl

theorem slice_op (w : Word) : slice w 3 0 = w.toNat % 16 := by
  rw [slice]; simp

/-- A command word decodes by its whole value (R72: "the decoder's test is `(w & 0xFFFFFFFF) == word`"). -/
theorem decodeCommand_eq (w : Word) :
    decodeCommand w =
      if w.toNat / 16 ≠ 0 then .error .reservedBits
      else match w.toNat % 16 with
        | 1 => .ok .opt
        | 2 => .ok .build
        | 3 => .ok .assign
        | 4 => .ok .tokenize
        | 5 => .ok .buildcodes
        | _ => .error .reservedOp := by
  rw [decodeCommand, slice_rsv, slice_op] <;> rfl

theorem decodeCommand_error_iff (w : Word) :
    (∃ e, decodeCommand w = .error e) ↔ w.toNat / 16 ≠ 0 ∨ w.toNat % 16 = 0 ∨ 6 ≤ w.toNat % 16 := by
  rw [decodeCommand_eq]
  split
  · rename_i h; exact ⟨fun _ => .inl h, fun _ => ⟨_, rfl⟩⟩
  · rename_i h
    have hlt : w.toNat % 16 < 16 := Nat.mod_lt _ (by omega)
    split <;> rename_i h1 <;> simp_all
    omega

/-! ### Token words -/

theorem tokenWord_toNat {code extra : Nat} (hc : code < 256) (he : extra < 256) : (tokenWord code extra).toNat = extra * 256 + code := by
  rw [tokenWord, BitVec.toNat_ofNat, Nat.mod_eq_of_lt]; omega

theorem slice_code (w : TokWord) : slice w 4 0 = w.toNat % 32 := by rw [slice]; simp

theorem slice_extra (w : TokWord) : slice w 14 8 = w.toNat / 256 % 128 := rfl

theorem slice_bit15 (w : TokWord) : slice w 15 15 = w.toNat / 32768 := by
  have := w.isLt
  rw [slice]; omega

theorem slice_reserved (w : TokWord) : slice w 7 5 = w.toNat / 32 % 8 := rfl

/-- A token word made of two fields decodes by its fields (R80). -/
theorem decodeToken_tokenWord {code extra : Nat} (hc : code < 32) (he : extra < 128) :
    decodeToken (tokenWord code extra) = tokenOfFields code extra := by
  have h := tokenWord_toNat (code := code) (extra := extra) (by omega) (by omega)
  rw [decodeToken, slice_bit15, slice_reserved, slice_code, slice_extra, h, if_neg (by omega)]
  congr 1 <;> omega

/-- A word whose reserved bits are 0 is made of its two fields. -/
theorem eq_tokenWord_of_reserved {w : TokWord} (h : ¬(slice w 15 15 ≠ 0 ∨ slice w 7 5 ≠ 0)) :
    w = tokenWord (slice w 4 0) (slice w 14 8) ∧ slice w 4 0 < 32 ∧ slice w 14 8 < 128 := by
  have hlt := w.isLt
  rw [slice_bit15, slice_reserved] at h
  rw [slice_code, slice_extra]
  refine ⟨BitVec.eq_of_toNat_eq ?_, by omega, by omega⟩
  rw [tokenWord_toNat (by omega) (by omega)]; omega

/-- The legal tokens of R81 as fields. -/
def legalToken (code extra : Nat) : Prop :=
  (code ≤ 15 ∧ extra = 0) ∨ (code = 16 ∧ extra ≤ 3) ∨ (code = 17 ∧ extra ≤ 7) ∨ (code = 18 ∧ extra ≤ 127)

/-- The fields give an instruction exactly when they are a legal token; it is well-formed and its encoding is those fields. -/
theorem tokenOfFields_ok {code extra : Nat} {i : Instr} (h : tokenOfFields code extra = .ok i) :
    legalToken code extra ∧ i.wellFormed = true ∧ encode i = .token (tokenWord code extra) := by
  unfold tokenOfFields at h
  simp only at h
  split at h <;> first
    | cases h
    | (split at h
       · rename_i h0
         cases h
         first
           | (subst h0; exact ⟨.inl ⟨by omega, rfl⟩, rfl, rfl⟩)
           | (simp only [Instr.wellFormed, decide_eq_true_eq] at h0
              refine ⟨?_, by simpa [Instr.wellFormed] using h0, rfl⟩
              unfold legalToken; omega)
       · cases h)

theorem tokenOfFields_of_legal {code extra : Nat} (h : legalToken code extra) : ∃ i, tokenOfFields code extra = .ok i := by
  rcases h with ⟨h, rfl⟩ | ⟨rfl, h⟩ | ⟨rfl, h⟩ | ⟨rfl, h⟩
  · interval_cases code <;> exact ⟨_, rfl⟩
  · exact ⟨.rep extra, by simp [tokenOfFields, Instr.wellFormed, h]⟩
  · exact ⟨.zrep extra, by simp [tokenOfFields, Instr.wellFormed, h]⟩
  · exact ⟨.zrepl extra, by simp [tokenOfFields, Instr.wellFormed, h]⟩

theorem decodeToken_of_legal {code extra : Nat} (h : legalToken code extra) :
    ∃ i, decodeToken (tokenWord code extra) = .ok i ∧ tokenOfFields code extra = .ok i := by
  obtain ⟨i, hi⟩ := tokenOfFields_of_legal h
  refine ⟨i, ?_, hi⟩
  rw [decodeToken_tokenWord, hi]
  all_goals unfold legalToken at h; omega

/-! ### The masks of the opcode table -/

/-- A mask that keeps the whole low byte splits at the byte. -/
theorem and_low_byte (hi lo m : Nat) (h : lo < 256) : (hi * 256 + lo) &&& (m * 256 + 255) = (hi &&& m) * 256 + lo := by
  apply Nat.eq_of_testBit_eq
  intro j
  rw [Nat.testBit_and, Nat.mul_comm hi, Nat.mul_comm m, Nat.mul_comm (hi &&& m),
    show (256 : Nat) = 2 ^ 8 from rfl, Nat.testBit_two_pow_mul_add _ (by simpa using h),
    Nat.testBit_two_pow_mul_add _ (by decide), Nat.testBit_two_pow_mul_add _ (by simpa using h)]
  split
  · rename_i hj
    have : Nat.testBit 255 j = true := by
      have : ∀ j < 8, Nat.testBit 255 j = true := by decide
      exact this j hj
    rw [this, Bool.and_true]
  · rw [Nat.testBit_and]

/-- A word and a mask that keeps the low byte: the match is on the low byte and on the masked high byte. -/
theorem and_mask_eq_iff {w m c : Nat} (hc : c < 256) : w &&& (m * 256 + 255) = c ↔ w % 256 = c ∧ w / 256 &&& m = 0 := by
  have hw : w / 256 * 256 + w % 256 = w := by omega
  have h := and_low_byte (w / 256) (w % 256) m (Nat.mod_lt _ (by omega))
  rw [hw] at h
  rw [h]; omega

/-- The high-byte masks of the escapes: bits 14:8 outside `extra_bits`' range, and bit 15. -/
theorem high_byte_mask (x : Nat) (hx : x < 256) :
    (x &&& 0xFF = 0 ↔ x = 0) ∧ (x &&& 0xFC = 0 ↔ x ≤ 3) ∧ (x &&& 0xF8 = 0 ↔ x ≤ 7) ∧ (x &&& 0x80 = 0 ↔ x ≤ 127) := by
  have : ∀ x < 256, (x &&& 0xFF = 0 ↔ x = 0) ∧ (x &&& 0xFC = 0 ↔ x ≤ 3) ∧ (x &&& 0xF8 = 0 ↔ x ≤ 7) ∧
      (x &&& 0x80 = 0 ↔ x ≤ 127) := by decide +kernel
  exact this x hx

end Sys2Proof
end

