-- ==== Sys2Proof/Laws/Step.lean ====
section
/-! SUPPORT. Said once: everything a step can do when it answers a next state. -/

namespace Sys2Proof.Machine

/-- With no move pending the block waits. -/
theorem step_nil {s : State} (h : s.host = []) : step s = .next s := by rw [step, h]

/-- A step takes the next move. -/
theorem step_cons {s : State} {move : HostMove} {rest : List HostMove} (h : s.host = move :: rest) :
    step s = match resolveMove s.params move with
      | some m => stepMove m { s with host := rest }
      | none => .next { s with host := rest } := by
  rw [step, h] <;> rfl

/-- A command word that decodes is one of the five host commands. -/
theorem decodeCommand_ok {w : Word} {i : Instr} (h : decodeCommand w = .ok i) : i ∈ hostCommands := by
  rw [decodeCommand_eq] at h
  split at h
  · cases h
  · split at h <;> cases h <;> simp [hostCommands]

theorem exec_opt (s : State) : exec .opt s = runCommand s.badN (fun t => runOpt s.operandN (enterPhase .opt t)) s := rfl

theorem exec_build (s : State) :
    exec .build s = runCommand (s.badN || s.badD) (fun t => runBuild s.operandN s.operandD (enterPhase .build t)) s := rfl

theorem exec_assign (s : State) : exec .assign s = runCommand s.badN (fun t => runAssign s.operandN (enterPhase .assign t)) s := rfl

theorem exec_tokenize (s : State) :
    exec .tokenize s =
      runCommand (s.badN || s.badM) (fun t => runTokenize s.operandN s.operandM (enterPhase .tokenize t)) s := rfl

theorem exec_buildcodes (s : State) :
    exec .buildcodes s = runCommand (s.badN || s.badD) (fun t => runBuildCodes s.operandN s.operandD t) s := rfl

/-- Each of the five commands is a `runCommand` with the operand check of its column of R213. -/
theorem exec_command (i : Instr) (hi : i ∈ hostCommands) (s : State) : ∃ body, exec i s = runCommand (badOperand i s) body s := by
  simp only [hostCommands, List.mem_cons, List.not_mem_nil, or_false] at hi
  rcases hi with rfl | rfl | rfl | rfl | rfl
  · exact ⟨_, exec_opt s⟩
  · exact ⟨_, exec_build s⟩
  · exact ⟨_, exec_assign s⟩
  · exact ⟨_, exec_tokenize s⟩
  · exact ⟨_, exec_buildcodes s⟩

/-- In the FAULT state a command is ignored (R220). -/
theorem exec_command_faulted {i : Instr} {s : State} (hi : i ∈ hostCommands) (h : s.phase = .faulted) : exec i s = .next s := by
  obtain ⟨body, he⟩ := exec_command i hi s
  rw [he, runCommand_faulted h]

/-- A command outside the FAULT state that answers a next state was taken by a ready block. -/
theorem exec_command_ready {i : Instr} {s t : State} (hi : i ∈ hostCommands) (h : exec i s = .next t) :
    (s.phase = .faulted ∧ t = s) ∨ Ready s := by
  obtain ⟨body, he⟩ := exec_command i hi s
  rw [he] at h
  rcases runCommand_next h with h | h | h
  · exact .inl h
  · exact .inr h.1
  · exact .inr h.1

/-- A token changes the reference expander only. -/
theorem exec_token_next {w : TokWord} {i : Instr} {s t : State} (hi : decodeToken w = .ok i) (h : exec i s = .next t) :
    (∃ v, t = expandLiteral v s) ∨ ∃ v k, t = expandCopies v k s := by
  have hesc : ∀ (bound extra : Nat) (u : State), runEscape bound extra u = .next t → t = u := by
    intro bound extra u h
    rw [runEscape] at h
    split at h
    · cases h; rfl
    · cases h
  rw [decodeToken] at hi
  split at hi
  · cases hi
  · unfold tokenOfFields at hi
    simp only at hi
    split at hi <;> first
      | cases hi
      | (split at hi
         · cases hi
           first
             | (cases h; exact .inl ⟨_, rfl⟩)
             | exact .inr ⟨_, _, hesc _ _ _ h⟩
         · cases hi)

theorem illegalCommand_next {s t : State} (h : illegalCommand s = .next t) :
    (s.phase = .faulted ∧ t = s) ∨ (Ready s ∧ t = raiseFault .illegalCmd s) := by
  rw [illegalCommand] at h
  split at h
  · rename_i hf; cases h; exact .inl ⟨hf, rfl⟩
  · rename_i hf
    split at h
    · cases h
    · rename_i hb; cases h; exact .inr ⟨⟨hf, by simpa using hb⟩, rfl⟩

/-- Everything a move can do when it answers a next state. -/
theorem stepMove_next {m : HostMove} {s t : State} (h : stepMove m s = .next t) :
    (∃ i ∈ hostCommands, exec i s = .next t) ∨
    (Ready s ∧ t = raiseFault .illegalCmd s) ∨
    (∃ reg v, t = writeRegister reg v s) ∨
    (∃ space i v, t = writeElement space i v s) ∨
    (∃ v, t = answerRead v s) ∨
    (m = .reset ∧ t = resetBlock s) ∨
    ((∃ v, t = expandLiteral v s) ∨ ∃ v k, t = expandCopies v k s) ∨
    t = startExpander s ∨
    t = s := by
  cases m with
  | writeReg reg v =>
    simp only [stepMove] at h
    split at h
    · rw [writeCommand] at h
      split at h
      · rename_i i hd; exact .inl ⟨i, decodeCommand_ok hd, h⟩
      · rcases illegalCommand_next h with ⟨-, h⟩ | h
        · exact .inr (.inr (.inr (.inr (.inr (.inr (.inr (.inr h)))))))
        · exact .inr (.inl h)
    · rw [hostWriteReg] at h
      split at h
      · cases h
      · cases h; exact .inr (.inr (.inl ⟨reg, v, rfl⟩))
  | readReg reg =>
    simp only [stepMove, hostReadReg] at h
    split at h
    · cases h
    · cases h; exact .inr (.inr (.inr (.inr (.inl ⟨_, rfl⟩))))
  | writeElem space i v =>
    simp only [stepMove, hostWriteElem] at h
    split at h
    · cases h
    · cases h; exact .inr (.inr (.inr (.inl ⟨space, i, v, rfl⟩)))
  | readElem space i =>
    simp only [stepMove, hostReadElem] at h
    split at h
    · cases h
    · cases h; exact .inr (.inr (.inr (.inr (.inl ⟨_, rfl⟩))))
  | busWrite addr data => cases h; exact .inr (.inr (.inr (.inr (.inr (.inr (.inr (.inr rfl)))))))
  | busRead addr size => cases h; exact .inr (.inr (.inr (.inr (.inr (.inr (.inr (.inr rfl)))))))
  | reset => cases h; exact .inr (.inr (.inr (.inr (.inr (.inl ⟨rfl, rfl⟩)))))
  | token w =>
    simp only [stepMove, presentToken] at h
    split at h
    · rename_i i hd; exact .inr (.inr (.inr (.inr (.inr (.inr (.inl (exec_token_next hd h)))))))
    · cases h
  | startExpander => cases h; exact .inr (.inr (.inr (.inr (.inr (.inr (.inr (.inl rfl)))))))

/-- A bus move is never a reset. -/
theorem resolveMove_reset {p : Config.Params} {move : HostMove} (h : resolveMove p move = some .reset) : move = .reset := by
  cases move with
  | busWrite addr data => simp only [resolveMove] at h; split at h <;> simp at h
  | busRead addr size => simp only [resolveMove] at h; split at h <;> simp at h
  | reset => rfl
  | writeReg reg v => simp [resolveMove] at h
  | readReg reg => simp [resolveMove] at h
  | writeElem space i v => simp [resolveMove] at h
  | readElem space i => simp [resolveMove] at h
  | token w => simp [resolveMove] at h
  | startExpander => simp [resolveMove] at h

/-- Everything a step can do when it answers a next state: nothing, one transaction, one command, one fault entry, one reset, or one
turn of the reference expander; `u` is the state without the move. -/
theorem step_next {s t : State} (h : step s = .next t) :
    t = s ∨ ∃ move rest, s.host = move :: rest ∧ ∃ u, u = { s with host := rest } ∧
      ((∃ i ∈ hostCommands, exec i u = .next t) ∨
       (Ready u ∧ t = raiseFault .illegalCmd u) ∨
       (∃ reg v, t = writeRegister reg v u) ∨
       (∃ space i v, t = writeElement space i v u) ∨
       (∃ v, t = answerRead v u) ∨
       (move = .reset ∧ t = resetBlock u) ∨
       ((∃ v, t = expandLiteral v u) ∨ ∃ v k, t = expandCopies v k u) ∨
       t = startExpander u ∨
       t = u) := by
  cases hh : s.host with
  | nil => rw [step_nil hh] at h; cases h; exact .inl rfl
  | cons move rest =>
    refine .inr ⟨move, rest, rfl, _, rfl, ?_⟩
    rw [step_cons hh] at h
    split at h
    · rename_i m hm
      rcases stepMove_next h with h | h | h | h | h | ⟨hr, h⟩ | h | h | h
      · exact .inl h
      · exact .inr (.inl h)
      · exact .inr (.inr (.inl h))
      · exact .inr (.inr (.inr (.inl h)))
      · exact .inr (.inr (.inr (.inr (.inl h))))
      · exact .inr (.inr (.inr (.inr (.inr (.inl ⟨resolveMove_reset (hr ▸ hm), h⟩)))))
      · exact .inr (.inr (.inr (.inr (.inr (.inr (.inl h))))))
      · exact .inr (.inr (.inr (.inr (.inr (.inr (.inr (.inl h)))))))
      · exact .inr (.inr (.inr (.inr (.inr (.inr (.inr (.inr h)))))))
    · cases h; exact .inr (.inr (.inr (.inr (.inr (.inr (.inr (.inr rfl)))))))

/-- A host write of an element keeps the canonical form. -/
theorem writeElement_wf {space : Space} {i : Nat} {v : Word} {s : State} (h : Memory.wf s) : Memory.wf (writeElement space i v s) := by
  unfold writeElement
  split
  · rename_i hi
    obtain ⟨h1, h2, h3, h4⟩ := h
    cases space with
    | hist => exact ⟨bufSet_wf _ hi h1, h2, h3, h4⟩
    | len => exact ⟨h1, bufSet_wf _ hi h2, h3, h4⟩
    | code => exact ⟨h1, h2, bufSet_wf _ hi h3, h4⟩
    | tok => exact ⟨h1, h2, h3, bufSet_wf _ hi h4⟩
  · exact h

theorem resetBlock_wf (s : State) : Memory.wf (resetBlock s) := ⟨empty_wf _, empty_wf _, empty_wf _, empty_wf _⟩

/-- A write of an element never takes a value away. -/
theorem writeElement_written {space : Space} {i n : Nat} {v : Word} {s : State} (h : Written s.tok n) :
    Written (writeElement space i v s).tok n := by
  unfold writeElement
  split
  · cases space with
    | hist => exact h
    | len => exact h
    | code => exact h
    | tok =>
      intro k hk
      simp only [bufGet_bufSet]
      split
      · simp
      · exact h k hk
  · exact h

end Sys2Proof.Machine
end

