-- ==== Sys2Proof/Laws/Optimizer.lean ====
section
/-! SUPPORT. OPT: the maximal runs of a list, what pass 2 marks, what pass 3 keeps, and everything the body of OPT can do. -/

namespace Sys2Proof.Machine

/-! ### Maximal runs (spec/40_optimizer.md R105, spec/43_tokenizer.md R173) -/

section runs

variable {α : Type} [DecidableEq α]

theorem cutRuns_cons_same {x : α} {xs : List α} {k : Nat} {rest : List (α × Nat)} (h : cutRuns xs = (x, k) :: rest) :
    cutRuns (x :: xs) = (x, k + 1) :: rest := by simp [cutRuns, h]

theorem cutRuns_cons_other {x y : α} {xs : List α} {k : Nat} {rest : List (α × Nat)} (h : cutRuns xs = (y, k) :: rest)
    (hxy : x ≠ y) : cutRuns (x :: xs) = (x, 1) :: (y, k) :: rest := by simp [cutRuns, h, hxy]

/-- The first run starts with the first element. -/
theorem cutRuns_cons (x : α) (xs : List α) : ∃ k rest, cutRuns (x :: xs) = (x, k + 1) :: rest := by
  rw [cutRuns]
  split
  · exact ⟨0, [], rfl⟩
  · rename_i y k rest _
    split
    · rename_i h; subst h; exact ⟨k, rest, rfl⟩
    · exact ⟨0, (y, k) :: rest, rfl⟩

theorem cutRuns_eq_nil {l : List α} : cutRuns l = [] ↔ l = [] := by
  cases l with
  | nil => simp [cutRuns]
  | cons x xs =>
    obtain ⟨k, rest, h⟩ := cutRuns_cons x xs
    simp [h]

/-- The runs laid out again are the list. -/
theorem cutRuns_flatten (l : List α) : (cutRuns l).flatMap (fun r => List.replicate r.2 r.1) = l := by
  induction l with
  | nil => rfl
  | cons x xs ih =>
    rw [cutRuns]
    split
    · rename_i h; rw [h] at ih; simp at ih; simp [← ih]
    · rename_i y k rest h
      rw [h] at ih
      split
      · rename_i hxy; subst hxy
        simp only [List.flatMap_cons] at ih ⊢
        rw [List.replicate_succ, List.cons_append, ih]
      · simp only [List.flatMap_cons] at ih ⊢
        rw [ih]; rfl

/-- Every run has an element. -/
theorem cutRuns_pos {l : List α} : ∀ r ∈ cutRuns l, 1 ≤ r.2 := by
  induction l with
  | nil => simp [cutRuns]
  | cons x xs ih =>
    rw [cutRuns]
    split
    · simp
    · rename_i y k rest h
      rw [h] at ih
      split
      · intro r hr
        rcases List.mem_cons.1 hr with rfl | hr
        · simp
        · exact ih r (by simp [hr])
      · intro r hr
        rcases List.mem_cons.1 hr with rfl | hr
        · simp
        · exact ih r hr

/-- The values of the runs are values of the list. -/
theorem cutRuns_mem {l : List α} {r : α × Nat} (h : r ∈ cutRuns l) : r.1 ∈ l := by
  have hp := cutRuns_pos r h
  rw [← cutRuns_flatten l, List.mem_flatMap]
  exact ⟨r, h, List.mem_replicate.2 ⟨by omega, rfl⟩⟩

theorem cutRuns_replicate_append (k : Nat) (v : α) (q : List α) (hq : q.head? ≠ some v) :
    cutRuns (List.replicate (k + 1) v ++ q) = (v, k + 1) :: cutRuns q := by
  induction k with
  | zero =>
    cases q with
    | nil => simp [cutRuns]
    | cons y ys =>
      obtain ⟨j, rest, h⟩ := cutRuns_cons y ys
      have : v ≠ y := by rintro rfl; simp at hq
      rw [h]
      exact cutRuns_cons_other h this
  | succ k ih =>
    rw [List.replicate_succ, List.cons_append, cutRuns_cons_same ih]

/-- A maximal run is one of the runs, and the runs before and after it are those of what stands before and after. -/
theorem cutRuns_split (p q : List α) (k : Nat) (v : α) (hp : p.getLast? ≠ some v) (hq : q.head? ≠ some v) :
    cutRuns (p ++ (List.replicate (k + 1) v ++ q)) = cutRuns p ++ (v, k + 1) :: cutRuns q := by
  induction p with
  | nil => simpa [cutRuns] using cutRuns_replicate_append k v q hq
  | cons x xs ih =>
    cases xs with
    | nil =>
      have : x ≠ v := by rintro rfl; simp at hp
      rw [List.cons_append, List.nil_append, cutRuns_cons_other (cutRuns_replicate_append k v q hq) this]
      simp [cutRuns]
    | cons y ys =>
      have ih' := ih (by simpa using hp)
      obtain ⟨j, rest, h⟩ := cutRuns_cons y ys
      rw [h, List.cons_append, List.cons_append] at ih'
      rw [List.cons_append, List.cons_append]
      by_cases hxy : x = y
      · subst hxy
        rw [cutRuns_cons_same ih', cutRuns_cons_same h]; rfl
      · rw [cutRuns_cons_other ih' hxy, cutRuns_cons_other h hxy]; rfl

/-- Two runs next to each other have different values. -/
theorem cutRuns_adjacent (l : List α) : (cutRuns l).IsChain (fun r s => r.1 ≠ s.1) := by
  induction l with
  | nil => simp [cutRuns]
  | cons x xs ih =>
    rw [cutRuns]
    split
    · simp
    · rename_i y k rest h
      rw [h] at ih
      split
      · cases rest with
        | nil => simp
        | cons r rest => simpa using ih
      · rename_i hxy
        rw [List.isChain_cons_cons]
        exact ⟨hxy, ih⟩

end runs

/-! ### Pass 2 -/

theorem goodMarks_length (h : List Nat) : (goodMarks h).length = h.length := by
  have := congrArg List.length (cutRuns_flatten h)
  simp only [List.length_flatMap, List.length_replicate] at this
  simp [goodMarks, List.length_flatMap, this]

theorem goodMarks_split (p q : List Nat) (k v : Nat) (hp : p.getLast? ≠ some v) (hq : q.head? ≠ some v) :
    goodMarks (p ++ (List.replicate (k + 1) v ++ q)) =
      goodMarks p ++ (List.replicate (k + 1) (goodRun v (k + 1)) ++ goodMarks q) := by
  rw [goodMarks, cutRuns_split p q k v hp hq]
  simp [goodMarks]

/-! ### Pass 3 -/

theorem collapseStride_length (stride : List Nat) : (collapseStride stride).length = stride.length := by
  rw [collapseStride]; split <;> simp

theorem collapseFrom_length (rest : List (Nat × Bool)) (prevGood : Bool) (stride : List Nat) (limit : Nat) :
    (collapseFrom rest prevGood stride limit).length = stride.length + rest.length := by
  induction rest generalizing prevGood stride limit with
  | nil => simp [collapseFrom, collapseStride_length]
  | cons p rest ih =>
    obtain ⟨v, g⟩ := p
    rw [collapseFrom]
    split
    · simp [ih, collapseStride_length]; omega
    · simp [ih]; omega

/-- OPT never changes the length (R112 (a)). -/
theorem optimizeCounts_length (h : List Nat) : (optimizeCounts h).length = h.length := by
  rw [optimizeCounts, collapseFrom_length, List.length_zip, goodMarks_length]; simp

/-- The rounded mean of at least one number is at most some of them. -/
theorem exists_ge_average {l : List Nat} (h : l ≠ []) : ∃ y ∈ l, l.sum ≤ y * l.length := by
  induction l with
  | nil => exact absurd rfl h
  | cons a as ih =>
    by_cases has : as = []
    · subst has; exact ⟨a, by simp, by simp⟩
    · obtain ⟨y, hy, hs⟩ := ih has
      by_cases hay : y ≤ a
      · refine ⟨a, by simp, ?_⟩
        have : y * as.length ≤ a * as.length := Nat.mul_le_mul_right _ hay
        simp only [List.sum_cons, List.length_cons, Nat.mul_add, Nat.mul_one]; omega
      · refine ⟨y, by simp [hy], ?_⟩
        simp only [List.sum_cons, List.length_cons, Nat.mul_add, Nat.mul_one]; omega

/-- A collapsed stride holds no value above its largest (R112 (e)). -/
theorem collapseStride_le {stride : List Nat} : ∀ x ∈ collapseStride stride, ∃ y ∈ stride, x ≤ y := by
  rw [collapseStride]
  split
  · rename_i h
    intro x hx
    have hx := List.eq_of_mem_replicate hx
    have hlen : 3 ≤ stride.length := by omega
    have hne : stride ≠ [] := by rintro rfl; simp at hlen
    subst hx
    rw [collapseCount]
    split
    · obtain ⟨y, hy⟩ := List.exists_mem_of_ne_nil _ hne
      exact ⟨y, hy, Nat.zero_le _⟩
    · rename_i hs
      obtain ⟨y, hy, hle⟩ := exists_ge_average hne
      refine ⟨y, hy, ?_⟩
      have hy1 : 1 ≤ y := by
        by_contra hc
        have : y = 0 := by omega
        subst this; simp at hle; omega
      refine Nat.max_le.2 ⟨hy1, ?_⟩
      rw [roundedAverage]
      have : (stride.sum + stride.length / 2) / stride.length < y + 1 := by
        rw [Nat.div_lt_iff_lt_mul (by omega), Nat.add_mul]; omega
      omega
  · intro x hx; exact ⟨x, hx, le_refl _⟩

/-- A stride with a nonzero element collapses to nonzero values (R112 (c)). -/
theorem collapseStride_nonzero {stride : List Nat} {j c : Nat} (h : stride[j]? = some c) (hc : c ≠ 0) :
    ∃ c', (collapseStride stride)[j]? = some c' ∧ c' ≠ 0 := by
  obtain ⟨hj, hcj⟩ := List.getElem?_eq_some_iff.1 h
  have hs : stride.sum ≠ 0 := by
    have := List.single_le_sum (l := stride) (by simp) c (hcj ▸ List.getElem_mem hj)
    omega
  rw [collapseStride]
  split
  · refine ⟨collapseCount stride.sum stride.length, by simp [hj], ?_⟩
    rw [collapseCount, if_neg hs]; omega
  · exact ⟨c, h, hc⟩

theorem collapseFrom_nonzero {rest : List (Nat × Bool)} {prevGood : Bool} {stride : List Nat} {limit j c : Nat}
    (h : (stride ++ rest.map Prod.fst)[j]? = some c) (hc : c ≠ 0) :
    ∃ c', (collapseFrom rest prevGood stride limit)[j]? = some c' ∧ c' ≠ 0 := by
  induction rest generalizing prevGood stride limit j with
  | nil => rw [collapseFrom]; exact collapseStride_nonzero (by simpa using h) hc
  | cons p rest ih =>
    obtain ⟨v, g⟩ := p
    rw [collapseFrom]
    split
    · by_cases hj : j < stride.length
      · rw [List.getElem?_append_left hj] at h
        rw [List.getElem?_append_left (by rw [collapseStride_length]; exact hj)]
        exact collapseStride_nonzero h hc
      · rw [List.getElem?_append_right (by omega)] at h
        rw [List.getElem?_append_right (by rw [collapseStride_length]; omega), collapseStride_length]
        exact ih (by simpa using h)
    · exact ih (by simpa using h)

theorem collapseFrom_le {rest : List (Nat × Bool)} {prevGood : Bool} {stride : List Nat} {limit : Nat} :
    ∀ x ∈ collapseFrom rest prevGood stride limit, ∃ y ∈ stride ++ rest.map Prod.fst, x ≤ y := by
  induction rest generalizing prevGood stride limit with
  | nil => rw [collapseFrom]; simpa using collapseStride_le
  | cons p rest ih =>
    obtain ⟨v, g⟩ := p
    rw [collapseFrom]
    intro x hx
    split at hx
    · rcases List.mem_append.1 hx with hx | hx
      · obtain ⟨y, hy, hle⟩ := collapseStride_le x hx
        exact ⟨y, by simp [hy], hle⟩
      · obtain ⟨y, hy, hle⟩ := ih x hx
        refine ⟨y, ?_, hle⟩
        simp only [List.mem_append, List.map_cons, List.mem_cons, List.not_mem_nil, or_false] at hy ⊢
        tauto
    · obtain ⟨y, hy, hle⟩ := ih x hx
      refine ⟨y, ?_, hle⟩
      simp only [List.mem_append, List.map_cons, List.mem_cons, List.not_mem_nil, or_false] at hy ⊢
      tauto

theorem collapseStride_short {stride : List Nat} (h : stride.length ≤ 2) : collapseStride stride = stride := by
  rw [collapseStride, if_neg (by omega)]

/-- A good element sits in a stride of length 1 (R109), so it is never rewritten: `stride` holds one element when the element before
was good. -/
theorem collapseFrom_good {rest : List (Nat × Bool)} {prevGood : Bool} {stride : List Nat} {limit j : Nat}
    (hg : prevGood = true → stride.length ≤ 1)
    (h : j < stride.length ∧ prevGood = true ∨ stride.length ≤ j ∧ (rest.map Prod.snd)[j - stride.length]? = some true) :
    (collapseFrom rest prevGood stride limit)[j]? = (stride ++ rest.map Prod.fst)[j]? := by
  induction rest generalizing prevGood stride limit j with
  | nil =>
    rw [collapseFrom]
    rcases h with ⟨h1, h2⟩ | ⟨h1, h2⟩
    · rw [collapseStride_short (by have := hg h2; omega)]; simp
    · simp at h2
  | cons p rest ih =>
    obtain ⟨v, g⟩ := p
    rw [collapseFrom]
    split
    · rename_i hflush
      by_cases hj : j < stride.length
      · rcases h with ⟨h1, h2⟩ | ⟨h1, h2⟩
        · rw [List.getElem?_append_left (by rw [collapseStride_length]; exact hj), List.getElem?_append_left hj,
            collapseStride_short (by have := hg h2; omega)]
        · omega
      · have h2 : (((v, g) :: rest).map Prod.snd)[j - stride.length]? = some true := by
          rcases h with h | h
          · omega
          · exact h.2
        rw [List.getElem?_append_right (by rw [collapseStride_length]; omega), List.getElem?_append_right (by omega),
          collapseStride_length, ih (by simp)]
        · simp
        · by_cases hj0 : j - stride.length = 0
          · rw [hj0] at h2 ⊢; simp at h2; exact .inl ⟨by simp, h2⟩
          · refine .inr ⟨by simp; omega, ?_⟩
            rw [show j - stride.length = (j - stride.length - 1) + 1 by omega] at h2
            simpa using h2
    · rename_i hjoin
      simp only [Bool.or_eq_true, not_or, Bool.not_eq_true] at hjoin
      obtain ⟨⟨hgf, hpf⟩, -⟩ := hjoin
      rw [ih (by rw [hgf]; simp)]
      · simp
      · rcases h with ⟨h1, h2⟩ | ⟨h1, h2⟩
        · rw [hpf] at h2; cases h2
        · refine .inr ?_
          have hj0 : j - stride.length ≠ 0 := by
            intro hj0
            rw [hj0] at h2; simp [hgf] at h2
          refine ⟨by simp; omega, ?_⟩
          rw [show j - stride.length = (j - stride.length - 1) + 1 by omega] at h2
          simp only [List.map_cons, List.getElem?_cons_succ] at h2
          rw [List.length_append, List.length_singleton, ← h2]; congr 1

theorem zip_goodMarks_fst (h : List Nat) : (h.zip (goodMarks h)).map Prod.fst = h := by
  rw [List.map_fst_zip]; rw [goodMarks_length]

theorem zip_goodMarks_snd (h : List Nat) : (h.zip (goodMarks h)).map Prod.snd = goodMarks h := by
  rw [List.map_snd_zip]; rw [goodMarks_length]

theorem optimizeCounts_nonzero {h : List Nat} {j c : Nat} (hj : h[j]? = some c) (hc : c ≠ 0) :
    ∃ c', (optimizeCounts h)[j]? = some c' ∧ c' ≠ 0 :=
  collapseFrom_nonzero (by simpa [zip_goodMarks_fst] using hj) hc

theorem optimizeCounts_le {h : List Nat} : ∀ x ∈ optimizeCounts h, ∃ y ∈ h, x ≤ y := by
  intro x hx
  obtain ⟨y, hy, hle⟩ := collapseFrom_le x hx
  exact ⟨y, by simpa [zip_goodMarks_fst] using hy, hle⟩

theorem optimizeCounts_good {h : List Nat} {j : Nat} (hg : (goodMarks h)[j]? = some true) :
    (optimizeCounts h)[j]? = h[j]? := by
  rw [optimizeCounts, collapseFrom_good (by simp) (.inr ⟨by simp, by simpa [zip_goodMarks_snd] using hg⟩)]
  simp [zip_goodMarks_fst]

theorem optimizeCounts_lt {h : List Nat} {m : Nat} (hm : ∀ x ∈ h, x < m) : ∀ x ∈ optimizeCounts h, x < m := by
  intro x hx
  obtain ⟨y, hy, hle⟩ := optimizeCounts_le x hx
  exact lt_of_le_of_lt hle (hm y hy)

/-! ### The command -/

theorem trimmedLength_ok {hist : Buf 32} {n l : Nat} (h : trimmedLength hist n = .ok l) :
    l ≤ n ∧ (∀ j, l ≤ j → j < n → bufGet j hist = some 0) ∧ (l = 0 ∨ ∃ v, v ≠ 0 ∧ bufGet (l - 1) hist = some v) := by
  induction n with
  | zero => cases h; exact ⟨le_refl _, fun j h1 h2 => by omega, .inl rfl⟩
  | succ n ih =>
    rw [trimmedLength] at h
    split at h
    · cases h
    · rename_i v hv
      split at h
      · rename_i hv0
        obtain ⟨h1, h2, h3⟩ := ih h
        refine ⟨by omega, fun j hj1 hj2 => ?_, h3⟩
        by_cases hj : j = n
        · subst hj; rw [hv, hv0]
        · exact h2 j hj1 (by omega)
      · rename_i hv0
        cases h
        exact ⟨le_refl _, fun j h1 h2 => by omega, .inr ⟨v, hv0, hv⟩⟩

theorem trimmedLength_error {hist : Buf 32} {n i : Nat} (h : trimmedLength hist n = .error i) :
    i < n ∧ bufGet i hist = none ∧ ∀ j, i < j → j < n → bufGet j hist = some 0 := by
  induction n with
  | zero => cases h
  | succ n ih =>
    rw [trimmedLength] at h
    split at h
    · rename_i hv; cases h; exact ⟨by omega, hv, fun j h1 h2 => by omega⟩
    · rename_i v hv
      split at h
      · rename_i hv0
        obtain ⟨h1, h2, h3⟩ := ih h
        refine ⟨by omega, h2, fun j hj1 hj2 => ?_⟩
        by_cases hj : j = n
        · subst hj; rw [hv, hv0]
        · exact h3 j hj1 (by omega)
      · cases h

/-- The trimmed length is the one length that R102 describes. -/
theorem trimmedLength_eq {hist : Buf 32} {n l : Nat} (hl : l ≤ n) (hz : ∀ j, l ≤ j → j < n → bufGet j hist = some 0)
    (hp : l = 0 ∨ ∃ v, v ≠ 0 ∧ bufGet (l - 1) hist = some v) : trimmedLength hist n = .ok l := by
  induction n with
  | zero => rw [show l = 0 by omega]; rfl
  | succ n ih =>
    rw [trimmedLength]
    by_cases h : l = n + 1
    · subst h
      rcases hp with hp | ⟨v, hv, hp⟩
      · omega
      · rw [Nat.add_sub_cancel] at hp
        simp only [hp]
        rw [if_neg hv]
    · rw [hz n (by omega) (by omega)]
      simpa using ih (by omega) (fun j h1 h2 => hz j h1 (by omega))

/-- The trimmed length read off the elements. -/
theorem trimmedLength_of_isTrimmed {hist : Buf 32} {n l : Nat} (hw : Written hist n)
    (h : IsTrimmedLength (elements hist n) l) : trimmedLength hist n = .ok l := by
  obtain ⟨h1, h2, h3⟩ := h
  rw [elements_length] at h1 h2
  refine trimmedLength_eq h1 (fun j hj1 hj2 => ?_) ?_
  · obtain ⟨v, hv⟩ := Option.ne_none_iff_exists'.1 (hw j hj2)
    have := h2 j hj2 hj1
    rw [elements_getD hj2 hv] at this
    rw [hv, BitVec.eq_of_toNat_eq (x := v) (y := 0) this]
  · rcases Nat.eq_zero_or_pos l with hl | hl
    · exact .inl hl
    · rcases h3 with h3 | h3
      · exact .inl h3
      · obtain ⟨v, hv⟩ := Option.ne_none_iff_exists'.1 (hw (l - 1) (by omega))
        rw [elements_getD (by omega) hv] at h3
        exact .inr ⟨v, fun h0 => h3 (by rw [h0]; rfl), hv⟩

/-- Every written histogram has a trimmed length. -/
theorem exists_trimmedLength {hist : Buf 32} {n : Nat} (hw : Written hist n) : ∃ l, trimmedLength hist n = .ok l := by
  cases h : trimmedLength hist n with
  | ok l => exact ⟨l, rfl⟩
  | error i =>
    obtain ⟨h1, h2, -⟩ := trimmedLength_error h
    exact absurd h2 (hw i h1)

/-- HIST with the counts `h` of `HIST[0 .. L-1]` optimized. -/
abbrev optimizedHist (l : Nat) (b : Buf 32) : Buf 32 :=
  bufSetFrom 0 ((optimizeCounts (elements b l)).map (BitVec.ofNat 32)) b

/-- Everything the body of OPT can do (R100 to R104). -/
theorem runOpt_cases (n : Nat) (s : State) :
    (∃ i, i < n ∧ bufGet i s.hist = none ∧ runOpt n s = .refused (.unwrittenElement .hist i)) ∨
    (runOpt n s = .success true s ∧ ∀ i < n, bufGet i s.hist = some 0) ∨
    (∃ l, trimmedLength s.hist n = .ok l ∧ l ≠ 0 ∧ s.params.scratchBits < l ∧ runOpt n s = .fail .alloc s) ∨
    (∃ l, trimmedLength s.hist n = .ok l ∧ l ≠ 0 ∧ l ≤ s.params.scratchBits ∧ Written s.hist n ∧
      runOpt n s = .success false { s with hist := optimizedHist l s.hist }) := by
  rw [runOpt]
  cases ht : trimmedLength s.hist n with
  | error i =>
    obtain ⟨h1, h2, -⟩ := trimmedLength_error ht
    exact .inl ⟨i, h1, h2, rfl⟩
  | ok l =>
    obtain ⟨h1, h2, -⟩ := trimmedLength_ok ht
    cases l with
    | zero => exact .inr (.inl ⟨rfl, fun i hi => h2 i (by omega) hi⟩)
    | succ l =>
      simp only
      by_cases hs : s.params.scratchBits < l + 1
      · rw [if_pos hs]; exact .inr (.inr (.inl ⟨l + 1, rfl, by omega, hs, rfl⟩))
      · rw [if_neg hs]
        cases hr : bufRead s.hist 0 (l + 1) with
        | error i =>
          obtain ⟨-, h4, h5, -⟩ := bufRead_error_iff.1 hr
          exact .inl ⟨i, by omega, h5, rfl⟩
        | ok h =>
          obtain ⟨-, h4, h5⟩ := bufRead_zero_ok hr
          refine .inr (.inr (.inr ⟨l + 1, rfl, by omega, by omega, fun i hi => ?_, by simp only [optimizedHist, h5]⟩))
          by_cases hil : i < l + 1
          · exact h4 i hil
          · rw [h2 i (by omega) hi]; simp

theorem runOpt_allZero {n : Nat} {s : State} (h : ∀ i < n, bufGet i s.hist = some 0) : runOpt n s = .success true s := by
  rw [runOpt, trimmedLength_eq (l := 0) (by omega) (fun j _ hj => h j hj) (.inl rfl)]

theorem runOpt_alloc {n l : Nat} {s : State} (ht : trimmedLength s.hist n = .ok l) (h : s.params.scratchBits < l) :
    runOpt n s = .fail .alloc s := by
  rw [runOpt, ht]
  cases l with
  | zero => omega
  | succ l => simp only [if_pos h]

theorem runOpt_success {n l : Nat} {s : State} (ht : trimmedLength s.hist n = .ok l) (hl : l ≠ 0)
    (hs : l ≤ s.params.scratchBits) (hw : Written s.hist n) :
    runOpt n s = .success false { s with hist := optimizedHist l s.hist } := by
  rcases runOpt_cases n s with ⟨i, h1, h2, -⟩ | ⟨-, h2⟩ | ⟨l', h1, -, h3, -⟩ | ⟨l', h1, -, -, -, h5⟩
  · exact absurd h2 (hw i h1)
  · obtain ⟨hle, -, h0 | ⟨v, hv, hg⟩⟩ := trimmedLength_ok ht
    · exact absurd h0 hl
    · rw [h2 (l - 1) (by omega)] at hg
      exact absurd (Option.some.inj hg).symm hv
  · rw [ht] at h1; cases h1; omega
  · rw [ht] at h1; cases h1; exact h5

/-- What HIST holds after the collapse: the optimized counts below `L`, everything else as before. -/
theorem optimizedHist_get (l k : Nat) (b : Buf 32) (h : l ≤ k) : bufGet k (optimizedHist l b) = bufGet k b :=
  bufGet_bufSetFrom_outside _ _ (.inr (by simp [optimizeCounts_length]; exact h))

theorem optimizedHist_elements (l : Nat) (b : Buf 32) : elements (optimizedHist l b) l = optimizeCounts (elements b l) := by
  have := elements_bufSetFrom (b := b) (ds := optimizeCounts (elements b l)) (optimizeCounts_lt (elements_lt b l))
  rwa [optimizeCounts_length, elements_length] at this

theorem optimizedHist_written {l n : Nat} {b : Buf 32} (h : ∀ i, l ≤ i → i < n → bufGet i b ≠ none) :
    Written (optimizedHist l b) n := by
  intro i hi
  by_cases hl : i < l
  · rw [bufGet_bufSetFrom_zero _ _ (by simpa [optimizeCounts_length] using hl)]; simp
  · rw [optimizedHist_get l i b (by omega)]; exact h i (by omega) hi

end Sys2Proof.Machine
end

