-- ==== Sys2Proof/Laws/Tokenizer.lean ====
section
/-! SUPPORT. TOKENIZE: the tokens of a run, what they stand for, what `emit` after `emit` writes, and everything the body of TOKENIZE can
do. -/

namespace Sys2Proof.Machine

/-! ### The loops of R176 and R179 without their fuel -/

theorem zeroRunLoop_fuel {f g r : Nat} (hf : r ≤ f) (hg : r ≤ g) : zeroRunLoop f r = zeroRunLoop g r := by
  induction f generalizing g r with
  | zero =>
    obtain rfl : r = 0 := by omega
    cases g <;> simp [zeroRunLoop]
  | succ f ih =>
    cases g with
    | zero =>
      obtain rfl : r = 0 := by omega
      simp [zeroRunLoop]
    | succ g =>
      rw [zeroRunLoop, zeroRunLoop]
      by_cases h : r < 139
      · simp only [if_pos h]
      · rw [ih (g := g) (r := r - 138) (by omega) (by omega)]

/-- A zero run that is coded by its own size class (R176). -/
theorem zeroRun_short {r : Nat} (h : r < 139) :
    zeroRun r = if r < 3 then List.replicate r ⟨0, 0⟩ else if r < 11 then [⟨17, r - 3⟩] else [⟨18, r - 11⟩] := by
  cases r with
  | zero => rfl
  | succ r =>
    rw [zeroRun, zeroRunLoop, if_neg (by omega), if_pos h]

/-- A longer zero run starts with a full chunk of 138 (R176). -/
theorem zeroRun_long {r : Nat} (h : 139 ≤ r) : zeroRun r = ⟨18, 0x7f⟩ :: zeroRun (r - 138) := by
  obtain ⟨r, rfl⟩ : ∃ k, r = k + 1 := ⟨r - 1, by omega⟩
  rw [zeroRun, zeroRunLoop, if_neg (by omega), if_neg (by omega), if_neg (by omega), if_neg (by omega), zeroRun,
    zeroRunLoop_fuel (g := r + 1 - 138) (by omega) (le_refl _)]

theorem repeatRunLoop_fuel {v f g r : Nat} (hf : r ≤ f) (hg : r ≤ g) : repeatRunLoop v f r = repeatRunLoop v g r := by
  induction f generalizing g r with
  | zero =>
    obtain rfl : r = 0 := by omega
    cases g <;> simp [repeatRunLoop]
  | succ f ih =>
    cases g with
    | zero =>
      obtain rfl : r = 0 := by omega
      simp [repeatRunLoop]
    | succ g =>
      rw [repeatRunLoop, repeatRunLoop]
      by_cases h : r < 7
      · simp only [if_pos h]
      · rw [ih (g := g) (r := r - 6) (by omega) (by omega)]

/-- Repetitions that are coded by their own size class (R179). -/
theorem repeatRun_short {r : Nat} (v : Nat) (h : r < 7) :
    repeatRun r v = if r < 3 then List.replicate r ⟨v, 0⟩ else [⟨16, r - 3⟩] := by
  cases r with
  | zero => rfl
  | succ r =>
    rw [repeatRun, repeatRunLoop, if_neg (by omega), if_pos h]

/-- More repetitions start with a full chunk of 6 (R179). -/
theorem repeatRun_long {r : Nat} (v : Nat) (h : 7 ≤ r) : repeatRun r v = ⟨16, 3⟩ :: repeatRun (r - 6) v := by
  obtain ⟨r, rfl⟩ : ∃ k, r = k + 1 := ⟨r - 1, by omega⟩
  rw [repeatRun, repeatRunLoop, if_neg (by omega), if_neg (by omega), if_neg (by omega), repeatRun,
    repeatRunLoop_fuel (g := r + 1 - 6) (by omega) (le_refl _)]

/-- Induction over a zero run, chunk by chunk. -/
theorem zeroRun_induction {P : Nat → Prop} (short : ∀ r, r < 139 → P r) (chunk : ∀ r, 139 ≤ r → P (r - 138) → P r) (r : Nat) :
    P r := by
  induction r using Nat.strong_induction_on with
  | h r ih =>
    by_cases h : r < 139
    · exact short r h
    · exact chunk r (by omega) (ih _ (by omega))

/-- Induction over repetitions, chunk by chunk. -/
theorem repeatRun_induction {P : Nat → Prop} (short : ∀ r, r < 7 → P r) (chunk : ∀ r, 7 ≤ r → P (r - 6) → P r) (r : Nat) :
    P r := by
  induction r using Nat.strong_induction_on with
  | h r ih =>
    by_cases h : r < 7
    · exact short r h
    · exact chunk r (by omega) (ih _ (by omega))

/-! ### Every emitted token is a legal one (R84) -/

theorem zeroRun_legal (r : Nat) : ∀ x ∈ zeroRun r, legalToken x.code x.extra := by
  induction r using zeroRun_induction with
  | short r h =>
    rw [zeroRun_short h]
    intro x hx
    split at hx
    · have := List.eq_of_mem_replicate hx; subst this; exact .inl ⟨by simp, rfl⟩
    · split at hx
      · simp at hx; subst hx; exact .inr (.inr (.inl ⟨rfl, by simp; omega⟩))
      · simp at hx; subst hx; exact .inr (.inr (.inr ⟨rfl, by simp; omega⟩))
  | chunk r h ih =>
    rw [zeroRun_long h]
    intro x hx
    rcases List.mem_cons.1 hx with rfl | hx
    · exact .inr (.inr (.inr ⟨rfl, by simp⟩))
    · exact ih x hx

theorem repeatRun_legal (r : Nat) {v : Nat} (hv : v ≤ 15) : ∀ x ∈ repeatRun r v, legalToken x.code x.extra := by
  induction r using repeatRun_induction with
  | short r h =>
    rw [repeatRun_short v h]
    intro x hx
    split at hx
    · have := List.eq_of_mem_replicate hx; subst this; exact .inl ⟨hv, rfl⟩
    · simp at hx; subst hx; exact .inr (.inl ⟨rfl, by simp; omega⟩)
  | chunk r h ih =>
    rw [repeatRun_long v h]
    intro x hx
    rcases List.mem_cons.1 hx with rfl | hx
    · exact .inr (.inl ⟨rfl, by simp⟩)
    · exact ih x hx

theorem runTokens_legal (prev : Nat) (runs : List (Nat × Nat)) (h : ∀ r ∈ runs, r.1 ≤ 15) :
    ∀ x ∈ runTokens prev runs, legalToken x.code x.extra := by
  induction runs generalizing prev with
  | nil => simp [runTokens]
  | cons p rest ih =>
    obtain ⟨v, r⟩ := p
    have hv : v ≤ 15 := h (v, r) (by simp)
    have hr : ∀ r ∈ rest, r.1 ≤ 15 := fun q hq => h q (by simp [hq])
    rw [runTokens]
    intro x hx
    split at hx
    · rcases List.mem_append.1 hx with hx | hx
      · exact zeroRun_legal r x hx
      · exact ih prev hr x hx
    · rcases List.mem_append.1 hx with hx | hx
      · rw [valueRun] at hx
        split at hx
        · rcases List.mem_cons.1 hx with rfl | hx
          · exact .inl ⟨hv, rfl⟩
          · exact repeatRun_legal _ hv x hx
        · exact repeatRun_legal _ hv x hx
      · exact ih v hr x hx

theorem encodeLengths_legal {lens : List Nat} (h : ∀ l ∈ lens, l ≤ 15) : ∀ x ∈ encodeLengths lens, legalToken x.code x.extra :=
  runTokens_legal _ _ fun _ hr => h _ (cutRuns_mem hr)

/-! ### What the tokens stand for (R186) -/

theorem expandTokens_append (prev : Nat) (xs ys : List Token) :
    expandTokens prev (xs ++ ys) =
      ((expandTokens prev xs).1 ++ (expandTokens (expandTokens prev xs).2 ys).1, (expandTokens (expandTokens prev xs).2 ys).2) := by
  induction xs generalizing prev with
  | nil => rfl
  | cons x xs ih =>
    simp only [List.cons_append, expandTokens]
    split
    · simp [ih]
    · simp [ih]

theorem expandTokens_zrepl (prev e : Nat) (xs : List Token) :
    expandTokens prev (⟨18, e⟩ :: xs) = (List.replicate (e + 11) 0 ++ (expandTokens prev xs).1, (expandTokens prev xs).2) := by
  simp [expandTokens]

theorem expandTokens_rep (prev e : Nat) (xs : List Token) :
    expandTokens prev (⟨16, e⟩ :: xs) = (List.replicate (e + 3) prev ++ (expandTokens prev xs).1, (expandTokens prev xs).2) := by
  simp [expandTokens]

theorem expandTokens_zeroRun (prev r : Nat) : expandTokens prev (zeroRun r) = (List.replicate r 0, prev) := by
  induction r using zeroRun_induction with
  | short r h =>
    rw [zeroRun_short h]
    split
    · rename_i h3
      interval_cases r <;> simp [expandTokens, List.replicate]
    · split
      · simp [expandTokens, show r - 3 + 3 = r by omega]
      · simp [expandTokens, show r - 11 + 11 = r by omega]
  | chunk r h ih =>
    rw [zeroRun_long h]
    have hr : List.replicate r (0 : Nat) = List.replicate 138 0 ++ List.replicate (r - 138) 0 := by
      rw [List.replicate_append_replicate, show 138 + (r - 138) = r by omega]
    rw [expandTokens_zrepl, ih, hr]

theorem expandTokens_repeatRun (r : Nat) {v : Nat} (h0 : v ≠ 0) (h15 : v ≤ 15) :
    expandTokens v (repeatRun r v) = (List.replicate r v, v) := by
  induction r using repeatRun_induction with
  | short r h =>
    rw [repeatRun_short v h]
    split
    · rename_i h3
      interval_cases r <;> simp [expandTokens, List.replicate, h0, h15]
    · simp [expandTokens, show r - 3 + 3 = r by omega]
  | chunk r h ih =>
    rw [repeatRun_long v h]
    have hr : List.replicate r v = List.replicate 6 v ++ List.replicate (r - 6) v := by
      rw [List.replicate_append_replicate]; congr 1; omega
    rw [expandTokens_rep, ih, hr]

theorem expandTokens_valueRun {r v prev : Nat} (hr : 1 ≤ r) (h0 : v ≠ 0) (h15 : v ≤ 15) :
    expandTokens prev (valueRun r v prev) = (List.replicate r v, v) := by
  rw [valueRun]
  split
  · simp only [expandTokens, if_pos h15, if_neg h0, expandTokens_repeatRun _ h0 h15]
    rw [← List.replicate_succ, show r - 1 + 1 = r by omega]
  · rename_i h
    have : prev = v := by by_contra hc; exact h (fun h => hc h.symm)
    rw [this]; exact expandTokens_repeatRun r h0 h15

/-- The round trip over runs: at the start of each run the expander's `prev` is the encoder's `prev_value` (R187). -/
theorem expandTokens_runTokens {prev : Nat} {runs : List (Nat × Nat)} (h15 : ∀ r ∈ runs, r.1 ≤ 15) (hpos : ∀ r ∈ runs, 1 ≤ r.2) :
    (expandTokens prev (runTokens prev runs)).1 = runs.flatMap fun r => List.replicate r.2 r.1 := by
  induction runs generalizing prev with
  | nil => rfl
  | cons p rest ih =>
    obtain ⟨v, r⟩ := p
    have hv := h15 (v, r) (by simp)
    have hr := hpos (v, r) (by simp)
    have ih' := fun prev => ih (prev := prev) (fun q hq => h15 q (by simp [hq])) (fun q hq => hpos q (by simp [hq]))
    rw [runTokens]
    split
    · rename_i h0; subst h0
      rw [expandTokens_append, expandTokens_zeroRun, ih']; rfl
    · rename_i h0
      rw [expandTokens_append, expandTokens_valueRun hr h0 hv, ih']; rfl

theorem expandTokens_encodeLengths {lens : List Nat} (h : ∀ l ∈ lens, l ≤ 15) :
    (expandTokens 8 (encodeLengths lens)).1 = lens := by
  have := expandTokens_runTokens (prev := 8) (runs := cutRuns lens) (fun r hr => h _ (cutRuns_mem hr)) (cutRuns_pos)
  rw [cutRuns_flatten] at this
  exact this

theorem tokenSpan_pos (x : Token) : 1 ≤ tokenSpan x := by rw [tokenSpan]; split <;> [omega; split <;> omega]

theorem zeroRun_span (r : Nat) : ((zeroRun r).map tokenSpan).sum = r := by
  induction r using zeroRun_induction with
  | short r h =>
    rw [zeroRun_short h]
    split
    · simp [tokenSpan]
    · split <;> simp [tokenSpan] <;> omega
  | chunk r h ih => rw [zeroRun_long h, List.map_cons, List.sum_cons, ih]; simp [tokenSpan]; omega

theorem repeatRun_span (r : Nat) {v : Nat} (hv : v < 16) : ((repeatRun r v).map tokenSpan).sum = r := by
  induction r using repeatRun_induction with
  | short r h =>
    rw [repeatRun_short v h]
    split
    · simp [tokenSpan, hv]
    · simp [tokenSpan]; omega
  | chunk r h ih => rw [repeatRun_long v h, List.map_cons, List.sum_cons, ih]; simp [tokenSpan]; omega

/-- The tokens of runs stand for exactly the elements of the runs (R183). -/
theorem runTokens_span {prev : Nat} {runs : List (Nat × Nat)} (h : ∀ r ∈ runs, r.1 < 16) (hpos : ∀ r ∈ runs, 1 ≤ r.2) :
    ((runTokens prev runs).map tokenSpan).sum = (runs.map Prod.snd).sum := by
  induction runs generalizing prev with
  | nil => rfl
  | cons p rest ih =>
    obtain ⟨v, r⟩ := p
    have hv := h (v, r) (by simp)
    have hr := hpos (v, r) (by simp)
    have ih' := fun prev => ih (prev := prev) (fun q hq => h q (by simp [hq])) (fun q hq => hpos q (by simp [hq]))
    rw [runTokens]
    split
    · rw [List.map_append, List.sum_append, zeroRun_span, ih']; simp
    · rw [List.map_append, List.sum_append, ih', valueRun]
      split
      · simp only [List.map_cons, List.sum_cons, repeatRun_span _ hv]
        simp only [tokenSpan, if_pos hv]; omega
      · rw [repeatRun_span _ hv]; simp

/-- At least one element per token (R183). -/
theorem length_le_span (xs : List Token) : xs.length ≤ (xs.map tokenSpan).sum := by
  induction xs with
  | nil => simp
  | cons x xs ih => have := tokenSpan_pos x; simp only [List.length_cons, List.map_cons, List.sum_cons]; omega

theorem cutRuns_lengths {α : Type} [DecidableEq α] (l : List α) : ((cutRuns l).map Prod.snd).sum = l.length := by
  have h : (cutRuns l).map Prod.snd = (cutRuns l).map fun r => (List.replicate r.2 r.1).length := by simp
  have h2 := congrArg List.length (cutRuns_flatten l)
  rw [List.length_flatMap] at h2
  rw [h, ← h2]

theorem encodeLengths_span {lens : List Nat} (h : ∀ l ∈ lens, l ≤ 15) :
    ((encodeLengths lens).map tokenSpan).sum = lens.length := by
  rw [encodeLengths, runTokens_span (fun r hr => Nat.lt_succ_of_le (h _ (cutRuns_mem hr))) cutRuns_pos, cutRuns_lengths]

theorem encodeLengths_length_le {lens : List Nat} (h : ∀ l ∈ lens, l ≤ 15) : (encodeLengths lens).length ≤ lens.length := by
  have := length_le_span (encodeLengths lens)
  rwa [encodeLengths_span h] at this

/-- A stream has at most one token per element (R183). -/
theorem encodeLengths_elements_length_le (b : Buf 4) (n : Nat) : (encodeLengths (elements b n)).length ≤ n := by
  have h := encodeLengths_length_le (lens := elements b n) fun l hl => Nat.le_of_lt_succ (elements_lt _ _ l hl)
  rwa [elements_length] at h

/-- The round trip of R187 on lists. -/
theorem expand_encodeLengths {lens : List Nat} (h : ∀ l ∈ lens, l ≤ 15) : expand (encodeLengths lens) = lens :=
  expandTokens_encodeLengths h

/-! ### The fields of a token word (R80) -/

theorem Token.ofWord_tokenWord {code extra : Nat} (hc : code < 32) (he : extra < 128) : Token.ofWord (tokenWord code extra) = ⟨code, extra⟩ := by
  have h := tokenWord_toNat (code := code) (extra := extra) (by omega) (by omega)
  simp only [Token.ofWord, slice, h, Token.mk.injEq]
  omega

/-- A stream of legal tokens is read back from its words. -/
theorem map_ofWord_word {xs : List Token} (h : ∀ x ∈ xs, legalToken x.code x.extra) : (xs.map Token.word).map Token.ofWord = xs := by
  rw [List.map_map]
  refine (List.map_congr_left fun x hx => ?_).trans (List.map_id xs)
  have := h x hx
  unfold legalToken at this
  exact Token.ofWord_tokenWord (by omega) (by omega)

/-! ### Emission (R174) -/

/-- `emit` after `emit`: all tokens are written in ascending order when they fit; else those that fit are, and the buffer is full. -/
theorem emitAll_eq {m : Nat} (xs : List Token) {t : Nat} (tok : Buf 16) (h : t ≤ m) :
    emitAll m xs t tok =
      if t + xs.length ≤ m then .written (bufSetFrom t (xs.map Token.word) tok) (t + xs.length)
      else .full (bufSetFrom t ((xs.take (m - t)).map Token.word) tok) := by
  induction xs generalizing t tok with
  | nil => simp [emitAll, bufSetFrom, h]
  | cons x xs ih =>
    rw [emitAll]
    by_cases ht : t = m
    · subst ht; simp [bufSetFrom]
    · rw [if_neg ht, ih _ (by omega)]
      have h1 : (t + 1 + xs.length ≤ m) = (t + (x :: xs).length ≤ m) := by
        rw [List.length_cons]; apply propext; omega
      have h2 : m - t = (m - (t + 1)) + 1 := by omega
      rw [h2, List.take_succ_cons, List.map_cons, List.map_cons, bufSetFrom, bufSetFrom]
      simp only [h1]
      split
      · congr 1; rw [List.length_cons]; omega
      · rfl

/-! ### The scan -/

theorem bufPrefix_of_written {w : Nat} {b : Buf w} {i k : Nat} (h : ∀ j < k, bufGet (i + j) b ≠ none) :
    ∃ vs, bufRead b i k = .ok vs ∧ bufPrefix b i k = (vs, none) := by
  induction k generalizing i with
  | zero => exact ⟨[], rfl, rfl⟩
  | succ k ih =>
    obtain ⟨v, hv⟩ := Option.ne_none_iff_exists'.1 (h 0 (by omega))
    obtain ⟨vs, h1, h2⟩ := @ih (i + 1) (fun j hj => by
      have := h (j + 1) (by omega)
      rwa [show i + (j + 1) = i + 1 + j by omega] at this)
    rw [Nat.add_zero] at hv
    exact ⟨v :: vs, by simp [bufRead, hv, h1], by simp [bufPrefix, hv, h2]⟩

/-- A scan of written elements sees them all. -/
theorem bufPrefix_zero_of_written {w : Nat} {b : Buf w} {n : Nat} (h : Written b n) :
    ∃ vs, bufPrefix b 0 n = (vs, none) ∧ vs.map BitVec.toNat = elements b n := by
  obtain ⟨vs, h1, h2⟩ := bufPrefix_of_written (b := b) (i := 0) (k := n) (fun j hj => by rw [Nat.zero_add]; exact h j hj)
  exact ⟨vs, h2, (bufRead_zero_ok h1).2.2⟩

/-- A scan that meets an unwritten element has seen the elements before it. -/
theorem bufPrefix_of_unwritten {w : Nat} {b : Buf w} {n k : Nat} (hk : k < n) (hn : bufGet k b = none) (h : Written b k) :
    ∃ vs, bufPrefix b 0 n = (vs, some k) ∧ vs.map BitVec.toNat = elements b k := by
  suffices ∀ (d i : Nat), i + d = k → ∃ vs, bufPrefix b i (n - i) = (vs, some k) ∧ bufRead b i d = .ok vs by
    obtain ⟨vs, h1, h2⟩ := this k 0 (by omega)
    exact ⟨vs, h1, (bufRead_zero_ok h2).2.2⟩
  intro d
  induction d with
  | zero =>
    intro i hi
    have : i = k := by omega
    subst this
    rw [show n - i = (n - i - 1) + 1 by omega]
    exact ⟨[], by simp [bufPrefix, hn], rfl⟩
  | succ d ih =>
    intro i hi
    obtain ⟨v, hv⟩ := Option.ne_none_iff_exists'.1 (h i (by omega))
    obtain ⟨vs, h1, h2⟩ := ih (i + 1) (by omega)
    rw [show n - i = (n - (i + 1)) + 1 by omega]
    exact ⟨v :: vs, by simp [bufPrefix, hv, h1], by simp [bufRead, hv, h2]⟩

theorem written_or_first_unwritten {w : Nat} (b : Buf w) (n : Nat) :
    Written b n ∨ ∃ k < n, bufGet k b = none ∧ Written b k := by
  induction n with
  | zero => exact .inl (fun i hi => by omega)
  | succ n ih =>
    rcases ih with h | ⟨k, hk, h1, h2⟩
    · by_cases hn : bufGet n b = none
      · exact .inr ⟨n, by omega, hn, h⟩
      · refine .inl fun i hi => ?_
        by_cases hi' : i = n
        · rw [hi']; exact hn
        · exact h i (by omega)
    · exact .inr ⟨k, by omega, h1, h2⟩

/-! ### The command -/

/-- The stream of `LEN[0 .. n-1]`. -/
abbrev stream (n : Nat) (s : State) : List Token := encodeLengths (elements s.len n)

/-- The body of TOKENIZE on written lengths (R170, R174, R182, R184). -/
theorem runTokenize_written {n m : Nat} {s : State} (h : Written s.len n) :
    runTokenize n m s =
      if (stream n s).length ≤ m then
        .success false { s with tok := bufSetFrom 0 ((stream n s).map Token.word) s.tok, tokcnt := BitVec.ofNat 32 (stream n s).length }
      else .fault .assertTokens { s with tok := bufSetFrom 0 (((stream n s).take m).map Token.word) s.tok } := by
  obtain ⟨vs, h1, h2⟩ := bufPrefix_zero_of_written h
  rw [runTokenize]
  simp only [h1, h2, scannedRuns]
  rw [emitAll_eq _ _ (Nat.zero_le m)]
  simp only [Nat.zero_add, Nat.sub_zero]
  rw [show runTokens Config.sentinelPrev.toNat (cutRuns (elements s.len n)) = stream n s from rfl]
  by_cases hl : (stream n s).length ≤ m
  · rw [if_pos hl, if_pos hl]
  · rw [if_neg hl, if_neg hl]

/-- The body of TOKENIZE on lengths of which `LEN[k]` is the first that holds no value: refused, unless the bound is reached before. -/
theorem runTokenize_unwritten {n m k : Nat} {s : State} (hk : k < n) (hn : bufGet k s.len = none) (h : Written s.len k) :
    runTokenize n m s = .refused (.unwrittenElement .len k) ∨
    (∃ xs : List Token, runTokenize n m s =
      .fault .assertTokens { s with tok := bufSetFrom 0 ((xs.take m).map Token.word) s.tok } ∧ m < xs.length ∧ xs.length ≤ k) := by
  obtain ⟨vs, h1, h2⟩ := bufPrefix_of_unwritten hk hn h
  rw [runTokenize]
  simp only [h1, h2, scannedRuns]
  rw [emitAll_eq _ _ (Nat.zero_le m)]
  simp only [Nat.zero_add, Nat.sub_zero]
  set xs := runTokens Config.sentinelPrev.toNat (cutRuns (elements s.len k)).dropLast with hxs
  by_cases hl : xs.length ≤ m
  · rw [if_pos hl]; exact .inl rfl
  · rw [if_neg hl]
    refine .inr ⟨xs, rfl, by omega, ?_⟩
    have hsub : ∀ r ∈ (cutRuns (elements s.len k)).dropLast, r ∈ cutRuns (elements s.len k) := fun r hr =>
      List.mem_of_mem_dropLast hr
    have hlt : ∀ r ∈ cutRuns (elements s.len k), r.1 < 16 := fun r hr => elements_lt _ _ _ (cutRuns_mem hr)
    have h3 := length_le_span xs
    rw [hxs, runTokens_span (fun r hr => hlt r (hsub r hr)) (fun r hr => cutRuns_pos r (hsub r hr)), ← hxs] at h3
    have h4 := cutRuns_lengths (elements s.len k)
    rw [elements_length] at h4
    have h5 : ∀ l : List Nat, (l.dropLast).sum ≤ l.sum := by
      intro l
      induction l with
      | nil => simp
      | cons a l ih =>
        cases l with
        | nil => simp
        | cons b l => simp only [List.dropLast_cons_cons, List.sum_cons] at ih ⊢; omega
    have := h5 ((cutRuns (elements s.len k)).map Prod.snd)
    rw [← List.map_dropLast] at this
    omega

/-- Everything the body of TOKENIZE can do. -/
theorem runTokenize_cases (n m : Nat) (s : State) :
    (∃ k, k < n ∧ bufGet k s.len = none ∧ runTokenize n m s = .refused (.unwrittenElement .len k)) ∨
    (Written s.len n ∧ (stream n s).length ≤ m ∧ (stream n s).length ≤ n ∧
      runTokenize n m s = .success false
        { s with tok := bufSetFrom 0 ((stream n s).map Token.word) s.tok, tokcnt := BitVec.ofNat 32 (stream n s).length }) ∨
    (m < n ∧ ∃ xs : List Token, m < xs.length ∧
      runTokenize n m s = .fault .assertTokens { s with tok := bufSetFrom 0 ((xs.take m).map Token.word) s.tok }) := by
  rcases written_or_first_unwritten s.len n with h | ⟨k, hk, hn, h⟩
  · have hle : (stream n s).length ≤ n := encodeLengths_elements_length_le s.len n
    by_cases hl : (stream n s).length ≤ m
    · exact .inr (.inl ⟨h, hl, hle, by rw [runTokenize_written h, if_pos hl]⟩)
    · exact .inr (.inr ⟨by omega, stream n s, by omega, by rw [runTokenize_written h, if_neg hl]⟩)
  · rcases runTokenize_unwritten (m := m) hk hn h with h1 | ⟨xs, h1, h2, h3⟩
    · exact .inl ⟨k, hk, hn, h1⟩
    · exact .inr (.inr ⟨by omega, xs, h2, h1⟩)

end Sys2Proof.Machine
end

