-- ==== Sys2Proof/Laws/Commands.lean ====
section
/-! SUPPORT. Said once per command: the states it can end in (spec/60_exceptions.md R210 to R213), and that BUILDCODES never meets a
refusal of ASSIGN. -/

namespace Sys2Proof.Machine

/-- STATUS, CAUSE and PHASE after a command (R211), everything else as in `s`. -/
abbrev ended (status cause : Word) (phase : Phase) (s : State) : State :=
  { s with status := status, cause := cause, phase := phase }

/-- The two ways a command ends before its body: ignored in the FAULT state, or turned away with BAD_OPERAND. -/
abbrev TurnedAway (bad : Bool) (s t : State) : Prop :=
  (s.phase = .faulted ∧ t = s) ∨ (Ready s ∧ bad = true ∧ t = faulted .badOperand s)

theorem dlim_pos {s : State} (h : s.badD = false) : 1 ≤ s.operandD := by
  simp only [State.badD, decide_eq_false_iff_not] at h; omega

theorem dlim_le (s : State) : s.operandD ≤ 15 := by
  have := s.dlim.isLt
  simp only [State.operandD]; omega

/-- Everything OPT can do when it answers a next state. -/
theorem exec_opt_next {s t : State} (h : exec .opt s = .next t) :
    TurnedAway s.badN s t ∨
    (Ready s ∧ s.badN = false ∧
      ((t = ended 0xE 0 .idle s ∧ ∀ i < s.operandN, bufGet i s.hist = some 0) ∨
       (∃ l, trimmedLength s.hist s.operandN = .ok l ∧ s.params.scratchBits < l ∧ t = ended 0x2 1 .idle s) ∨
       (∃ l, trimmedLength s.hist s.operandN = .ok l ∧ l ≠ 0 ∧ l ≤ s.params.scratchBits ∧ Written s.hist s.operandN ∧
         t = ended 0x6 0 .idle { s with hist := optimizedHist l s.hist }))) := by
  rw [exec_opt] at h
  rcases runCommand_next h with h | h | ⟨hr, hb, h⟩
  · exact .inl (.inl h)
  · exact .inl (.inr h)
  · refine .inr ⟨hr, hb, ?_⟩
    rcases runOpt_cases s.operandN (enterPhase .opt (acceptCommand s)) with ⟨i, -, -, he⟩ | ⟨he, hz⟩ | ⟨l, ht, -, hl, he⟩ |
      ⟨l, ht, h0, hl, hw, he⟩ <;> simp only [he, reduceCtorEq, false_and, exists_false, or_false, false_or, UnitEnd.success.injEq,
        UnitEnd.fail.injEq] at h
    · obtain ⟨z, u, ⟨rfl, rfl⟩, rfl⟩ := h
      exact .inl ⟨rfl, hz⟩
    · obtain ⟨c, u, ⟨rfl, rfl⟩, rfl⟩ := h
      exact .inr (.inl ⟨l, ht, hl, rfl⟩)
    · obtain ⟨z, u, ⟨rfl, rfl⟩, rfl⟩ := h
      exact .inr (.inr ⟨l, ht, h0, hl, hw, rfl⟩)

/-- Everything BUILD can do when it answers a next state. -/
theorem exec_build_next {s t : State} (h : exec .build s = .next t) :
    TurnedAway (s.badN || s.badD) s t ∨
    (Ready s ∧ s.badN = false ∧ s.badD = false ∧ Written s.hist s.operandN ∧
      (((∀ c ∈ elements s.hist s.operandN, c = 0) ∧
         t = ended 0xE 0 .idle { writeLengths (List.replicate s.operandN 0) s with cmin := 0 }) ∨
       ((∃ c ∈ elements s.hist s.operandN, c ≠ 0) ∧
         ((2 ^ (s.operandD - 1) < (nonzeroSymbols (elements s.hist s.operandN)).length ∧ t = faulted .assertSize s) ∨
          (((nonzeroSymbols (elements s.hist s.operandN)).length ≤ 2 ^ (s.operandD - 1) ∧
              s.params.arenaNodes < arenaNeed (nonzeroSymbols (elements s.hist s.operandN)).length) ∧ t = ended 0x2 1 .idle s) ∨
          (∃ j ≤ 31, maxDepth (attemptDepths (elements s.hist s.operandN) (2 ^ j)) ≤ s.operandD ∧
            ((∀ i < j, s.operandD < maxDepth (attemptDepths (elements s.hist s.operandN) (2 ^ i))) ∧
              (nonzeroSymbols (elements s.hist s.operandN)).length ≤ 2 ^ (s.operandD - 1) ∧
              arenaNeed (nonzeroSymbols (elements s.hist s.operandN)).length ≤ s.params.arenaNodes) ∧
            t = ended 0x6 0 .idle (builtState s.operandN j s)))))) := by
  rw [exec_build] at h
  rcases runCommand_next h with h | h | ⟨hr, hb, h⟩
  · exact .inl (.inl h)
  · exact .inl (.inr h)
  · simp only [Bool.or_eq_false_iff] at hb
    rcases runBuild_cases s.operandN s.operandD (enterPhase .build (acceptCommand s)) (dlim_pos hb.2) with ⟨i, -, -, he⟩ |
      ⟨hw, hz, he⟩ | ⟨hw, hc, hs, he⟩ | ⟨hw, hc, hs, ha, he⟩ | ⟨hw, hc, hs, ha, j, hj, hfit, hleast, he⟩ <;>
      simp only [he, reduceCtorEq, false_and, exists_false, or_false, false_or, UnitEnd.success.injEq,
        UnitEnd.fail.injEq, UnitEnd.fault.injEq] at h
    · obtain ⟨z, u, ⟨rfl, rfl⟩, rfl⟩ := h
      exact .inr ⟨hr, hb.1, hb.2, hw, .inl ⟨hz, rfl⟩⟩
    · obtain ⟨c, u, ⟨rfl, rfl⟩, rfl⟩ := h
      exact .inr ⟨hr, hb.1, hb.2, hw, .inr ⟨hc, .inl ⟨hs, rfl⟩⟩⟩
    · obtain ⟨c, u, ⟨rfl, rfl⟩, rfl⟩ := h
      exact .inr ⟨hr, hb.1, hb.2, hw, .inr ⟨hc, .inr (.inl ⟨⟨hs, ha⟩, rfl⟩)⟩⟩
    · obtain ⟨z, u, ⟨rfl, rfl⟩, rfl⟩ := h
      exact .inr ⟨hr, hb.1, hb.2, hw, .inr ⟨hc, .inr (.inr ⟨j, hj, hfit, ⟨hleast, hs, ha⟩, rfl⟩)⟩⟩

/-- CODE with the canonical codes of `LEN[0 .. n-1]` written. -/
abbrev assignedCode (n : Nat) (len : Buf 4) (code : Buf 16) : Buf 16 :=
  writeCodes 0 (elements len n) (canonicalCodes (elements len n)) code

/-- Everything ASSIGN can do when it answers a next state. -/
theorem exec_assign_next {s t : State} (h : exec .assign s = .next t) :
    TurnedAway s.badN s t ∨
    (Ready s ∧ s.badN = false ∧ Written s.len s.operandN ∧ kraftScaled (elements s.len s.operandN) ≤ 2 ^ 15 ∧
      t = ended 0x6 0 .idle { s with code := assignedCode s.operandN s.len s.code }) := by
  rw [exec_assign] at h
  rcases runCommand_next h with h | h | ⟨hr, hb, h⟩
  · exact .inl (.inl h)
  · exact .inl (.inr h)
  · rcases runAssign_cases s.operandN (enterPhase .assign (acceptCommand s)) with ⟨i, -, -, he⟩ | ⟨-, -, he⟩ | ⟨hw, hk, he⟩ <;>
      simp only [he, reduceCtorEq, false_and, exists_false, or_false, UnitEnd.success.injEq] at h
    obtain ⟨z, u, ⟨rfl, rfl⟩, rfl⟩ := h
    exact .inr ⟨hr, hb, hw, hk, rfl⟩

/-- Everything TOKENIZE can do when it answers a next state. -/
theorem exec_tokenize_next {s t : State} (h : exec .tokenize s = .next t) :
    TurnedAway (s.badN || s.badM) s t ∨
    (Ready s ∧ s.badN = false ∧ s.badM = false ∧
      ((Written s.len s.operandN ∧ (stream s.operandN s).length ≤ s.operandM ∧ (stream s.operandN s).length ≤ s.operandN ∧
         t = ended 0x6 0 .idle
           { s with
             tok := bufSetFrom 0 ((stream s.operandN s).map Token.word) s.tok
             tokcnt := BitVec.ofNat 32 (stream s.operandN s).length }) ∨
       (s.operandM < s.operandN ∧ ∃ xs : List Token, s.operandM < xs.length ∧
         t = faulted .assertTokens { s with tok := bufSetFrom 0 ((xs.take s.operandM).map Token.word) s.tok }))) := by
  rw [exec_tokenize] at h
  rcases runCommand_next h with h | h | ⟨hr, hb, h⟩
  · exact .inl (.inl h)
  · exact .inl (.inr h)
  · simp only [Bool.or_eq_false_iff] at hb
    rcases runTokenize_cases s.operandN s.operandM (enterPhase .tokenize (acceptCommand s)) with ⟨i, -, -, he⟩ | ⟨hw, hl, hn, he⟩ |
      ⟨hmn, xs, hx, he⟩ <;>
      simp only [he, reduceCtorEq, false_and, exists_false, or_false, false_or, UnitEnd.success.injEq, UnitEnd.fault.injEq] at h
    · obtain ⟨z, u, ⟨rfl, rfl⟩, rfl⟩ := h
      exact .inr ⟨hr, hb.1, hb.2, .inl ⟨hw, hl, hn, rfl⟩⟩
    · obtain ⟨c, u, ⟨rfl, rfl⟩, rfl⟩ := h
      exact .inr ⟨hr, hb.1, hb.2, .inr ⟨hmn, xs, hx, rfl⟩⟩

/-! ### BUILDCODES -/

/-- Where no symbol has a code nothing is written (R157). -/
theorem writeCodes_allZero (i : Nat) (lens : List Nat) (next : List Nat) (b : Buf 16) (h : ∀ l ∈ lens, l = 0) :
    writeCodes i lens (canonicalFrom next lens) b = b := by
  induction lens generalizing i with
  | nil => rfl
  | cons l rest ih =>
    rw [canonicalFrom, if_pos (h l (by simp)), writeCodes]
    exact ih _ fun x hx => h x (by simp [hx])

theorem kraftScaled_allZero {lens : List Nat} (h : ∀ l ∈ lens, l = 0) : kraftScaled lens = 0 := by
  rw [kraftScaled, List.sum_eq_zero]
  intro x hx
  obtain ⟨l, hl, rfl⟩ := List.mem_map.1 hx
  rw [if_pos (h l hl)]

/-- The lengths an accepted attempt leaves pass ASSIGN's precondition (R158: "Every output of BUILD does"). -/
theorem builtState_kraft {n d j : Nat} {s : State} (hc : ∃ c ∈ elements s.hist n, c ≠ 0) (hd : d ≤ 15)
    (hfit : maxDepth (attemptDepths (elements s.hist n) (2 ^ j)) ≤ d) :
    Written (builtState n j s).len n ∧ elements (builtState n j s).len n = attemptDepths (elements s.hist n) (2 ^ j) ∧
      kraftScaled (elements (builtState n j s).len n) ≤ 2 ^ 15 := by
  have hlen : (attemptDepths (elements s.hist n) (2 ^ j)).length = n := by rw [attemptDepths_length, elements_length]
  have he : elements (builtState n j s).len n = attemptDepths (elements s.hist n) (2 ^ j) :=
    writeLengths_elements hlen (attemptDepths_le hfit hd)
  refine ⟨?_, he, ?_⟩
  · have := writeLengths_written (depth := attemptDepths (elements s.hist n) (2 ^ j)) (s := s)
    rwa [hlen] at this
  · have hn : nonzeroSymbols (elements s.hist n) ≠ [] := by
      intro h0
      obtain ⟨c, hc1, hc2⟩ := hc
      exact hc2 (nonzeroSymbols_eq_nil.1 h0 c hc1)
    rw [he, attemptDepths_kraftScaled hn hfit hd]
    split <;> omega

/-- A nonzero count survives OPT (R112 (c)). -/
theorem optimizedHist_nonzero {hist : Buf 32} {n l : Nat} (ht : trimmedLength hist n = .ok l) (h0 : l ≠ 0) :
    ∃ c ∈ elements (optimizedHist l hist) n, c ≠ 0 := by
  obtain ⟨hle, -, h | ⟨v, hv, hg⟩⟩ := trimmedLength_ok ht
  · exact absurd h h0
  · have hne : v.toNat ≠ 0 := fun h => hv (BitVec.eq_of_toNat_eq h)
    obtain ⟨c, hc1, hc2⟩ := optimizeCounts_nonzero (elements_of_get (n := l) (by omega) hg) hne
    refine ⟨c, ?_, hc2⟩
    rw [← optimizedHist_elements, ← elements_take hle] at hc1
    exact List.mem_of_mem_take (List.mem_iff_getElem?.2 ⟨_, hc1⟩)

/-- The BUILD and ASSIGN phases of BUILDCODES on the state `s` that the OPT phase left (R200, R202, R204). -/
theorem buildAndAssign_cases (n d : Nat) (z : Bool) (s : State) (hd : 1 ≤ d) (hd' : d ≤ 15) (hw : Written s.hist n) :
    let e := (runBuild n d (enterPhase .build s)).andThen fun _ s2 =>
      (runAssign n (enterPhase .assign s2)).andThen fun _ s3 => .success z s3
    ((∀ c ∈ elements s.hist n, c = 0) ∧
      e = .success z { writeLengths (List.replicate n 0) s with cmin := 0, phase := .assign }) ∨
    ((∃ c ∈ elements s.hist n, c ≠ 0) ∧
      ((2 ^ (d - 1) < (nonzeroSymbols (elements s.hist n)).length ∧ e = .fault .assertSize (enterPhase .build s)) ∨
       ((nonzeroSymbols (elements s.hist n)).length ≤ 2 ^ (d - 1) ∧
         s.params.arenaNodes < arenaNeed (nonzeroSymbols (elements s.hist n)).length ∧ e = .fail .alloc (enterPhase .build s)) ∨
       ((nonzeroSymbols (elements s.hist n)).length ≤ 2 ^ (d - 1) ∧
         arenaNeed (nonzeroSymbols (elements s.hist n)).length ≤ s.params.arenaNodes ∧
         ∃ j ≤ 31, maxDepth (attemptDepths (elements s.hist n) (2 ^ j)) ≤ d ∧
           (∀ i < j, d < maxDepth (attemptDepths (elements s.hist n) (2 ^ i))) ∧
           e = .success z
            { builtState n j s with code := assignedCode n (builtState n j s).len s.code, phase := .assign }))) := by
  intro e
  rcases runBuild_cases n d (enterPhase .build s) hd with ⟨i, h1, h2, -⟩ | ⟨-, hz, he⟩ | ⟨-, hc, hs, he⟩ | ⟨-, hc, hs, ha, he⟩ |
    ⟨-, hc, hs, ha, j, hj, hfit, hleast, he⟩
  · exact absurd h2 (hw i h1)
  · refine .inl ⟨hz, ?_⟩
    simp only [e, he, UnitEnd.andThen]
    have hwr : Written (writeLengths (List.replicate n 0) s).len n := by
      have := writeLengths_written (depth := List.replicate n 0) (s := s)
      rwa [List.length_replicate] at this
    have hel : ∀ l ∈ elements (writeLengths (List.replicate n 0) s).len n, l = 0 := by
      rw [writeLengths_elements (by simp) (fun e he => by rw [List.eq_of_mem_replicate he]; omega)]
      exact fun l hl => List.eq_of_mem_replicate hl
    set s2 : State := enterPhase .assign { writeLengths (List.replicate n 0) (enterPhase .build s) with cmin := 0 } with hs2
    rcases runAssign_cases n s2 with ⟨i, h1, h2, -⟩ | ⟨-, h1, -⟩ | ⟨-, -, h1⟩
    · exact absurd h2 (hwr i h1)
    · have := kraftScaled_allZero (lens := elements s2.len n) hel
      omega
    · rw [h1]
      have : writeCodes 0 (elements s2.len n) (canonicalCodes (elements s2.len n)) s2.code = s2.code :=
        writeCodes_allZero 0 _ _ _ hel
      rw [this]; rfl
  · exact .inr ⟨hc, .inl ⟨hs, by simp only [e, he, UnitEnd.andThen]⟩⟩
  · exact .inr ⟨hc, .inr (.inl ⟨hs, ha, by simp only [e, he, UnitEnd.andThen]⟩)⟩
  · refine .inr ⟨hc, .inr (.inr ⟨hs, ha, j, hj, hfit, hleast, ?_⟩)⟩
    simp only [e, he, UnitEnd.andThen]
    obtain ⟨hwr, hel, hk⟩ := builtState_kraft (s := s) hc hd' hfit
    rcases runAssign_cases n (enterPhase .assign (builtState n j (enterPhase .build s))) with ⟨i, h1, h2, -⟩ | ⟨-, h1, -⟩ | ⟨-, -, h1⟩
    · exact absurd h2 (hwr i h1)
    · exact absurd hk (by simpa using h1)
    · rw [h1]; rfl

/-- Everything BUILDCODES can do when it answers a next state. -/
theorem exec_buildcodes_next {s t : State} (h : exec .buildcodes s = .next t) :
    TurnedAway (s.badN || s.badD) s t ∨
    (Ready s ∧ s.badN = false ∧ s.badD = false ∧
      ((t = ended 0xE 0 .idle { writeLengths (List.replicate s.operandN 0) s with cmin := 0 } ∧
         ∀ i < s.operandN, bufGet i s.hist = some 0) ∨
       (∃ l, trimmedLength s.hist s.operandN = .ok l ∧ s.params.scratchBits < l ∧ t = ended 0x2 1 .idle s) ∨
       (∃ l s1, trimmedLength s.hist s.operandN = .ok l ∧ l ≠ 0 ∧ l ≤ s.params.scratchBits ∧ Written s.hist s.operandN ∧
         s1 = { s with hist := optimizedHist l s.hist } ∧
         ((2 ^ (s.operandD - 1) < (nonzeroSymbols (elements s1.hist s.operandN)).length ∧ t = faulted .assertSize s1) ∨
          (((nonzeroSymbols (elements s1.hist s.operandN)).length ≤ 2 ^ (s.operandD - 1) ∧
              s.params.arenaNodes < arenaNeed (nonzeroSymbols (elements s1.hist s.operandN)).length) ∧ t = ended 0x2 1 .idle s1) ∨
          (∃ j ≤ 31, maxDepth (attemptDepths (elements s1.hist s.operandN) (2 ^ j)) ≤ s.operandD ∧
            ((∀ i < j, s.operandD < maxDepth (attemptDepths (elements s1.hist s.operandN) (2 ^ i))) ∧
              (nonzeroSymbols (elements s1.hist s.operandN)).length ≤ 2 ^ (s.operandD - 1) ∧
              arenaNeed (nonzeroSymbols (elements s1.hist s.operandN)).length ≤ s.params.arenaNodes) ∧
            t = ended 0x6 0 .idle
              { builtState s.operandN j s1 with
                code := assignedCode s.operandN (builtState s.operandN j s1).len s1.code }))))) := by
  rw [exec_buildcodes] at h
  rcases runCommand_next h with h | h | ⟨hr, hb, h⟩
  · exact .inl (.inl h)
  · exact .inl (.inr h)
  · simp only [Bool.or_eq_false_iff] at hb
    refine .inr ⟨hr, hb.1, hb.2, ?_⟩
    rcases runOpt_cases s.operandN (enterPhase .opt (acceptCommand s)) with ⟨i, -, -, he⟩ | ⟨he, hz⟩ | ⟨l, ht, -, hl, he⟩ |
      ⟨l, ht, h0, hl, hw, he⟩ <;> simp only [runBuildCodes, he, UnitEnd.andThen] at h
    · simp at h
    · have hw : Written s.hist s.operandN := fun i hi => by
        have : bufGet i s.hist = some 0 := hz i hi
        rw [this]; simp
      have hzero : ∀ c ∈ elements s.hist s.operandN, c = 0 := by
        intro c hc
        simp only [elements, List.mem_map, List.mem_range] at hc
        obtain ⟨i, hi, rfl⟩ := hc
        have : bufGet i s.hist = some 0 := hz i hi
        rw [this]; rfl
      rcases buildAndAssign_cases s.operandN s.operandD true (enterPhase .opt (acceptCommand s)) (dlim_pos hb.2) (dlim_le s) hw with
        ⟨-, hba⟩ | ⟨⟨c, hc1, hc2⟩, -⟩
      · simp only [UnitEnd.andThen] at hba
        simp only [hba, reduceCtorEq, false_and, exists_false, or_false, UnitEnd.success.injEq] at h
        obtain ⟨z, u, ⟨rfl, rfl⟩, rfl⟩ := h
        exact .inl ⟨rfl, hz⟩
      · exact absurd (hzero c hc1) hc2
    · simp only [reduceCtorEq, false_and, exists_false, or_false, false_or, UnitEnd.fail.injEq] at h
      obtain ⟨c, u, ⟨rfl, rfl⟩, rfl⟩ := h
      exact .inr (.inl ⟨l, ht, hl, rfl⟩)
    · refine .inr (.inr ⟨l, _, ht, h0, hl, hw, rfl, ?_⟩)
      set s1 : State := { enterPhase .opt (acceptCommand s) with hist := optimizedHist l (enterPhase .opt (acceptCommand s)).hist } with hs1
      have hw1 : Written s1.hist s.operandN := optimizedHist_written fun i _ hi => hw i hi
      rcases buildAndAssign_cases s.operandN s.operandD false s1 (dlim_pos hb.2) (dlim_le s) hw1 with
        ⟨hz, -⟩ | ⟨-, hba⟩
      · obtain ⟨c, hc1, hc2⟩ := optimizedHist_nonzero ht h0
        exact absurd (hz c hc1) hc2
      · simp only [UnitEnd.andThen] at hba
        rcases hba with ⟨hs, hba⟩ | ⟨hs, ha, hba⟩ | ⟨hs, ha, j, hj, hfit, hleast, hba⟩ <;>
          simp only [hba, reduceCtorEq, false_and, exists_false, or_false, false_or, UnitEnd.success.injEq,
            UnitEnd.fail.injEq, UnitEnd.fault.injEq] at h
        · obtain ⟨c, u, ⟨rfl, rfl⟩, rfl⟩ := h
          exact .inl ⟨hs, rfl⟩
        · obtain ⟨c, u, ⟨rfl, rfl⟩, rfl⟩ := h
          exact .inr (.inl ⟨⟨hs, ha⟩, rfl⟩)
        · obtain ⟨z, u, ⟨rfl, rfl⟩, rfl⟩ := h
          exact .inr (.inr ⟨j, hj, hfit, ⟨hleast, hs, ha⟩, rfl⟩)

/-- BUILDCODES on a written histogram never meets a refusal: it answers a next state. -/
theorem exec_buildcodes_answers {s : State} (hr : Ready s) (hN : s.badN = false) (hD : s.badD = false)
    (hw : Written s.hist s.operandN) : ∃ t, exec .buildcodes s = .next t := by
  rw [exec_buildcodes, hN, hD, Bool.or_false, runCommand_ready hr]
  rcases runOpt_cases s.operandN (enterPhase .opt (acceptCommand s)) with ⟨i, hi, hn, -⟩ | ⟨he, hz⟩ | ⟨l, -, -, -, he⟩ |
    ⟨l, -, -, -, -, he⟩
  · exact absurd hn (hw i hi)
  · rcases buildAndAssign_cases s.operandN s.operandD true (enterPhase .opt (acceptCommand s)) (dlim_pos hD) (dlim_le s) hw with
      ⟨-, hba⟩ | ⟨-, ⟨-, hba⟩ | ⟨-, -, hba⟩ | ⟨-, -, j, -, -, -, hba⟩⟩ <;>
      simp only [UnitEnd.andThen] at hba <;> simp only [runBuildCodes, he, UnitEnd.andThen, hba] <;> exact ⟨_, rfl⟩
  · simp only [runBuildCodes, he, UnitEnd.andThen]; exact ⟨_, rfl⟩
  · rcases buildAndAssign_cases s.operandN s.operandD false
        { enterPhase .opt (acceptCommand s) with hist := optimizedHist l (enterPhase .opt (acceptCommand s)).hist } (dlim_pos hD)
        (dlim_le s) (optimizedHist_written fun i _ hi => hw i hi) with
      ⟨-, hba⟩ | ⟨-, ⟨-, hba⟩ | ⟨-, -, hba⟩ | ⟨-, -, j, -, -, -, hba⟩⟩ <;>
      simp only [UnitEnd.andThen] at hba <;> simp only [runBuildCodes, he, UnitEnd.andThen, hba] <;> exact ⟨_, rfl⟩

end Sys2Proof.Machine
end

