-- ==== Sys2Proof/Laws/Expander.lean ====
section
/-! SUPPORT. The reference expander run in the machine, token by token, is the expander on tokens as records
(spec/43_tokenizer.md R186). -/

namespace Sys2Proof.Machine

/-- One legal token: what it appends to the output and what the previous value becomes. -/
theorem presentToken_tokenWord {code extra : Nat} (h : legalToken code extra) (s : State) :
    ∃ t, presentToken (tokenWord code extra) s = .next t ∧
      t = { s with expOut := t.expOut, expPrev := t.expPrev } ∧
      t.expOut.map BitVec.toNat = s.expOut.map BitVec.toNat ++ (expandTokens s.expPrev.toNat [⟨code, extra⟩]).1 ∧
      t.expPrev.toNat = (expandTokens s.expPrev.toNat [⟨code, extra⟩]).2 := by
  obtain ⟨i, hi, hf⟩ := decodeToken_of_legal h
  rw [presentToken, hi]
  rcases h with ⟨h, rfl⟩ | ⟨rfl, h⟩ | ⟨rfl, h⟩ | ⟨rfl, h⟩
  · interval_cases code <;> cases hf <;>
      exact ⟨_, rfl, rfl, by simp [expandLiteral, expandTokens], by simp [expandLiteral, expandTokens]⟩
  all_goals
    simp only [tokenOfFields, Instr.wellFormed, h, decide_true, if_true, Except.ok.injEq] at hf
    subst hf
    exact ⟨_, if_pos h, rfl, by simp [expandCopies, expandTokens], by simp [expandCopies, expandTokens]⟩

theorem run_succ {M : Host.Core} {k : Nat} {s t : M.State} (h : M.step s = .next t) : M.run (k + 1) s = M.run k t := by
  simp only [Host.Core.run, h]

/-- A stream of legal tokens presented one after another. -/
theorem run_presentTokens (xs : List Token) (h : ∀ x ∈ xs, legalToken x.code x.extra) (s : State) :
    ∃ u, Host.Core.run Sys2Proof.core (xs.map Token.word).length (presentTokens (xs.map Token.word) s) = .next u ∧
      u = { s with host := [], expOut := u.expOut, expPrev := u.expPrev } ∧
      u.expOut.map BitVec.toNat = s.expOut.map BitVec.toNat ++ (expandTokens s.expPrev.toNat xs).1 := by
  induction xs generalizing s with
  | nil => exact ⟨_, rfl, rfl, by simp [expandTokens, presentTokens]⟩
  | cons x xs ih =>
    obtain ⟨t, h1, h2, h3, h4⟩ := presentToken_tokenWord (h x (by simp))
      { presentTokens ((x :: xs).map Token.word) s with host := (xs.map Token.word).map HostMove.token }
    have ht : presentTokens (xs.map Token.word) t = t := by rw [h2]; rfl
    obtain ⟨u, hu1, hu2, hu3⟩ := ih (fun y hy => h y (by simp [hy])) t
    refine ⟨u, ?_, ?_, ?_⟩
    · have hs : Sys2Proof.core.step (presentTokens ((x :: xs).map Token.word) s) = .next t := h1
      rw [ht] at hu1
      exact (run_succ hs).trans hu1
    · rw [hu2, h2]; rfl
    · rw [hu3, h3, h4]
      have := expandTokens_append s.expPrev.toNat [x] xs
      simp only [List.singleton_append] at this
      rw [this, List.append_assoc]
      rfl

end Sys2Proof.Machine
end

