-- ==== Sys2Proof/Laws/HostMap.lean ====
section
/-! SUPPORT. What a host write of an element does (spec/20_memory.md R51, R53), and the byte map of a platform (spec/30_encoding.md
R90): which accesses fall on an element, and what a step does with a bus move. -/

namespace Sys2Proof.Machine

theorem truncateTo_toNat (space : Space) (v : Word) :
    (truncateTo space v).toNat = v.toNat % 2 ^ (match space with | .hist => 32 | .len => 4 | .code => 16 | .tok => 16) := by
  cases space <;> simp [truncateTo] <;> omega

/-- Every element after a host write inside its space: the written one holds the low bits, the others are as before. -/
theorem spaceGet_writeElement {space : Space} {i : Nat} {v : Word} {s : State} (hi : i < spaceSize s.params space) (space' : Space)
    (j : Nat) : spaceGet space' j (writeElement space i v s) =
      if space' = space ∧ j = i then some (truncateTo space v) else spaceGet space' j s := by
  rw [writeElement.eq_def, if_pos hi]
  by_cases h : j = i
  · subst h; cases space <;> cases space' <;> simp [spaceGet, truncateTo]
  · cases space <;> cases space' <;> simp [spaceGet, h, bufGet_bufSet_other _ _ h]

theorem writeElement_outside {space : Space} {i : Nat} (v : Word) {s : State} (hi : spaceSize s.params space ≤ i) :
    writeElement space i v s = s := if_neg (by omega)

theorem elementBytes_pos (space : Space) : 0 < elementBytes space := by cases space <;> decide

/-- An access falls on element `i` of a range exactly when it has the element's size and address. -/
theorem elementAt_eq_some {base size count addr bytes i : Nat} (hs : 0 < size) :
    elementAt base size count addr bytes = some i ↔ bytes = size ∧ addr = base + size * i ∧ i < count := by
  rw [elementAt]
  constructor
  · intro h
    split at h
    · rename_i hc
      obtain ⟨h1, h2, h3, h4⟩ := hc
      obtain rfl := Option.some.inj h
      have := Nat.div_add_mod (addr - base) size
      exact ⟨h1, by omega, h4⟩
    · cases h
  · rintro ⟨rfl, rfl, hi⟩
    rw [Nat.add_sub_cancel_left, Nat.mul_div_cancel_left _ hs, if_pos ⟨rfl, by omega, by simp, hi⟩]

theorem elementAt_eq_none {base size count addr bytes : Nat} (hs : 0 < size) :
    elementAt base size count addr bytes = none ↔ ∀ i < count, ¬(bytes = size ∧ addr = base + size * i) := by
  rw [Option.eq_none_iff_forall_ne_some]
  simp only [ne_eq, elementAt_eq_some hs]
  exact ⟨fun h i hi hc => h i ⟨hc.1, hc.2, hi⟩, fun h i hc => h i hc.2.2 ⟨hc.1, hc.2.1⟩⟩

/-- An address inside one range is at no element of a range apart from it. -/
theorem elementAt_apart {base size count addr bytes base2 len2 : Nat} (hs : 0 < size) (h1 : base2 ≤ addr) (h2 : addr < base2 + len2)
    (h : rangesApart base (size * count) base2 len2) : elementAt base size count addr bytes = none := by
  rw [elementAt_eq_none hs]
  rintro i hi ⟨-, rfl⟩
  have : size * i < size * count := Nat.mul_lt_mul_of_pos_left hi hs
  rcases h with h | h <;> omega

/-- Everything a byte access can be in a map: no register and no element is at its address with its size exactly when it is no HCB
access. -/
theorem busTarget_eq_other {p : Config.Params} {m : Config.HostMap} {addr bytes : Nat} (hm : p.hostMap = some m) :
    busTarget p addr bytes = .other ↔
      elementAt m.regBase 4 8 addr bytes = none ∧
      ∀ space, elementAt (spaceBase m space) (elementBytes space) (spaceSize p space) addr bytes = none := by
  simp only [busTarget, hm]
  constructor
  · intro h
    split at h
    · cases h
    rename_i hr
    repeat (split at h; · cases h)
    rename_i h1 h2 h3 h4
    exact ⟨hr, fun space => by cases space <;> assumption⟩
  · rintro ⟨hr, hs⟩
    simp only [hr, hs]

/-- A step that takes a bus move does what a step that takes its transaction does. -/
theorem step_resolved {s : State} {move m : HostMove} {rest : List HostMove} (h : resolveMove s.params move = some m)
    (hm : resolveMove s.params m = some m) : step { s with host := move :: rest } = step { s with host := m :: rest } := by
  rw [step_cons (move := move) rfl, step_cons (move := m) rfl]
  simp only [h, hm]

/-- A bus move that is no HCB access changes nothing. -/
theorem step_unresolved {s : State} {move : HostMove} {rest : List HostMove} (h : resolveMove s.params move = none) :
    step { s with host := move :: rest } = .next { s with host := rest } := by
  rw [step_cons (move := move) rfl]
  simp only [h]

end Sys2Proof.Machine
end

