-- ==== Sys2Proof/Laws/PerInstr.lean ====
section
/-! SUPPORT. Statements made once per instruction. Family `TableRow`: the encoder's word is an instance of the row of
spec/opcode_table.json that bears the instruction's mnemonic. -/

namespace Sys2Proof.Laws.TableRow

/-- A word as the opcode table numbers it: its width and its value. -/
def tableWord : InstrWord → Nat × Nat
  | .command w => (32, w.toNat)
  | .token w => (16, w.toNat)

/-- The instruction's encoding has the width, the mask and the pattern of its mnemonic's row (spec/30_encoding.md R72, R81). -/
def Statement (i : Instr) : Prop :=
  i.wellFormed = true → ∃ row ∈ commandRows ++ tokenRows,
    row.mnemonic = mnemonicOf i ∧ row.nbits = (tableWord (encode i)).1 ∧ row.matchesWord (tableWord (encode i)).2 = true

theorem opt : Statement .opt := by unfold Statement; decide
theorem build : Statement .build := by unfold Statement; decide
theorem assign : Statement .assign := by unfold Statement; decide
theorem tokenize : Statement .tokenize := by unfold Statement; decide
theorem buildcodes : Statement .buildcodes := by unfold Statement; decide
theorem lit0 : Statement .lit0 := by unfold Statement; decide
theorem lit1 : Statement .lit1 := by unfold Statement; decide
theorem lit2 : Statement .lit2 := by unfold Statement; decide
theorem lit3 : Statement .lit3 := by unfold Statement; decide
theorem lit4 : Statement .lit4 := by unfold Statement; decide
theorem lit5 : Statement .lit5 := by unfold Statement; decide
theorem lit6 : Statement .lit6 := by unfold Statement; decide
theorem lit7 : Statement .lit7 := by unfold Statement; decide
theorem lit8 : Statement .lit8 := by unfold Statement; decide
theorem lit9 : Statement .lit9 := by unfold Statement; decide
theorem lit10 : Statement .lit10 := by unfold Statement; decide
theorem lit11 : Statement .lit11 := by unfold Statement; decide
theorem lit12 : Statement .lit12 := by unfold Statement; decide
theorem lit13 : Statement .lit13 := by unfold Statement; decide
theorem lit14 : Statement .lit14 := by unfold Statement; decide
theorem lit15 : Statement .lit15 := by unfold Statement; decide

theorem token_matches {code extra m : Nat} (hc : code < 256) (he : extra < 256) (hm : extra &&& m = 0) :
    (OpcodeRow.mk s 16 (m * 256 + 255) code).matchesWord (tokenWord code extra).toNat = true := by
  rw [OpcodeRow.matchesWord, tokenWord_toNat hc he, beq_iff_eq, and_mask_eq_iff hc]
  exact ⟨by omega, by rw [show (extra * 256 + code) / 256 = extra by omega]; exact hm⟩

theorem rep (extra : Nat) : Statement (.rep extra) := by
  intro h
  have he : extra ≤ 3 := of_decide_eq_true h
  exact ⟨⟨"REP", 16, 0xFCFF, 0x0010⟩, by decide, rfl, rfl,
    token_matches (m := 0xFC) (by omega) (by omega) (((high_byte_mask extra (by omega)).2.1).2 he)⟩

theorem zrep (extra : Nat) : Statement (.zrep extra) := by
  intro h
  have he : extra ≤ 7 := of_decide_eq_true h
  exact ⟨⟨"ZREP", 16, 0xF8FF, 0x0011⟩, by decide, rfl, rfl,
    token_matches (m := 0xF8) (by omega) (by omega) (((high_byte_mask extra (by omega)).2.2.1).2 he)⟩

theorem zrepl (extra : Nat) : Statement (.zrepl extra) := by
  intro h
  have he : extra ≤ 127 := of_decide_eq_true h
  exact ⟨⟨"ZREPL", 16, 0x80FF, 0x0012⟩, by decide, rfl, rfl,
    token_matches (m := 0x80) (by omega) (by omega) (((high_byte_mask extra (by omega)).2.2.2).2 he)⟩

end Sys2Proof.Laws.TableRow
end

