-- ==== Sys2Proof/Tests/Slice0.lean ====
section
/-! SUPPORT. Tests on small states, expected results from the spec (each names its vector of spec/95_test_vectors.md or its rule), and a
named witness for the hypotheses of every statement of Certificates/Slice0/Obligations.lean. -/

namespace Sys2Proof.Tests

open Sys2Proof.Machine

/-! ### Helpers -/

/-- A buffer holding `vs` from element 0 on. -/
def filled {w : Nat} (vs : List Nat) : Buf w := bufSetFrom 0 (vs.map (BitVec.ofNat w)) []

/-- Elements `0 .. n-1` of a buffer as numbers. -/
def dump {w : Nat} (n : Nat) (b : Buf w) : List (Option Nat) := (List.range n).map fun i => (bufGet i b).map BitVec.toNat

/-- After reset, HIST and LEN filled and the operands written. -/
def small (hist len : List Nat) (n d m : Nat) : State :=
  { State.reset with
    hist := filled hist, len := filled len
    n := BitVec.ofNat 32 n, dlim := BitVec.ofNat 4 d, maxtok := BitVec.ofNat 32 m }

/-- `small` with a histogram only, N its length. -/
def histState (hist : List Nat) (d : Nat) : State := small hist [] hist.length d 0

/-- `small` with lengths only, N their number. -/
def lenState (len : List Nat) (m : Nat) : State := small [] len len.length 0 m

def faultedState : State := { State.reset with status := 0x10, cause := 4, phase := .faulted }

def busyState : State := { State.reset with status := 0x1, phase := .build }

def withHost (moves : List HostMove) (s : State) : State := { s with host := moves }

/-- What a next state shows through `f`. -/
def shown {α : Type} (f : State → α) : Host.Outcome State Fault Refusal → Option α
  | .next t => some (f t)
  | .fault _ => none
  | .refused _ => none

def refusal : Host.Outcome State Fault Refusal → Option Refusal
  | .next _ => none
  | .fault _ => none
  | .refused r => some r

def isNext (o : Host.Outcome State Fault Refusal) : Bool := (shown (fun _ => ()) o).isSome

theorem next_of_isNext {o : Host.Outcome State Fault Refusal} (h : isNext o = true) : ∃ t, o = .next t := by
  cases o with
  | next t => exact ⟨t, rfl⟩
  | fault r => cases h
  | refused r => cases h

theorem next_of_shown {α : Type} {f : State → α} {a : α} {o : Host.Outcome State Fault Refusal} (h : shown f o = some a) :
    ∃ t, o = .next t ∧ f t = a := by
  cases o with
  | next t => exact ⟨t, rfl, Option.some.inj h⟩
  | fault r => cases h
  | refused r => cases h

/-! ### WellFormed: the extra_bits ranges of spec/30_encoding.md R81 -/

theorem test_illformed_rep : (Instr.rep 4).wellFormed = false ∧ (Instr.rep 3).wellFormed = true := by decide
theorem test_illformed_zrep : (Instr.zrep 8).wellFormed = false ∧ (Instr.zrep 7).wellFormed = true := by decide
theorem test_illformed_zrepl : (Instr.zrepl 128).wellFormed = false ∧ (Instr.zrepl 127).wellFormed = true := by decide

/-! ### Decode: every constructor's word, written from spec/30_encoding.md R70 to R72 and R80 to R83 -/

theorem test_decode_commands :
    (decodeCommand 0b00000000000000000000000000000001).toOption = some .opt ∧
    (decodeCommand 0b00000000000000000000000000000010).toOption = some .build ∧
    (decodeCommand 0b00000000000000000000000000000011).toOption = some .assign ∧
    (decodeCommand 0b00000000000000000000000000000100).toOption = some .tokenize ∧
    (decodeCommand 0b00000000000000000000000000000101).toOption = some .buildcodes := by decide

theorem test_decode_literals_0_to_7 :
    (decodeToken 0b0000000000000000).toOption = some .lit0 ∧ (decodeToken 0b0000000000000001).toOption = some .lit1 ∧
    (decodeToken 0b0000000000000010).toOption = some .lit2 ∧ (decodeToken 0b0000000000000011).toOption = some .lit3 ∧
    (decodeToken 0b0000000000000100).toOption = some .lit4 ∧ (decodeToken 0b0000000000000101).toOption = some .lit5 ∧
    (decodeToken 0b0000000000000110).toOption = some .lit6 ∧ (decodeToken 0b0000000000000111).toOption = some .lit7 := by decide

theorem test_decode_literals_8_to_15 :
    (decodeToken 0b0000000000001000).toOption = some .lit8 ∧ (decodeToken 0b0000000000001001).toOption = some .lit9 ∧
    (decodeToken 0b0000000000001010).toOption = some .lit10 ∧ (decodeToken 0b0000000000001011).toOption = some .lit11 ∧
    (decodeToken 0b0000000000001100).toOption = some .lit12 ∧ (decodeToken 0b0000000000001101).toOption = some .lit13 ∧
    (decodeToken 0b0000000000001110).toOption = some .lit14 ∧ (decodeToken 0b0000000000001111).toOption = some .lit15 := by decide

theorem test_decode_escapes :
    (decodeToken 0b0000000000010000).toOption = some (.rep 0) ∧ (decodeToken 0b0000001100010000).toOption = some (.rep 3) ∧
    (decodeToken 0b0000000000010001).toOption = some (.zrep 0) ∧ (decodeToken 0b0000011100010001).toOption = some (.zrep 7) ∧
    (decodeToken 0b0000000000010010).toOption = some (.zrepl 0) ∧ (decodeToken 0b0111111100010010).toOption = some (.zrepl 127) := by
  decide

/-- Reserved words are rejected, each by its name (R75, R84). -/
theorem test_reserved_words :
    decodeCommand 0x00000000 = .error .reservedOp ∧ decodeCommand 0x00000006 = .error .reservedOp ∧
    decodeCommand 0x00000012 = .error .reservedBits ∧ decodeCommand 0x80000003 = .error .reservedBits ∧
    decodeToken 0x0013 = .error .reservedTokenCode ∧ decodeToken 0x0021 = .error .reservedTokenBits ∧
    decodeToken 0x8012 = .error .reservedTokenBits ∧ decodeToken 0x0410 = .error .extraOutOfRange ∧
    decodeToken 0x0811 = .error .extraOutOfRange ∧ decodeToken 0x0105 = .error .extraOutOfRange := by
  refine ⟨rfl, rfl, rfl, rfl, rfl, rfl, rfl, rfl, rfl, rfl⟩

/-- No two rows of one format overlap: they differ on a bit both masks select (spec/opcode_table.json). -/
theorem test_rows_do_not_overlap :
    commandRows.Pairwise (fun a b => a.pattern &&& b.mask ≠ b.pattern &&& a.mask) ∧
    tokenRows.Pairwise (fun a b => a.pattern &&& b.mask ≠ b.pattern &&& a.mask) := by decide

theorem test_table_words :
    decodeTableWord 32 5 = some .buildcodes ∧ decodeTableWord 16 0x0710 = none ∧ decodeTableWord 16 0x0311 = some (.zrep 3) := by
  decide

/-! ### The commands, on vectors of spec/95_test_vectors.md -/

/-- O5 and O12: a stride of close counts becomes its rounded mean; a short zero run is no good run. -/
theorem test_opt_collapses :
    shown (fun t => (dump 4 t.hist, t.status)) (exec .opt (histState [1, 2, 3, 4] 0)) = some ([3, 3, 3, 3].map some, 0x6) ∧
    shown (fun t => (dump 4 t.hist, t.status)) (exec .opt (histState [0, 0, 0, 1] 0)) = some ([1, 1, 1, 1].map some, 0x6) := by
  decide +kernel

/-- O9: a nonzero run of 7 stays beside a run of other counts. -/
theorem test_opt_keeps_good_run :
    shown (fun t => dump 11 t.hist) (exec .opt (histState [3, 3, 3, 3, 3, 3, 3, 5, 5, 5, 5] 0)) =
      some ([3, 3, 3, 3, 3, 3, 3, 5, 5, 5, 5].map some) := by decide +kernel

/-- B5: among equal weights the higher symbol is taken first into the list, so the last symbol gets the short code. -/
theorem test_build_ties :
    shown (fun t => (dump 3 t.len, t.cmin.toNat, t.status)) (exec .build (histState [1, 1, 1] 15)) =
      some ([2, 2, 1].map some, 1, 0x6) := by decide +kernel

/-- B11: the floor is doubled once. -/
theorem test_build_retry :
    shown (fun t => (dump 8 t.len, t.cmin.toNat)) (exec .build (histState [1, 1, 2, 3, 5, 8, 13, 21] 6)) =
      some ([4, 4, 4, 4, 3, 3, 2, 2].map some, 2) := by decide +kernel

/-- A1 (spec/42_assigner.md R161). -/
theorem test_assign_worked_example :
    shown (fun t => dump 8 t.code) (exec .assign (lenState [3, 3, 3, 3, 3, 2, 4, 4] 0)) = some ([2, 6, 1, 5, 3, 0, 7, 15].map some) := by
  decide +kernel

/-- A3: a symbol of length 0 has no code written. -/
theorem test_assign_skips_unused :
    shown (fun t => dump 3 t.code) (exec .assign (lenState [0, 1, 0] 0)) = some [none, some 0, none] := by decide +kernel

/-- A first run of 8 gets no literal (spec/43_tokenizer.md R181); a zero run of 11 is one ZREPL token (R177). -/
theorem test_tokenize_runs :
    shown (fun t => (dump 1 t.tok, t.tokcnt.toNat)) (exec .tokenize (lenState [8, 8, 8] 3)) = some ([some 0x0010], 1) ∧
    shown (fun t => (dump 1 t.tok, t.tokcnt.toNat)) (exec .tokenize (lenState (List.replicate 11 0) 11)) = some ([some 0x0012], 1) := by
  decide +kernel

/-- B5 with A: BUILDCODES on three equal counts, which OPT leaves as they are. -/
theorem test_buildcodes :
    shown (fun t => (dump 3 t.len, dump 3 t.code, t.status)) (exec .buildcodes (histState [1, 1, 1] 15)) =
      some ([2, 2, 1].map some, [1, 3, 0].map some, 0x6) := by decide +kernel

/-! ### Tokens (spec/30_encoding.md R81, spec/43_tokenizer.md R186) -/

/-- LIT5, REP 0, LIT0, REP 0: a literal zero does not become the previous value. -/
theorem test_expander :
    shown (fun t => (t.expOut, t.expPrev))
      (Host.Core.run Sys2Proof.core 4 (presentTokens [0x0005, 0x0010, 0x0000, 0x0010] State.reset)) =
        some ([5, 5, 5, 5, 0, 5, 5, 5], 5) := by decide +kernel

theorem test_zero_escapes :
    shown (fun t => t.expOut.length) (exec (.zrep 7) State.reset) = some 10 ∧
    shown (fun t => t.expOut.length) (exec (.zrepl 127) State.reset) = some 138 := by decide +kernel

/-- The two worked streams of spec/43_tokenizer.md R188 and R189: what `expand` gives for their words, and the spans of their tokens. -/
theorem test_expand_worked_streams :
    expand (([0x0004, 0x0010, 0x0003, 0x0003, 0x0002, 0x0002] : List TokWord).map Token.ofWord) = [4, 4, 4, 4, 3, 3, 2, 2] ∧
    (([0x7F12, 0x3312] : List TokWord).map fun w => tokenSpan (Token.ofWord w)) = [138, 62] := by decide

/-! ### Registers, faults, reset -/

/-- RG2, RG5: DLIM keeps four bits; register 8 reads 0. -/
theorem test_register_file :
    shown (fun t => t.reads)
      (Host.Core.run Sys2Proof.core 4 (withHost [.writeReg 4 0xFFFFFFFF, .readReg 4, .writeReg 9 7, .readReg 8] State.reset)) =
        some [0, 0xF] := by decide +kernel

/-- RG14: an element write keeps the low bits. -/
theorem test_element_width :
    shown (fun t => t.reads) (Host.Core.run Sys2Proof.core 2 (withHost [.writeElem .len 0 0x1F, .readElem .len 0] State.reset)) =
      some [0xF] := by decide +kernel

/-- RG6, RG10: ILLEGAL_CMD, then a CMD write ignored and a write to N taken. -/
theorem test_fault_is_sticky :
    shown (fun t => (t.status, t.cause, t.n))
      (Host.Core.run Sys2Proof.core 3 (withHost [.writeReg 0 0, .writeReg 3 7, .writeReg 0 1] State.reset)) =
        some (0x10, 4, 7) := by decide +kernel

/-- RG11: reset is the way out. -/
theorem test_reset_leaves_fault :
    shown (fun t => (t.status, t.cause, t.phase)) (step (withHost [.reset] faultedState)) = some (0, 0, .idle) := by decide +kernel

/-- RG12, RG13: OPT on an empty alphabet succeeds with ALLZERO; a read of an element nothing has written is refused. -/
theorem test_opt_reads :
    shown (fun t => t.status) (exec .opt State.reset) = some 0xE ∧
    refusal (exec .opt { State.reset with n := 1 }) = some (.unwrittenElement .hist 0) := by decide +kernel

/-! ### Witnesses: states and operands that meet each statement's hypotheses, at the ends of their ranges -/

theorem witness_DecodeOfEncodeIsIdentity : (Instr.zrepl 127).wellFormed = true ∧ (Instr.rep 0).wellFormed = true := by decide

theorem witness_EncodeOfDecodeIsIdentity :
    decode (.token 0x7F12) = .ok (.zrepl 127) ∧ decode (.command 0x00000005) = .ok .buildcodes := ⟨rfl, rfl⟩

theorem witness_DecoderAgreesWithOpcodeTable :
    (⟨"BUILDCODES", 32, 0xFFFFFFFF, 0x00000005⟩ : OpcodeRow) ∈ commandRows ∧
    (⟨"ZREPL", 16, 0x80FF, 0x0012⟩ : OpcodeRow) ∈ tokenRows := by decide

theorem witness_StepRunsDecodedInstruction :
    (withHost [.writeReg 0 1] State.reset).host = .writeReg 0 1 :: [] ∧ decodeCommand 1 = .ok .opt ∧
    (withHost [.token 0x7F12] State.reset).host = .token 0x7F12 :: [] ∧ decodeToken 0x7F12 = .ok (.zrepl 127) :=
  ⟨rfl, rfl, rfl, rfl⟩

/-- The three forms of a reserved word: bit 4 set, OP 0, OP 6 and OP 15. -/
theorem witness_ReservedWordRaisesIllegalCommand :
    Ready (withHost [.writeReg 0 0x10] State.reset) ∧ (0x10 : Word).toNat / 16 ≠ 0 ∧ (0 : Word).toNat % 16 = 0 ∧
    6 ≤ (6 : Word).toNat % 16 ∧ 6 ≤ (15 : Word).toNat % 16 := by decide

/-- `N = MAX_SYMS + 1`; `DLIM = 0`; `MAXTOK = TOK_ENTRIES + 1`. -/
theorem witness_BadOperandFaultsBeforeAnyAccess :
    (Ready (small [] [] 257 1 0) ∧ (small [] [] 257 1 0).params.maxSyms < (small [] [] 257 1 0).n.toNat) ∧
    (Ready (small [] [] 0 0 0) ∧ (small [] [] 0 0 0).dlim = 0) ∧
    (Ready (small [] [] 0 0 257) ∧ (small [] [] 0 0 257).params.tokEntries < (small [] [] 0 0 257).maxtok.toNat) := by decide

/-- A move of each clause from the FAULT state: a CMD write, a write of DLIM, a read of N, a write of the last HIST element. -/
theorem witness_FaultIsStickyUntilReset :
    faultedState.phase = .faulted ∧ faultedState.busy = false ∧
    (∃ t, step (withHost [.writeReg 0 1] faultedState) = .next t) ∧
    (∃ t, step (withHost [.writeReg 4 7] faultedState) = .next t) ∧
    (∃ t, step (withHost [.readReg 3] faultedState) = .next t) ∧
    255 < spaceSize faultedState.params .hist ∧ (∃ t, step (withHost [.writeElem .hist 255 9] faultedState) = .next t) :=
  ⟨rfl, by decide, next_of_isNext (by decide), next_of_isNext (by decide), next_of_isNext (by decide), by decide,
    next_of_isNext (by decide)⟩

theorem witness_ResetEntersTheResetState : (withHost [.reset] faultedState).host = .reset :: [] := rfl

/-- Each of the four ends: success, success with ALLZERO, FAIL (an arena of 3 nodes for two symbols), FAULT. -/
theorem witness_CommandEndsAsTableSays :
    (Ready (histState [1, 2] 2) ∧ ∃ t, exec .build (histState [1, 2] 2) = .next t ∧ t.status = 0x6) ∧
    (Ready (histState [0] 1) ∧ ∃ t, exec .opt (histState [0] 1) = .next t ∧ t.status = 0xE) ∧
    (Ready { histState [1, 2] 2 with params := { Config.resetParams with arenaNodes := 3 } } ∧
      ∃ t, exec .build { histState [1, 2] 2 with params := { Config.resetParams with arenaNodes := 3 } } = .next t ∧ t.status = 0x2) ∧
    (Ready (histState [1, 2] 1) ∧ ∃ t, exec .build (histState [1, 2] 1) = .next t ∧ t.status = 0x10) :=
  ⟨⟨by decide, next_of_shown (by decide +kernel)⟩, ⟨by decide, next_of_shown (by decide +kernel)⟩,
    ⟨by decide, next_of_shown (by decide +kernel)⟩, ⟨by decide, next_of_shown (by decide +kernel)⟩⟩

/-- Each cause that a command can leave: 0, 1, 2, 3, 5. -/
theorem witness_WhichCommandEndsHow :
    (∃ t, exec .assign (lenState [1, 1] 0) = .next t ∧ t.cause = 0) ∧
    (∃ t, exec .opt { histState [1, 2] 2 with params := { Config.resetParams with scratchBits := 1 } } = .next t ∧ t.cause = 1) ∧
    (∃ t, exec .buildcodes (histState [1, 2] 1) = .next t ∧ t.cause = 2) ∧
    (∃ t, exec .tokenize (lenState [1, 2] 1) = .next t ∧ t.cause = 3) ∧
    (∃ t, exec .build (histState [1, 2] 0) = .next t ∧ t.cause = 5) :=
  ⟨next_of_shown (by decide +kernel), next_of_shown (by decide +kernel), next_of_shown (by decide +kernel),
    next_of_shown (by decide +kernel), next_of_shown (by decide +kernel)⟩

theorem witness_HostAccessWhileBusyRefused :
    busyState.busy = true ∧ busyState.phase ≠ .faulted ∧ (withHost [.writeReg 5 0] busyState).host = .writeReg 5 0 :: [] ∧
    (withHost [.readElem .tok 0] busyState).host = .readElem .tok 0 :: [] ∧
    (withHost [.readReg 7] busyState).host = .readReg 7 :: [] := by decide

theorem opt_on_reset_inv : Inv (withHost [.writeReg 0 1] State.reset) :=
  ⟨by decide, by decide, by decide, ⟨by decide, fun i hi => absurd hi (Nat.not_lt_zero i)⟩, .inl rfl⟩

theorem witness_InvariantKeptByEveryStep :
    Inv (withHost [.writeReg 0 1] State.reset) ∧ ∃ t, step (withHost [.writeReg 0 1] State.reset) = .next t :=
  ⟨opt_on_reset_inv, next_of_isNext (by decide +kernel)⟩

theorem witness_CommandsWriteOnlyTheirResults :
    (∃ t, exec .opt (histState [1, 2, 3, 4] 3) = .next t) ∧ (∃ t, exec .build (histState [1, 2, 3, 4] 3) = .next t) ∧
    (∃ t, exec .assign (lenState [1, 1] 0) = .next t) ∧ (∃ t, exec .tokenize (lenState [1, 1] 2) = .next t) ∧
    (∃ t, exec .buildcodes (histState [1, 2, 3, 4] 3) = .next t) :=
  ⟨next_of_isNext (by decide +kernel), next_of_isNext (by decide +kernel), next_of_isNext (by decide +kernel),
    next_of_isNext (by decide +kernel), next_of_isNext (by decide +kernel)⟩

/-- A command of each kind, and an index at each bound. -/
theorem witness_CommandsStayInsideTheirIndexRange :
    Instr.tokenize ∈ hostCommands ∧ (∃ t, exec .tokenize (lenState [1, 1] 2) = .next t) ∧ (lenState [1, 1] 2).n.toNat ≤ 2 ∧
    (lenState [1, 1] 2).maxtok.toNat ≤ 2 :=
  ⟨by decide, next_of_isNext (by decide +kernel), by decide, by decide⟩

/-- Registers 3, 4, 5 (written), 1 and 7 (read-only), 8 (none). -/
theorem witness_RegisterFileAsTheHostSeesIt :
    (∀ reg ∈ [1, 3, 4, 5, 7, 8], Ready (withHost [.writeReg reg 0x19, .readReg reg] State.reset) ∧ reg ≠ 0 ∧
      (withHost [.writeReg reg 0x19, .readReg reg] State.reset).host = .writeReg reg 0x19 :: .readReg reg :: []) ∧
    (8 : Nat) ≤ 8 ∧ (0 : Nat) ≠ 8 := by decide

theorem witness_DlimIsFourBitsReadByBuildOnly :
    Ready (withHost [.writeReg 4 0x10] State.reset) ∧ readRegister 4 State.reset = 0 ∧
    (∃ t, exec .opt (histState [1, 2] 2) = .next t) ∧ (∃ t, exec .assign (lenState [1, 1] 0) = .next t) ∧
    (∃ t, exec .tokenize (lenState [1, 1] 2) = .next t) :=
  ⟨by decide, by decide, next_of_isNext (by decide +kernel), next_of_isNext (by decide +kernel), next_of_isNext (by decide +kernel)⟩

/-- The last element of a space and the index after it. -/
theorem witness_ElementReadAfterWrite :
    Ready (withHost [.writeElem .code 255 0x12345, .readElem .code 255] State.reset) ∧ 255 < spaceSize State.reset.params .code ∧
    spaceSize State.reset.params .code ≤ 256 ∧ (Space.code, 254) ≠ (Space.code, 255) := by decide

def mapped : Config.HostMap := { regBase := 0, histBase := 32, lenBase := 1056, codeBase := 1312, tokBase := 1824 }

/-- After reset, on a platform with the map. -/
def mappedState : State := { State.reset with params := { Config.resetParams with hostMap := some mapped } }

/-- The last element of a space and the last register. -/
theorem witness_ReferenceMapReachesEveryElement :
    mappedState.params.hostMap = some mapped ∧ hostMapDisjoint mappedState.params mapped ∧
    255 < spaceSize mappedState.params .tok ∧ ([0x34, 0x12] : List Byte).length = elementBytes .tok ∧ 7 < 8 ∧
    ([1, 0, 0, 0] : List Byte).length = 4 := by decide

/-- Two bytes of a register, and any access without a map. -/
theorem witness_OtherBusAccessChangesNothing :
    (∀ m, mappedState.params.hostMap = some m →
      (∀ reg < 8, ¬((2 : Nat) = 4 ∧ 12 = m.regBase + 4 * reg)) ∧
      (∀ (space : Space) (i : Nat), i < spaceSize mappedState.params space →
        ¬(2 = elementBytes space ∧ 12 = spaceBase m space + elementBytes space * i))) ∧
    State.reset.params.hostMap = none ∧ ([1, 2] : List Byte).length = 2 := by
  refine ⟨fun m hm => ?_, rfl, rfl⟩
  obtain rfl := Option.some.inj hm
  exact ⟨fun reg _ h => absurd h.1 (by decide),
    fun space i _ h => by cases space <;> simp [elementBytes, spaceBase, mapped] at h; all_goals omega⟩

/-- The last element of each space. -/
theorem witness_ElementWriteChangesNothingElse :
    ∀ space ∈ [Space.hist, .len, .code, .tok], Ready (withHost [.writeElem space 255 0x12345] State.reset) ∧
      255 < spaceSize State.reset.params space ∧
      (withHost [.writeElem space 255 0x12345] State.reset).host = .writeElem space 255 0x12345 :: [] := by decide

/-- The unwritten element is the last one read (OPT, BUILDCODES at index 0), or the first (BUILD, ASSIGN, TOKENIZE at index `N-1` and 0). -/
theorem witness_UnwrittenElementRefused :
    Ready (small [] [] 1 1 1) ∧ (small [] [] 1 1 1).n.toNat ≤ (small [] [] 1 1 1).params.maxSyms ∧ 0 < (small [] [] 1 1 1).n.toNat ∧
    bufGet 0 (small [] [] 1 1 1).hist = none ∧ (small [] [] 1 1 1).dlim ≠ 0 ∧ Written (small [] [] 1 1 1).len 0 ∧
    bufGet 1 (small [5] [1] 2 1 2).hist = none ∧ Written (small [5] [1] 2 1 2).hist 1 ∧ bufGet 1 (small [5] [1] 2 1 2).len = none ∧
    Written (small [5] [1] 2 1 2).len 1 ∧ 1 ≤ (small [5] [1] 2 1 2).maxtok.toNat := by decide

/-- Element 0 is unwritten and element 1, the last, is nonzero; the scratch array just fits. -/
theorem witness_UnwrittenElementRefused_below :
    let s : State := { State.reset with
      hist := [(1, 5)], n := 2, dlim := 1, params := { Config.resetParams with scratchBits := 2 } }
    Ready s ∧ s.n.toNat ≤ s.params.maxSyms ∧ 0 < 1 ∧ 1 < s.n.toNat ∧ bufGet 0 s.hist = none ∧ Written s.hist 0 ∧
    bufGet 1 s.hist = some 5 ∧ (5 : Count) ≠ 0 ∧ (∀ j < s.n.toNat, 1 < j → bufGet j s.hist = some 0) ∧
    1 + 1 ≤ s.params.scratchBits ∧ s.dlim ≠ 0 := by decide

theorem witness_UnwrittenElementRefused_success :
    (Ready (histState [1, 2] 2) ∧ ∃ t, exec .buildcodes (histState [1, 2] 2) = .next t ∧ t.ok = true) ∧
    (Ready (lenState [1, 1] 2) ∧ ∃ t, exec .tokenize (lenState [1, 1] 2) = .next t ∧ t.ok = true) :=
  ⟨⟨by decide, next_of_shown (by decide +kernel)⟩, by decide, next_of_shown (by decide +kernel)⟩

/-- A zero histogram. -/
theorem witness_OptAllZeroSucceeds :
    Ready (histState [0, 0] 0) ∧ (histState [0, 0] 0).n.toNat ≤ (histState [0, 0] 0).params.maxSyms ∧
    (∀ i < (histState [0, 0] 0).n.toNat, bufGet i (histState [0, 0] 0).hist = some 0) := by decide

theorem witness_OptCollapsesHistogram :
    Ready (histState [1, 2, 3, 4, 0] 0) ∧ (histState [1, 2, 3, 4, 0] 0).n.toNat ≤ (histState [1, 2, 3, 4, 0] 0).params.maxSyms ∧
    Written (histState [1, 2, 3, 4, 0] 0).hist 5 ∧ IsTrimmedLength (elements (histState [1, 2, 3, 4, 0] 0).hist 5) 4 ∧
    4 ≤ (histState [1, 2, 3, 4, 0] 0).params.scratchBits := by decide

/-- The trimmed length does not fit the scratch array by one in the first two clauses; the array has MAX_SYMS entries in the third. -/
theorem witness_OptFailsWithoutScratch :
    (Ready { histState [1, 2] 0 with params := { Config.resetParams with scratchBits := 1 } } ∧ Written (histState [1, 2] 0).hist 2 ∧
      IsTrimmedLength (elements (histState [1, 2] 0).hist 2) 2 ∧ 1 < 2) ∧
    (∃ t, exec .opt { histState [1, 2] 0 with params := { Config.resetParams with scratchBits := 1 } } = .next t ∧ t.cause = 1) ∧
    (Ready (histState [1, 2] 0) ∧ (histState [1, 2] 0).params.maxSyms ≤ (histState [1, 2] 0).params.scratchBits ∧
      ∃ t, exec .opt (histState [1, 2] 0) = .next t) :=
  ⟨by decide, next_of_shown (by decide +kernel), by decide, by decide, next_of_isNext (by decide +kernel)⟩

/-- A zero-run of exactly 5 between other counts, and a nonzero-run of exactly 7 at the start. -/
theorem witness_MarkSweepComputesGoodRuns :
    ((∀ j, j < 6 → 1 ≤ j → [9, 0, 0, 0, 0, 0, 9][j]? = some 0) ∧ [9, 0, 0, 0, 0, 0, 9][1 - 1]? ≠ some 0 ∧
      [9, 0, 0, 0, 0, 0, 9][6]? ≠ some 0) ∧
    ((∀ j, j < 7 → [3, 3, 3, 3, 3, 3, 3][j]? = some 3) ∧ [3, 3, 3, 3, 3, 3, 3][7]? ≠ some 3) := by decide

theorem witness_CollapseSweepComputesTheCollapse : [1, 2, 3, 4] ≠ ([] : List Nat) := by decide

theorem witness_OptKeepsNonzeroAndGoodCounts :
    [3, 3, 3, 3, 3, 3, 3, 5][7]? = some 5 ∧ (goodMarks [3, 3, 3, 3, 3, 3, 3, 5])[6]? = some true ∧
    12 ∈ collapseStride [10, 11, 12, 13] ∧ 3 ∈ optimizeCounts [1, 2, 3, 4] := by decide

theorem witness_OptLeavesGoodHistogramUnchanged :
    Ready (histState [3, 3, 3, 3, 3, 3, 3] 0) ∧ Written (histState [3, 3, 3, 3, 3, 3, 3] 0).hist 7 ∧
    IsTrimmedLength (elements (histState [3, 3, 3, 3, 3, 3, 3] 0).hist 7) 7 ∧
    7 ≤ (histState [3, 3, 3, 3, 3, 3, 3] 0).params.scratchBits ∧
    (∀ g ∈ goodMarks (elements (histState [3, 3, 3, 3, 3, 3, 3] 0).hist 7), g = true) := by decide

theorem witness_BuildAllZeroSucceeds :
    Ready (histState [0, 0] 1) ∧ (histState [0, 0] 1).n.toNat ≤ (histState [0, 0] 1).params.maxSyms ∧ (histState [0, 0] 1).dlim ≠ 0 ∧
    (∀ i < (histState [0, 0] 1).n.toNat, bufGet i (histState [0, 0] 1).hist = some 0) := by decide

/-- Three symbols at DLIM 2, where two are allowed. -/
theorem witness_BuildAssertsSize :
    Ready (histState [1, 0, 2, 3] 2) ∧ (histState [1, 0, 2, 3] 2).n.toNat ≤ (histState [1, 0, 2, 3] 2).params.maxSyms ∧
    (histState [1, 0, 2, 3] 2).dlim ≠ 0 ∧ Written (histState [1, 0, 2, 3] 2).hist 4 ∧
    2 ^ ((histState [1, 0, 2, 3] 2).dlim.toNat - 1) < ((elements (histState [1, 0, 2, 3] 2).hist 4).filter (· ≠ 0)).length := by decide

/-- Two symbols need 4 nodes: an arena of 3 does not do. -/
theorem witness_BuildFailsWithoutArena :
    Ready { histState [1, 2] 2 with params := { Config.resetParams with arenaNodes := 3 } } ∧ Written (histState [1, 2] 2).hist 2 ∧
    ((elements (histState [1, 2] 2).hist 2).filter (· ≠ 0)).length ≤ 2 ^ ((histState [1, 2] 2).dlim.toNat - 1) ∧
    3 + 2 < 3 * ((elements (histState [1, 2] 2).hist 2).filter (· ≠ 0)).length := by decide

/-- Two symbols at DLIM 2 with exactly 4 nodes. -/
theorem witness_BuildAcceptsLeastFloor :
    Ready { histState [1, 2] 2 with params := { Config.resetParams with arenaNodes := 4 } } ∧ Written (histState [1, 2] 2).hist 2 ∧
    (histState [1, 2] 2).dlim ≠ 0 ∧ (∃ c ∈ elements (histState [1, 2] 2).hist 2, c ≠ 0) ∧
    ((elements (histState [1, 2] 2).hist 2).filter (· ≠ 0)).length ≤ 2 ^ ((histState [1, 2] 2).dlim.toNat - 1) ∧
    3 * ((elements (histState [1, 2] 2).hist 2).filter (· ≠ 0)).length ≤ 4 + 2 := by decide

theorem witness_RetryLoopEndsInLogManyAttempts :
    nonzeroSymbols [1, 0, 4294967295] ≠ [] ∧ (nonzeroSymbols [1, 0, 4294967295]).length ≤ 2 ^ (2 - 1) ∧
    (∀ c ∈ [1, 0, 4294967295], c ≤ 4294967295) ∧ 4294967295 < 2 ^ 32 := by decide

/-- A result with two symbols and one with a single symbol. -/
theorem witness_AcceptedLengthsAreHuffman :
    (Ready (histState [2, 1, 0] 2) ∧ ∃ t, exec .build (histState [2, 1, 0] 2) = .next t ∧ t.status = 0x6) ∧
    (Ready (histState [0, 0, 9] 1) ∧ ∃ t, exec .build (histState [0, 0, 9] 1) = .next t ∧ t.status = 0x6) :=
  ⟨⟨by decide, next_of_shown (by decide +kernel)⟩, by decide, next_of_shown (by decide +kernel)⟩

theorem witness_SingleSymbolGetsDepthOne :
    Ready (histState [0, 0, 9] 1) ∧ (histState [0, 0, 9] 1).dlim ≠ 0 ∧ bufGet 2 (histState [0, 0, 9] 1).hist = some 9 ∧
    (∀ i < (histState [0, 0, 9] 1).n.toNat, i ≠ 2 → bufGet i (histState [0, 0, 9] 1).hist = some 0) := by decide

theorem witness_AttemptUsesTheArenaItNeeds : nonzeroSymbols [0, 7, 0, 7] ≠ [] := by decide

/-- Two states that differ in LEN. -/
theorem witness_BuildDependsOnHistAndOperandsOnly :
    Ready (small [1, 2] [] 2 2 0) ∧ Ready (small [1, 2] [9, 9] 2 2 0) ∧ (small [1, 2] [] 2 2 0).params = (small [1, 2] [9, 9] 2 2 0).params ∧
    (∀ i < 2, bufGet i (small [1, 2] [] 2 2 0).hist = bufGet i (small [1, 2] [9, 9] 2 2 0).hist) ∧
    ∃ t, exec .build (small [1, 2] [] 2 2 0) = .next t :=
  ⟨by decide, by decide, by decide, by decide, next_of_isNext (by decide +kernel)⟩

/-- A Kraft sum of exactly 1, an unused symbol among the lengths. -/
theorem witness_AssignGivesCanonicalCodes :
    Ready (lenState [1, 0, 2, 2] 0) ∧ (lenState [1, 0, 2, 2] 0).n.toNat ≤ (lenState [1, 0, 2, 2] 0).params.maxSyms ∧
    Written (lenState [1, 0, 2, 2] 0).len 4 ∧ kraftScaled (elements (lenState [1, 0, 2, 2] 0).len 4) = 2 ^ 15 ∧
    (elements (lenState [1, 0, 2, 2] 0).len 4)[3]? = some 2 ∧ bufGet 1 (lenState [1, 0, 2, 2] 0).len = some 0 := by decide

theorem witness_FirstCodesFollowTheFormula : (∀ l ∈ [1, 0, 2, 15], l ≤ 15) ∧ kraftScaled [1, 0, 2, 15] ≤ 2 ^ 15 ∧ 15 ≤ 15 := by decide

/-- Two symbols of one length, and two of different lengths. -/
theorem witness_CanonicalCodesArePrefixFree :
    (∀ l ∈ [1, 0, 2, 2], l ≤ 15) ∧ kraftScaled [1, 0, 2, 2] ≤ 2 ^ 15 ∧
    (canonicalCodes [1, 0, 2, 2])[0]? = some (some 0) ∧ (canonicalCodes [1, 0, 2, 2])[2]? = some (some 2) ∧
    (canonicalCodes [1, 0, 2, 2])[3]? = some (some 3) := by decide

/-- A Kraft sum just above 1. -/
theorem witness_AssignRefusesKraftAboveOne :
    Ready (lenState [1, 1, 15] 0) ∧ Written (lenState [1, 1, 15] 0).len 3 ∧
    2 ^ 15 < kraftScaled (elements (lenState [1, 1, 15] 0).len 3) := by decide

theorem witness_ReversalMirrorsTheBits : (1 ≤ 15 ∧ 15 ≤ 15 ∧ 32767 < 2 ^ 15) ∧ (1 ≤ 1 ∧ 1 < 2 ^ 1) := by decide

theorem witness_NibbleCompositionIsReversal : 15 < 16 ∧ 1 ≤ 15 ∧ 15 ≤ 15 ∧ 1 < 2 ^ 15 := by decide

/-- The tokens just fit MAXTOK. -/
theorem witness_TokenizeWritesTheStream :
    Ready (lenState [1, 2, 2] 3) ∧ (lenState [1, 2, 2] 3).maxtok.toNat ≤ (lenState [1, 2, 2] 3).params.tokEntries ∧
    Written (lenState [1, 2, 2] 3).len 3 ∧ (encodeLengths (elements (lenState [1, 2, 2] 3).len 3)).length = 3 := by decide

theorem witness_TokenRoundTrip :
    Ready (lenState [1, 0, 0, 8] 4) ∧ (lenState [1, 0, 0, 8] 4).n.toNat ≤ (lenState [1, 0, 0, 8] 4).maxtok.toNat ∧
    (lenState [1, 0, 0, 8] 4).maxtok.toNat ≤ (lenState [1, 0, 0, 8] 4).params.tokEntries ∧
    Written (lenState [1, 0, 0, 8] 4).len 4 ∧ (lenState [1, 0, 0, 8] 4).expOut = [] ∧ (lenState [1, 0, 0, 8] 4).expPrev = 8 := by decide

theorem witness_TokenCountAtMostN :
    (∀ l ∈ [0, 15], l ≤ 15) ∧ Ready (lenState [1, 2] 2) ∧ (lenState [1, 2] 2).n.toNat ≤ (lenState [1, 2] 2).maxtok.toNat ∧
    ∃ t, exec .tokenize (lenState [1, 2] 2) = .next t ∧ t.ok = true :=
  ⟨by decide, by decide, by decide, next_of_shown (by decide +kernel)⟩

/-- One token too many; and `MAXTOK = 0` with one element. -/
theorem witness_TokenBoundIsAsserted :
    (Ready (lenState [1, 2] 1) ∧ Written (lenState [1, 2] 1).len 2 ∧
      (lenState [1, 2] 1).maxtok.toNat < (encodeLengths (elements (lenState [1, 2] 1).len 2)).length) ∧
    (Ready (lenState [1] 0) ∧ Written (lenState [1] 0).len 1 ∧ 1 ≤ (lenState [1] 0).n.toNat ∧ (lenState [1] 0).maxtok = 0) := by decide

theorem witness_ZeroRunClosedForm : 1 ≤ 139 ∧ 1 = (139 - 1) / 138 ∧ 1 = 139 - 138 * 1 := by decide

theorem witness_RepeatRunClosedForm : 1 = (7 - 1) / 6 ∧ 1 = 7 - 6 * 1 ∧ 0 = (0 - 1) / 6 := by decide

theorem witness_EncodedTokensAreLegal : (∀ l ∈ [0, 0, 0, 15], l ≤ 15) ∧ (⟨17, 0⟩ : Token) ∈ encodeLengths [0, 0, 0, 15] := by decide

/-- OPT, BUILD and ASSIGN one after another, each from the state the one before left. -/
theorem witness_BuildCodesRunsTheThreeUnits :
    ∃ s1 s2 s3, Ready (histState [1, 2, 3, 4] 3) ∧ (histState [1, 2, 3, 4] 3).dlim ≠ 0 ∧
      exec .opt (histState [1, 2, 3, 4] 3) = .next s1 ∧ s1.ok = true ∧ exec .build s1 = .next s2 ∧ s2.ok = true ∧
      exec .assign s2 = .next s3 ∧ s3.ok = true := by
  have h1 : shown id (exec .opt (histState [1, 2, 3, 4] 3)) = some (small [3, 3, 3, 3] [] 4 3 0 |> endSuccess false) := by decide +kernel
  have h2 : shown id (exec .build (small [3, 3, 3, 3] [] 4 3 0 |> endSuccess false)) =
      some ((small [3, 3, 3, 3] [2, 2, 2, 2] 4 3 0 |> fun s => endSuccess false { s with cmin := 1 })) := by decide +kernel
  have h3 : shown State.ok (exec .assign (small [3, 3, 3, 3] [2, 2, 2, 2] 4 3 0 |> fun s => endSuccess false { s with cmin := 1 })) =
      some true := by decide +kernel
  obtain ⟨s1, e1, r1⟩ := next_of_shown h1
  obtain ⟨s2, e2, r2⟩ := next_of_shown h2
  obtain ⟨s3, e3, r3⟩ := next_of_shown h3
  cases r1
  cases r2
  exact ⟨_, _, s3, by decide, by decide, e1, by decide, e2, by decide, e3, r3⟩

/-- Four symbols at DLIM 3 with exactly the 10 nodes they need. -/
theorem witness_BuildCodesCompletes :
    Ready { histState [1, 2, 3, 4] 3 with params := { Config.resetParams with arenaNodes := 10 } } ∧
    Written (histState [1, 2, 3, 4] 3).hist 4 ∧ IsTrimmedLength (elements (histState [1, 2, 3, 4] 3).hist 4) 4 ∧
    ((optimizeCounts (elements (histState [1, 2, 3, 4] 3).hist 4)).filter (· ≠ 0)).length ≤ 2 ^ (3 - 1) ∧
    3 * ((optimizeCounts (elements (histState [1, 2, 3, 4] 3).hist 4)).filter (· ≠ 0)).length ≤ 10 + 2 := by decide

/-- A FAIL of OPT; a FAIL and an ASSERT_SIZE of BUILD. -/
theorem witness_BuildCodesShortCircuits :
    (∃ s1, exec .opt { histState [1, 2] 2 with params := { Config.resetParams with scratchBits := 1 } } = .next s1 ∧ s1.ok = false) ∧
    (shown State.ok (exec .opt { histState [1, 2] 2 with params := { Config.resetParams with arenaNodes := 3 } }) = some true ∧
      shown State.ok (exec .build { histState [1, 2] 2 with params := { Config.resetParams with arenaNodes := 3 } }) = some false) ∧
    (shown State.ok (exec .opt (histState [1, 2] 1)) = some true ∧ shown State.ok (exec .build (histState [1, 2] 1)) = some false) :=
  ⟨next_of_shown (by decide +kernel), by decide +kernel, by decide +kernel⟩

theorem witness_BuildCodesAllZeroSucceeds :
    Ready (histState [0, 0] 1) ∧ (histState [0, 0] 1).dlim ≠ 0 ∧
    (∀ i < (histState [0, 0] 1).n.toNat, bufGet i (histState [0, 0] 1).hist = some 0) := by decide

/-- Each escape at the end of its range and just after it. -/
theorem witness_EscapeTokensExpand : 3 ≤ 3 ∧ 3 < 4 ∧ 7 ≤ 7 ∧ 7 < 8 ∧ 127 ≤ 127 ∧ 127 < 128 := by decide

end Sys2Proof.Tests
end

section
/-! The register file and the reset state (spec/10_state.md): one rule per host transaction on a register, the frame of a register
write, and the independence of OPT, ASSIGN and TOKENIZE of DLIM. -/

namespace Sys2Proof.Machine

/-! ### Register transactions as steps -/

/-- While the block is not busy, the host's write of a register other than CMD takes effect (spec/10_state.md R21). -/
theorem step_writeReg {s : State} {reg : Nat} {v : Word} {rest : List HostMove} (hb : s.busy = false) (hreg : reg ≠ 0)
    (hh : s.host = .writeReg reg v :: rest) : step s = .next (writeRegister reg v { s with host := rest }) := by
  have hu : ({ s with host := rest } : State).busy = false := hb
  rw [step_cons hh]
  simp only [resolveMove, stepMove, if_neg hreg, hostWriteReg, hu, Bool.false_and, Bool.false_eq_true, if_false]

/-- While the block is not busy, the host's read of a register is answered and changes nothing else (spec/20_memory.md R55). -/
theorem step_readReg {s : State} {reg : Nat} {rest : List HostMove} (hb : s.busy = false) (hh : s.host = .readReg reg :: rest) :
    step s = .next { s with host := rest, reads := readRegister reg s :: s.reads } := by
  have hu : ({ s with host := rest } : State).busy = false := hb
  rw [step_cons hh]
  simp only [resolveMove, stepMove, hostReadReg, hu, Bool.false_and, Bool.false_eq_true, if_false, readRegister_host, answerRead]

/-! ### What a register write changes -/

/-- A write of a register that is read-only or does not exist is ignored (spec/10_state.md R21). -/
theorem writeRegister_ignored {reg : Nat} (v : Word) (s : State) (h3 : reg ≠ 3) (h4 : reg ≠ 4) (h5 : reg ≠ 5) :
    writeRegister reg v s = s := by
  unfold writeRegister; split <;> [contradiction; contradiction; contradiction; rfl]

theorem writeRegister_n {reg : Nat} (v : Word) (s : State) (h : reg ≠ 3) : (writeRegister reg v s).n = s.n := by
  unfold writeRegister; split <;> [contradiction; rfl; rfl; rfl]

theorem writeRegister_dlim {reg : Nat} (v : Word) (s : State) (h : reg ≠ 4) : (writeRegister reg v s).dlim = s.dlim := by
  unfold writeRegister; split <;> [rfl; contradiction; rfl; rfl]

theorem writeRegister_maxtok {reg : Nat} (v : Word) (s : State) (h : reg ≠ 5) : (writeRegister reg v s).maxtok = s.maxtok := by
  unfold writeRegister; split <;> [rfl; rfl; contradiction; rfl]

@[simp] theorem writeRegister_busy (reg : Nat) (v : Word) (s : State) : (writeRegister reg v s).busy = s.busy := by
  rw [State.busy, writeRegister_status, State.busy]

/-- A write of one register leaves every other register reading as before. -/
theorem readRegister_writeRegister_other {other reg : Nat} (v : Word) (s : State) (h : other ≠ reg) :
    readRegister other (writeRegister reg v s) = readRegister other s := by
  unfold readRegister
  split
  · exact writeRegister_status s reg v
  · exact writeRegister_cause s reg v
  · exact writeRegister_n v s h.symm
  · rw [writeRegister_dlim v s h.symm]
  · exact writeRegister_maxtok v s h.symm
  · exact writeRegister_tokcnt s reg v
  · exact writeRegister_cmin s reg v
  · rfl

/-- A register number of 8 and above does not exist and reads 0 (spec/10_state.md R21). -/
theorem readRegister_absent {reg : Nat} (s : State) (h : 8 ≤ reg) : readRegister reg s = 0 := by
  obtain ⟨k, rfl⟩ := Nat.exists_eq_add_of_le' h
  rfl

theorem readRegister_dlim_toNat (s : State) : (readRegister 4 s).toNat = s.dlim.toNat :=
  BitVec.toNat_setWidth_of_le (by decide)

theorem readRegister_dlim_eq_zero {s : State} : readRegister 4 s = 0 ↔ s.dlim = 0 := by
  rw [← BitVec.toNat_inj, ← BitVec.toNat_inj, readRegister_dlim_toNat]; rfl

/-! ### DLIM is no operand of OPT, ASSIGN and TOKENIZE -/

/-- The state with another value in DLIM. -/
abbrev withDlim (d : BitVec 4) (s : State) : State := { s with dlim := d }

/-- The end of a unit's work with another value in the DLIM of its state. -/
def UnitEnd.withDlim (d : BitVec 4) : UnitEnd → UnitEnd
  | .success z s => .success z (Machine.withDlim d s)
  | .fail c s => .fail c (Machine.withDlim d s)
  | .fault c s => .fault c (Machine.withDlim d s)
  | .refused r => .refused r
  | .stopped f => .stopped f

theorem runOpt_withDlim (n : Nat) (d : BitVec 4) (s : State) : runOpt n (withDlim d s) = (runOpt n s).withDlim d := by
  rw [runOpt, runOpt]
  cases trimmedLength s.hist n with
  | error i => rfl
  | ok l =>
    cases l with
    | zero => rfl
    | succ l =>
      by_cases hs : s.params.scratchBits < l + 1
      · simp only [if_pos hs, UnitEnd.withDlim]
      · simp only [if_neg hs]
        cases bufRead s.hist 0 (l + 1) <;> rfl

theorem runAssign_withDlim (n : Nat) (d : BitVec 4) (s : State) : runAssign n (withDlim d s) = (runAssign n s).withDlim d := by
  rw [runAssign, runAssign]
  cases bufRead s.len 0 n with
  | error i => rfl
  | ok elems =>
    by_cases hk : kraftAtMostOne (elems.map BitVec.toNat) = true
    · simp only [if_pos hk, UnitEnd.withDlim]
    · simp only [if_neg hk, UnitEnd.withDlim]

theorem runTokenize_withDlim (n m : Nat) (d : BitVec 4) (s : State) :
    runTokenize n m (withDlim d s) = (runTokenize n m s).withDlim d := by
  unfold runTokenize
  dsimp only
  generalize emitAll m _ 0 s.tok = e
  generalize (bufPrefix s.len 0 n).2 = u
  cases e with
  | full tok => rfl
  | written tok k => cases u <;> rfl

/-- A command whose body does not read DLIM ends the same way whatever DLIM holds. -/
theorem runCommand_withDlim {bad : Bool} {body : State → UnitEnd} {s t : State} (d : BitVec 4)
    (hbody : ∀ u, body (withDlim d u) = (body u).withDlim d) (h : runCommand bad body s = .next t) :
    runCommand bad body (withDlim d s) = .next (withDlim d t) := by
  rcases runCommand_next h with ⟨hf, rfl⟩ | ⟨hr, rfl, rfl⟩ | ⟨hr, rfl, he⟩
  · exact runCommand_faulted hf
  · exact runCommand_badOperand hr
  · have hready : Ready (withDlim d s) := hr
    rw [runCommand_ready hready, show acceptCommand (withDlim d s) = withDlim d (acceptCommand s) from rfl, hbody]
    rcases he with ⟨z, u, he, rfl⟩ | ⟨c, u, he, rfl⟩ | ⟨c, u, he, rfl⟩ <;> rw [he] <;> rfl

/-! ### The obligations -/

/-- Settles O13: no element holds a value and every register is 0, which each clause of the invariant admits. -/
theorem resetStateMeetsInvariant : Obligations.ResetStateMeetsInvariant where
  sizes := by decide
  memory := resetBlock_wf .reset
  ends := .inl ⟨rfl, rfl, .inl rfl⟩
  tokens := ⟨Nat.zero_le _, fun i hi => absurd hi (Nat.not_lt_zero i)⟩
  cmin := .inl rfl

/-- Settles O17: the first step is `writeRegister`, the second answers `readRegister` of what it left; the clauses are the frame of the
write. -/
theorem registerFileAsTheHostSeesIt : Obligations.RegisterFileAsTheHostSeesIt := by
  intro s reg v rest ⟨_, hb⟩ hreg hh
  refine ⟨_, step_writeReg hb hreg hh, ?_, ?_, ?_, ?_, ?_, ?_, ?_, ?_, rfl⟩
  · have hread := step_readReg (s := writeRegister reg v { s with host := .readReg reg :: rest })
      ((writeRegister_busy ..).trans hb) (writeRegister_host ..)
    rwa [writeRegister_reads] at hread
  · rintro rfl; rfl
  · rintro rfl; rfl
  · rintro rfl; rfl
  · rintro (rfl | rfl) <;> rfl
  · intro hro
    exact writeRegister_ignored v _ (by omega) (by omega) (by omega)
  · intro h8
    exact ⟨writeRegister_ignored v _ (by omega) (by omega) (by omega), readRegister_absent _ h8⟩
  · intro other ho
    rw [readRegister_writeRegister_other v _ ho, readRegister_host]

/-- Settles O18: DLIM has four bits, its zero is the operand check of BUILD and BUILDCODES, and the bodies of OPT, ASSIGN and
TOKENIZE commute with a change of DLIM. -/
theorem dlimIsFourBitsReadByBuildOnly : Obligations.DlimIsFourBitsReadByBuildOnly := by
  refine ⟨?_, ?_, ?_⟩
  · intro s v rest ⟨_, hb⟩ hh
    refine ⟨_, step_writeReg hb (by decide) hh, ?_⟩
    rw [readRegister_dlim_toNat]
    exact BitVec.toNat_setWidth 4 v
  · intro s hr h0 i hi
    have hd : s.badD = true := by
      rw [← Bool.not_eq_false, badD_eq_false, not_not]; exact readRegister_dlim_eq_zero.1 h0
    simp only [List.mem_cons, List.not_mem_nil, or_false] at hi
    rcases hi with rfl | rfl
    · rw [exec_build, hd, Bool.or_true]; exact runCommand_badOperand hr
    · rw [exec_buildcodes, hd, Bool.or_true]; exact runCommand_badOperand hr
  · intro s t d i hi h
    simp only [List.mem_cons, List.not_mem_nil, or_false] at hi
    rcases hi with rfl | rfl | rfl
    · rw [exec_opt] at h ⊢
      exact runCommand_withDlim d (fun u => runOpt_withDlim _ d (enterPhase .opt u)) h
    · rw [exec_assign] at h ⊢
      exact runCommand_withDlim d (fun u => runAssign_withDlim _ d (enterPhase .assign u)) h
    · rw [exec_tokenize] at h ⊢
      exact runCommand_withDlim d (fun u => runTokenize_withDlim _ _ d (enterPhase .tokenize u)) h

end Sys2Proof.Machine
end

section
/-! The host's element transactions (spec/20_memory.md R51 to R58): one rule per transaction, in the ready block and while BUSY. -/

namespace Sys2Proof.Machine

/-! ### Element transactions as steps -/

@[simp] theorem writeElement_busy (space : Space) (i : Nat) (v : Word) (s : State) : (writeElement space i v s).busy = s.busy := by
  rw [State.busy, writeElement_status, State.busy]

/-- While the block is not busy, the host's write of an element takes effect (R51). -/
theorem step_writeElem {s : State} {space : Space} {i : Nat} {v : Word} {rest : List HostMove} (hb : s.busy = false)
    (hh : s.host = .writeElem space i v :: rest) : step s = .next (writeElement space i v { s with host := rest }) := by
  have hu : ({ s with host := rest } : State).busy = false := hb
  rw [step_cons hh]
  simp only [resolveMove, stepMove, hostWriteElem, hu, Bool.false_eq_true, if_false]

/-- While the block is not busy, the host's read of an element is answered and changes nothing else (R55). -/
theorem step_readElem {s : State} {space : Space} {i : Nat} {rest : List HostMove} (hb : s.busy = false)
    (hh : s.host = .readElem space i :: rest) :
    step s = .next { s with host := rest, reads := readElement space i s :: s.reads } := by
  have hu : ({ s with host := rest } : State).busy = false := hb
  rw [step_cons hh]
  simp only [resolveMove, stepMove, hostReadElem, hu, Bool.false_eq_true, if_false, readElement_host, answerRead]

/-- An element write changes no field other than the four buffers. -/
theorem writeElement_frame (space : Space) (i : Nat) (v : Word) (s : State) :
    writeElement space i v s =
      { s with
        hist := (writeElement space i v s).hist, len := (writeElement space i v s).len
        code := (writeElement space i v s).code, tok := (writeElement space i v s).tok } := by
  unfold writeElement
  split
  · cases space <;> rfl
  · rfl

/-- A write of one element leaves every other element reading as before, also one that holds no value (log entry 4). -/
theorem readElement_writeElement_other {space space' : Space} {i j : Nat} (v : Word) (s : State) (h : (space', j) ≠ (space, i)) :
    readElement space' j (writeElement space i v s) = readElement space' j s := by
  by_cases hi : i < spaceSize s.params space
  · have hne : ¬(space' = space ∧ j = i) := fun ⟨h1, h2⟩ => h (by rw [h1, h2])
    rw [readElement, readElement, writeElement_params, writeElement_epoch, spaceGet_writeElement hi, if_neg hne]
  · rw [writeElement_outside v (Nat.le_of_not_lt hi)]

/-- An element written inside its space reads as the low bits of the value (R51). -/
theorem readElement_writeElement_same {space : Space} {i : Nat} (v : Word) {s : State} (hi : i < spaceSize s.params space) :
    readElement space i (writeElement space i v s) = truncateTo space v := by
  rw [readElement, writeElement_params, if_pos hi, spaceGet_writeElement hi, if_pos ⟨rfl, rfl⟩, Option.getD_some]

/-- An index at or above the size of the space reads 0 (R53). -/
theorem readElement_outside {space : Space} {i : Nat} {s : State} (hi : spaceSize s.params space ≤ i) : readElement space i s = 0 :=
  if_neg (by omega)

/-! ### While BUSY -/

/-- While BUSY a word written to CMD outside the FAULT state is refused, a reserved word too (spec/30_encoding.md R71). -/
theorem writeCommand_busy {w : Word} {s : State} (hf : s.phase ≠ .faulted) (hb : s.busy = true) :
    writeCommand w s = .refused .hostAccessWhileBusy := by
  rw [writeCommand]
  split
  · rename_i i hi
    obtain ⟨body, he⟩ := exec_command i (decodeCommand_ok hi) s
    rw [he, runCommand_busy hf hb]
  · rw [illegalCommand, if_neg hf, if_pos hb]

/-- N, DLIM and MAXTOK belong to the block while a command runs (R58). -/
theorem ownedRegister_eq_true {reg : Nat} : ownedRegister reg = true ↔ reg ∈ [3, 4, 5] := by
  simp [ownedRegister, or_assoc]

/-! ### The obligations -/

/-- Settles O19: the first step is `writeElement`, the second answers `readElement` of what it left. -/
theorem elementReadAfterWrite : Obligations.ElementReadAfterWrite := by
  intro s space i v rest ⟨_, hb⟩ hh
  refine ⟨_, step_writeElem hb hh, ?_, ?_, ?_, ?_⟩
  · have hread := step_readElem (s := writeElement space i v { s with host := .readElem space i :: rest })
      ((writeElement_busy ..).trans hb) (writeElement_host ..)
    rwa [writeElement_reads] at hread
  · intro hi
    rw [readElement_writeElement_same (s := { s with host := .readElem space i :: rest }) v hi]
    exact truncateTo_toNat space v
  · intro hi
    have hout := writeElement_outside (s := { s with host := .readElem space i :: rest }) v hi
    rw [hout]
    exact ⟨rfl, readElement_outside hi⟩
  · intro space' j hne
    rw [readElement_writeElement_other v _ hne, readElement_host]

/-- Settles O60: the step is `writeElement`, which puts the value at its element and keeps every other. -/
theorem elementWriteChangesNothingElse : Obligations.ElementWriteChangesNothingElse := by
  intro s space i v rest ⟨_, hb⟩ hi hh
  have hget := fun space' j => spaceGet_writeElement (s := { s with host := rest }) (v := v) hi space' j
  refine ⟨_, step_writeElem hb hh, writeElement_frame space i v { s with host := rest },
    ⟨truncateTo space v, (hget space i).trans (if_pos ⟨rfl, rfl⟩), truncateTo_toNat space v⟩, fun space' j hne => ?_⟩
  have hother : ¬(space' = space ∧ j = i) := fun ⟨h1, h2⟩ => hne (by rw [h1, h2])
  rw [hget, if_neg hother]
  cases space' <;> rfl

/-- Settles O12: each host access tests BUSY before it does anything, and the result registers are not the block's own. -/
theorem hostAccessWhileBusyRefused : Obligations.HostAccessWhileBusyRefused := by
  intro s rest hb
  have hu : ({ s with host := rest } : State).busy = true := hb
  refine ⟨?_, ?_, ?_, ?_, ?_, ?_⟩
  · intro w hf hh
    rw [step_cons hh]
    exact writeCommand_busy hf hu
  · intro reg v hreg hh
    have h0 : reg ≠ 0 := by rintro rfl; simp at hreg
    rw [step_cons hh]
    simp only [resolveMove, stepMove, if_neg h0, hostWriteReg, hu, ownedRegister_eq_true.2 hreg, Bool.and_self, if_true]
  · intro reg hreg hh
    rw [step_cons hh]
    simp only [resolveMove, stepMove, hostReadReg, hu, ownedRegister_eq_true.2 hreg, Bool.and_self, if_true]
  · intro space i v hh
    rw [step_cons hh]
    exact if_pos hu
  · intro space i hh
    rw [step_cons hh]
    exact if_pos hu
  · intro reg hreg hh
    have hown : ownedRegister reg = false := by
      simp only [List.mem_cons, List.not_mem_nil, or_false] at hreg
      rcases hreg with rfl | rfl | rfl | rfl <;> rfl
    rw [step_cons hh]
    simp only [resolveMove, stepMove, hostReadReg, hown, Bool.and_false, Bool.false_eq_true, if_false, readRegister_host, answerRead]

end Sys2Proof.Machine
end

section
/-! The index range of the commands' writes (spec/20_memory.md R53). -/

namespace Sys2Proof.Machine

/-! ### What each command leaves at and above its operand -/

/-- The buffers of `t` are those of `s` at and above N (HIST, LEN, CODE) and at and above MAXTOK (TOK). -/
abbrev KeepsAboveOperands (s t : State) : Prop :=
  (∀ k, s.n.toNat ≤ k → bufGet k t.hist = bufGet k s.hist ∧ bufGet k t.len = bufGet k s.len ∧ bufGet k t.code = bufGet k s.code) ∧
  (∀ k, s.maxtok.toNat ≤ k → bufGet k t.tok = bufGet k s.tok)

theorem keepsAboveOperands_refl (s : State) : KeepsAboveOperands s s := ⟨fun _ _ => ⟨rfl, rfl, rfl⟩, fun _ _ => rfl⟩

/-- A command that is turned away writes no buffer. -/
theorem TurnedAway.keepsAboveOperands {bad : Bool} {s t : State} (h : TurnedAway bad s t) : KeepsAboveOperands s t := by
  rcases h with ⟨-, rfl⟩ | ⟨-, -, rfl⟩
  · exact keepsAboveOperands_refl t
  · exact keepsAboveOperands_refl s

theorem optimizedHist_get_above {hist : Buf 32} {n l k : Nat} (ht : trimmedLength hist n = .ok l) (hk : n ≤ k) :
    bufGet k (optimizedHist l hist) = bufGet k hist :=
  optimizedHist_get l k hist (le_trans (trimmedLength_ok ht).1 hk)

theorem builtState_get_above {n j k : Nat} (s : State) (hk : n ≤ k) : bufGet k (builtState n j s).len = bufGet k s.len :=
  writeLengths_get_outside (by rwa [attemptDepths_length, elements_length])

theorem zeroLengths_get_above {n k : Nat} (s : State) (hk : n ≤ k) :
    bufGet k (writeLengths (List.replicate n 0) s).len = bufGet k s.len :=
  writeLengths_get_outside (by rwa [List.length_replicate])

theorem assignedCode_get_above {n k : Nat} (len : Buf 4) (code : Buf 16) (hk : n ≤ k) :
    bufGet k (assignedCode n len code) = bufGet k code := by
  have hnone : (elements len n)[k]? = none := List.getElem?_eq_none (by rwa [elements_length])
  rw [assignedCode, writeCodes_get (canonicalCodes_length _), if_pos (Nat.zero_le k), Nat.sub_zero, hnone]

theorem exec_opt_keepsAboveOperands {s t : State} (h : exec .opt s = .next t) : KeepsAboveOperands s t := by
  rcases exec_opt_next h with h | ⟨-, -, ⟨rfl, -⟩ | ⟨l, -, -, rfl⟩ | ⟨l, ht, -, -, -, rfl⟩⟩
  · exact h.keepsAboveOperands
  · exact keepsAboveOperands_refl s
  · exact keepsAboveOperands_refl s
  · exact ⟨fun k hk => ⟨optimizedHist_get_above ht hk, rfl, rfl⟩, fun _ _ => rfl⟩

theorem exec_build_keepsAboveOperands {s t : State} (h : exec .build s = .next t) : KeepsAboveOperands s t := by
  rcases exec_build_next h with h | ⟨-, -, -, -, ⟨-, rfl⟩ | ⟨-, ⟨-, rfl⟩ | ⟨-, rfl⟩ | ⟨j, -, -, -, rfl⟩⟩⟩
  · exact h.keepsAboveOperands
  · exact ⟨fun k hk => ⟨rfl, zeroLengths_get_above s hk, rfl⟩, fun _ _ => rfl⟩
  · exact keepsAboveOperands_refl s
  · exact keepsAboveOperands_refl s
  · exact ⟨fun k hk => ⟨rfl, builtState_get_above s hk, rfl⟩, fun _ _ => rfl⟩

theorem exec_assign_keepsAboveOperands {s t : State} (h : exec .assign s = .next t) : KeepsAboveOperands s t := by
  rcases exec_assign_next h with h | ⟨-, -, -, -, rfl⟩
  · exact h.keepsAboveOperands
  · exact ⟨fun k hk => ⟨rfl, rfl, assignedCode_get_above s.len s.code hk⟩, fun _ _ => rfl⟩

theorem exec_tokenize_keepsAboveOperands {s t : State} (h : exec .tokenize s = .next t) : KeepsAboveOperands s t := by
  have hout : ∀ (xs : List Token) (k : Nat), xs.length ≤ s.maxtok.toNat → s.maxtok.toNat ≤ k →
      bufGet k (bufSetFrom 0 (xs.map Token.word) s.tok) = bufGet k s.tok := fun xs k hx hk =>
    bufGet_bufSetFrom_outside _ _ (.inr (by rw [List.length_map]; omega))
  rcases exec_tokenize_next h with h | ⟨-, -, -, ⟨-, hl, -, rfl⟩ | ⟨-, xs, -, rfl⟩⟩
  · exact h.keepsAboveOperands
  · exact ⟨fun _ _ => ⟨rfl, rfl, rfl⟩, fun k hk => hout _ k hl hk⟩
  · exact ⟨fun _ _ => ⟨rfl, rfl, rfl⟩, fun k hk => hout _ k (List.length_take_le _ _) hk⟩

theorem exec_buildcodes_keepsAboveOperands {s t : State} (h : exec .buildcodes s = .next t) : KeepsAboveOperands s t := by
  rcases exec_buildcodes_next h with h | ⟨-, -, -, ⟨rfl, -⟩ | ⟨l, -, -, rfl⟩ | ⟨l, s1, ht, -, -, -, rfl, h⟩⟩
  · exact h.keepsAboveOperands
  · exact ⟨fun k hk => ⟨rfl, zeroLengths_get_above s hk, rfl⟩, fun _ _ => rfl⟩
  · exact keepsAboveOperands_refl s
  · have hhist : ∀ k, s.n.toNat ≤ k → bufGet k (optimizedHist l s.hist) = bufGet k s.hist := fun k hk => optimizedHist_get_above ht hk
    rcases h with ⟨-, rfl⟩ | ⟨-, rfl⟩ | ⟨j, -, -, -, rfl⟩
    · exact ⟨fun k hk => ⟨hhist k hk, rfl, rfl⟩, fun _ _ => rfl⟩
    · exact ⟨fun k hk => ⟨hhist k hk, rfl, rfl⟩, fun _ _ => rfl⟩
    · exact ⟨fun k hk => ⟨hhist k hk, builtState_get_above _ hk, assignedCode_get_above _ s.code hk⟩, fun _ _ => rfl⟩

/-! ### The obligation -/

/-- Settles O16, command by command from what each can do. -/
theorem commandsStayInsideTheirIndexRange : Obligations.CommandsStayInsideTheirIndexRange := by
  intro s t i hi h
  simp only [hostCommands, List.mem_cons, List.not_mem_nil, or_false] at hi
  rcases hi with rfl | rfl | rfl | rfl | rfl
  · exact exec_opt_keepsAboveOperands h
  · exact exec_build_keepsAboveOperands h
  · exact exec_assign_keepsAboveOperands h
  · exact exec_tokenize_keepsAboveOperands h
  · exact exec_buildcodes_keepsAboveOperands h

end Sys2Proof.Machine
end

section
/-! The invariant of the state between two steps (spec/20_memory.md R50, spec/10_state.md R29 to R31, spec/60_exceptions.md R211): what a
command's writes keep of it, and that every step keeps it. -/

namespace Sys2Proof.Machine

/-! ### The part of the invariant that a command's writes must keep -/

/-- The clauses of `Inv` that do not speak of STATUS, CAUSE and PHASE: they hold at a unit's end too, before `ended` writes those. -/
structure DataInv (s : State) : Prop where
  sizes : s.params.legal
  memory : Memory.wf s
  tokens : s.tokcnt.toNat ≤ s.params.tokEntries ∧ Written s.tok s.tokcnt.toNat
  cmin : s.cmin = 0 ∨ ∃ k < 32, s.cmin.toNat = 2 ^ k

theorem Inv.data {s : State} (h : Inv s) : DataInv s := ⟨h.sizes, h.memory, h.tokens, h.cmin⟩

/-- The end of a command in one of the rows of R211 on data in order. -/
theorem DataInv.inv_ended {status cause : Word} {phase : Phase} {s : State} (h : DataInv s)
    (he : EndState (ended status cause phase s)) : Inv (ended status cause phase s) :=
  ⟨h.sizes, h.memory, he, h.tokens, h.cmin⟩

theorem endState_success (s : State) : EndState (ended 0x6 0 .idle s) := .inl ⟨rfl, rfl, .inr (.inl rfl)⟩

theorem endState_allZero (s : State) : EndState (ended 0xE 0 .idle s) := .inl ⟨rfl, rfl, .inr (.inr rfl)⟩

theorem endState_fail (s : State) : EndState (ended 0x2 1 .idle s) := .inr (.inl ⟨rfl, rfl, rfl⟩)

/-- The causes of a fault are the codes 2 to 5 (spec/60_exceptions.md R212). -/
theorem endState_faulted {c : Cause} (s : State) (hn : c ≠ .none) (ha : c ≠ .alloc) : EndState (faulted c s) := by
  refine .inr (.inr ⟨rfl, rfl, ?_⟩)
  cases c with
  | none => exact absurd rfl hn
  | alloc => exact absurd rfl ha
  | assertSize => exact .inl rfl
  | assertTokens => exact .inr (.inl rfl)
  | illegalCmd => exact .inr (.inr (.inl rfl))
  | badOperand => exact .inr (.inr (.inr rfl))

theorem DataInv.inv_faulted {c : Cause} {s : State} (h : DataInv s) (hn : c ≠ .none) (ha : c ≠ .alloc) : Inv (faulted c s) :=
  h.inv_ended (endState_faulted s hn ha)

/-! ### The writes of the units -/

/-- An ascending write never takes a value away. -/
theorem bufSetFrom_keeps_written {w n : Nat} (i : Nat) (vs : List (BitVec w)) {b : Buf w} (h : Written b n) :
    Written (bufSetFrom i vs b) n := by
  intro k hk
  rw [bufGet_bufSetFrom]
  split
  · exact Option.some_ne_none _
  · exact h k hk

/-- The elements of an ascending write from element 0 hold values after it. -/
theorem bufSetFrom_written {w : Nat} (vs : List (BitVec w)) (b : Buf w) : Written (bufSetFrom 0 vs b) vs.length := by
  intro k hk
  rw [bufGet_bufSetFrom_zero vs b hk]
  exact Option.some_ne_none _

/-- OPT writes HIST below the trimmed length, which is at most N. -/
theorem DataInv.optimized {s : State} {n l : Nat} (h : DataInv s) (hn : n ≤ s.params.maxSyms) (ht : trimmedLength s.hist n = .ok l) :
    DataInv { s with hist := optimizedHist l s.hist } := by
  obtain ⟨hhist, hlen, hcode, htok⟩ := h.memory
  have hl : 0 + ((optimizeCounts (elements s.hist l)).map (BitVec.ofNat 32)).length ≤ s.params.maxSyms := by
    rw [List.length_map, optimizeCounts_length, elements_length, Nat.zero_add]
    exact le_trans (trimmedLength_ok ht).1 hn
  exact ⟨h.sizes, ⟨bufSetFrom_wf _ hl hhist, hlen, hcode, htok⟩, h.tokens, h.cmin⟩

/-- BUILD writes LEN inside its size and CMIN with a floor. -/
theorem DataInv.lengths {s : State} {depth : List Nat} {cmin : Word} (h : DataInv s) (hd : depth.length ≤ s.params.maxSyms)
    (hc : cmin = 0 ∨ ∃ k < 32, cmin.toNat = 2 ^ k) : DataInv { writeLengths depth s with cmin := cmin } := by
  obtain ⟨hhist, hlen, hcode, htok⟩ := h.memory
  have hl : 0 + (depth.map (BitVec.ofNat 4)).length ≤ s.params.maxSyms := by rwa [List.length_map, Nat.zero_add]
  exact ⟨h.sizes, ⟨hhist, bufSetFrom_wf _ hl hlen, hcode, htok⟩, h.tokens, hc⟩

theorem DataInv.zeroLengths {s : State} {n : Nat} (h : DataInv s) (hn : n ≤ s.params.maxSyms) :
    DataInv { writeLengths (List.replicate n 0) s with cmin := 0 } :=
  h.lengths (by rwa [List.length_replicate]) (.inl rfl)

theorem DataInv.built {s : State} {n j : Nat} (h : DataInv s) (hn : n ≤ s.params.maxSyms) (hj : j ≤ 31) :
    DataInv (builtState n j s) :=
  h.lengths (by rwa [attemptDepths_length, elements_length]) (.inr ⟨j, by omega, ofNat_two_pow_toNat hj⟩)

/-- ASSIGN writes CODE below N. -/
theorem DataInv.assigned {s : State} {n : Nat} (len : Buf 4) (h : DataInv s) (hn : n ≤ s.params.maxSyms) :
    DataInv { s with code := assignedCode n len s.code } := by
  obtain ⟨hhist, hlen, hcode, htok⟩ := h.memory
  have hl : 0 + (elements len n).length ≤ s.params.maxSyms := by rwa [elements_length, Nat.zero_add]
  exact ⟨h.sizes, ⟨hhist, hlen, writeCodes_wf hl hcode, htok⟩, h.tokens, h.cmin⟩

/-- TOKENIZE writes at most TOK_ENTRIES tokens; those counted before still hold values. -/
theorem DataInv.tokensWritten {s : State} {xs : List Token} (h : DataInv s) (hx : xs.length ≤ s.params.tokEntries) :
    DataInv { s with tok := bufSetFrom 0 (xs.map Token.word) s.tok } := by
  obtain ⟨hhist, hlen, hcode, htok⟩ := h.memory
  obtain ⟨hcnt, hw⟩ := h.tokens
  have hl : 0 + (xs.map Token.word).length ≤ s.params.tokEntries := by rwa [List.length_map, Nat.zero_add]
  exact ⟨h.sizes, ⟨hhist, hlen, hcode, bufSetFrom_wf _ hl htok⟩, ⟨hcnt, bufSetFrom_keeps_written _ _ hw⟩, h.cmin⟩

/-- TOKCNT counts the tokens that a successful TOKENIZE has written; a stream is no longer than MAXTOK, so TOKCNT holds its length. -/
theorem DataInv.tokensCounted {s : State} {xs : List Token} (h : DataInv s) (hx : xs.length ≤ s.params.tokEntries)
    (hfit : xs.length < 2 ^ 32) :
    DataInv { s with tok := bufSetFrom 0 (xs.map Token.word) s.tok, tokcnt := BitVec.ofNat 32 xs.length } := by
  have hcnt : (BitVec.ofNat 32 xs.length).toNat = xs.length := by rw [BitVec.toNat_ofNat, Nat.mod_eq_of_lt hfit]
  have hw : Written (bufSetFrom 0 (xs.map Token.word) s.tok) xs.length := by
    have := bufSetFrom_written (xs.map Token.word) s.tok
    rwa [List.length_map] at this
  refine ⟨h.sizes, (h.tokensWritten hx).memory, ?_, h.cmin⟩
  rw [hcnt]
  exact ⟨hx, hw⟩

/-! ### The commands -/

theorem TurnedAway.inv {bad : Bool} {s t : State} (ht : TurnedAway bad s t) (h : Inv s) : Inv t := by
  rcases ht with ⟨-, rfl⟩ | ⟨-, -, rfl⟩
  · exact h
  · exact h.data.inv_faulted (by decide) (by decide)

theorem exec_opt_inv {s t : State} (hi : Inv s) (h : exec .opt s = .next t) : Inv t := by
  rcases exec_opt_next h with h | ⟨-, hN, ⟨rfl, -⟩ | ⟨l, -, -, rfl⟩ | ⟨l, ht, -, -, -, rfl⟩⟩
  · exact h.inv hi
  · exact hi.data.inv_ended (endState_allZero s)
  · exact hi.data.inv_ended (endState_fail s)
  · exact (hi.data.optimized (badN_eq_false.1 hN) ht).inv_ended (endState_success _)

theorem exec_build_inv {s t : State} (hi : Inv s) (h : exec .build s = .next t) : Inv t := by
  rcases exec_build_next h with h | ⟨-, hN, -, -, ⟨-, rfl⟩ | ⟨-, ⟨-, rfl⟩ | ⟨-, rfl⟩ | ⟨j, hj, -, -, rfl⟩⟩⟩
  · exact h.inv hi
  · exact (hi.data.zeroLengths (badN_eq_false.1 hN)).inv_ended (endState_allZero _)
  · exact hi.data.inv_faulted (by decide) (by decide)
  · exact hi.data.inv_ended (endState_fail s)
  · exact (hi.data.built (badN_eq_false.1 hN) hj).inv_ended (endState_success _)

theorem exec_assign_inv {s t : State} (hi : Inv s) (h : exec .assign s = .next t) : Inv t := by
  rcases exec_assign_next h with h | ⟨-, hN, -, -, rfl⟩
  · exact h.inv hi
  · exact (hi.data.assigned s.len (badN_eq_false.1 hN)).inv_ended (endState_success _)

theorem exec_tokenize_inv {s t : State} (hi : Inv s) (h : exec .tokenize s = .next t) : Inv t := by
  rcases exec_tokenize_next h with h | ⟨-, -, hM, ⟨-, hl, -, rfl⟩ | ⟨-, xs, -, rfl⟩⟩
  · exact h.inv hi
  · have hm := badM_eq_false.1 hM
    exact (hi.data.tokensCounted (le_trans hl hm) (lt_of_le_of_lt hl s.maxtok.isLt)).inv_ended (endState_success _)
  · have hm := badM_eq_false.1 hM
    exact (hi.data.tokensWritten (le_trans (List.length_take_le _ _) hm)).inv_faulted (by decide) (by decide)

theorem exec_buildcodes_inv {s t : State} (hi : Inv s) (h : exec .buildcodes s = .next t) : Inv t := by
  rcases exec_buildcodes_next h with h | ⟨-, hN, -, ⟨rfl, -⟩ | ⟨l, -, -, rfl⟩ | ⟨l, s1, ht, -, -, -, rfl, h⟩⟩
  · exact h.inv hi
  · exact (hi.data.zeroLengths (badN_eq_false.1 hN)).inv_ended (endState_allZero _)
  · exact hi.data.inv_ended (endState_fail s)
  · have hn := badN_eq_false.1 hN
    have h1 := hi.data.optimized hn ht
    rcases h with ⟨-, rfl⟩ | ⟨-, rfl⟩ | ⟨j, hj, -, -, rfl⟩
    · exact h1.inv_faulted (by decide) (by decide)
    · exact h1.inv_ended (endState_fail _)
    · exact ((h1.built hn hj).assigned _ hn).inv_ended (endState_success _)

theorem exec_command_inv {i : Instr} {s t : State} (hi : i ∈ hostCommands) (hs : Inv s) (h : exec i s = .next t) : Inv t := by
  simp only [hostCommands, List.mem_cons, List.not_mem_nil, or_false] at hi
  rcases hi with rfl | rfl | rfl | rfl | rfl
  · exact exec_opt_inv hs h
  · exact exec_build_inv hs h
  · exact exec_assign_inv hs h
  · exact exec_tokenize_inv hs h
  · exact exec_buildcodes_inv hs h

/-! ### The other moves -/

/-- The invariant does not speak of what is not the block's: the moves to come, the values read and the reference expander. -/
theorem Inv.withOutside {s : State} (h : Inv s) (moves : List HostMove) (reads : List Word) (out : List Len) (prev : Len) :
    Inv { s with host := moves, reads := reads, expOut := out, expPrev := prev } :=
  ⟨h.sizes, h.memory, h.ends, h.tokens, h.cmin⟩

/-- The registers a host can write are none of those the invariant speaks of. -/
theorem writeRegister_inv {reg : Nat} {v : Word} {s : State} (h : Inv s) : Inv (writeRegister reg v s) := by
  unfold writeRegister
  split <;> exact ⟨h.sizes, h.memory, h.ends, h.tokens, h.cmin⟩

theorem writeElement_inv {space : Space} {i : Nat} {v : Word} {s : State} (h : Inv s) : Inv (writeElement space i v s) where
  sizes := by rw [writeElement_params]; exact h.sizes
  memory := writeElement_wf h.memory
  ends := by simp only [EndState, writeElement_phase, writeElement_cause, writeElement_status]; exact h.ends
  tokens := by
    obtain ⟨hcnt, hw⟩ := h.tokens
    rw [writeElement_tokcnt, writeElement_params]
    exact ⟨hcnt, writeElement_written hw⟩
  cmin := by rw [writeElement_cmin]; exact h.cmin

theorem resetBlock_inv {s : State} (h : Inv s) : Inv (resetBlock s) where
  sizes := h.sizes
  memory := resetBlock_wf s
  ends := .inl ⟨rfl, rfl, .inl rfl⟩
  tokens := ⟨Nat.zero_le _, fun i hi => absurd hi (Nat.not_lt_zero i)⟩
  cmin := .inl rfl

/-! ### The obligation -/

/-- Settles O14: each of the things a step can do keeps every clause of the invariant. -/
theorem invariantKeptByEveryStep : Obligations.InvariantKeptByEveryStep := by
  intro s t hs h
  rcases step_next h with rfl | ⟨move, rest, -, u, rfl, hmove⟩
  · exact hs
  have hu : Inv { s with host := rest } := hs.withOutside rest s.reads s.expOut s.expPrev
  rcases hmove with ⟨i, hi, h⟩ | ⟨-, rfl⟩ | ⟨reg, v, rfl⟩ | ⟨space, i, v, rfl⟩ | ⟨v, rfl⟩ | ⟨-, rfl⟩ |
    (⟨v, rfl⟩ | ⟨v, k, rfl⟩) | rfl | rfl
  · exact exec_command_inv hi hu h
  · exact hu.data.inv_faulted (c := .illegalCmd) (by decide) (by decide)
  · exact writeRegister_inv hu
  · exact writeElement_inv hu
  · exact hu.withOutside _ _ _ _
  · exact resetBlock_inv hu
  · exact hu.withOutside _ _ _ _
  · exact hu.withOutside _ _ _ _
  · exact hu.withOutside _ _ _ _
  · exact hu

end Sys2Proof.Machine
end

section
/-! Unwritten elements (spec/20_memory.md R62): which element a command is refused for, and that a command that succeeds has read
only elements that hold values. -/

namespace Sys2Proof.Machine

/-! ### The reads that meet an unwritten element -/

/-- The downward trim stops at an unwritten element when it has read only zeros before it (log entry 11). -/
theorem trimmedLength_eq_error {hist : Buf 32} {n k : Nat} (hk : k < n) (hnone : bufGet k hist = none)
    (hz : ∀ j < n, k < j → bufGet j hist = some 0) : trimmedLength hist n = .error k := by
  induction n with
  | zero => exact absurd hk (Nat.not_lt_zero k)
  | succ n ih =>
    rw [trimmedLength]
    by_cases hkn : k = n
    · subst hkn
      rw [hnone]
    · rw [hz n (Nat.lt_succ_self n) (by omega)]
      exact ih (by omega) fun j hj => hz j (Nat.lt_succ_of_lt hj)

/-- The upward read of `B[0 .. n-1]` stops at the first unwritten element. -/
theorem bufRead_zero_eq_error {w n k : Nat} {b : Buf w} (hk : k < n) (hnone : bufGet k b = none) (hw : Written b k) :
    bufRead b 0 n = .error k :=
  bufRead_error_iff.2 ⟨Nat.zero_le k, by omega, hnone, fun j _ hj => hw j hj⟩

/-! ### The bodies of the commands -/

theorem runOpt_refused_by_trim {n k : Nat} {s : State} (hk : k < n) (hnone : bufGet k s.hist = none)
    (hz : ∀ j < n, k < j → bufGet j s.hist = some 0) : runOpt n s = .refused (.unwrittenElement .hist k) := by
  rw [runOpt, trimmedLength_eq_error hk hnone hz]

/-- Where the trim ends above it, an unwritten element is met by the passes over `HIST[0 .. L-1]`, if the scratch array holds `L` bits. -/
theorem runOpt_refused_below {n k l : Nat} {s : State} (ht : trimmedLength s.hist n = .ok (l + 1)) (hs : l + 1 ≤ s.params.scratchBits)
    (hk : k < l + 1) (hnone : bufGet k s.hist = none) (hw : Written s.hist k) :
    runOpt n s = .refused (.unwrittenElement .hist k) := by
  rw [runOpt, ht]
  simp only [if_neg (Nat.not_lt.2 hs), bufRead_zero_eq_error hk hnone hw]

theorem runBuild_refused {n d k : Nat} {s : State} (hk : k < n) (hnone : bufGet k s.hist = none) (hw : Written s.hist k) :
    runBuild n d s = .refused (.unwrittenElement .hist k) := by
  rw [runBuild, bufRead_zero_eq_error hk hnone hw]

theorem runAssign_refused {n k : Nat} {s : State} (hk : k < n) (hnone : bufGet k s.len = none) (hw : Written s.len k) :
    runAssign n s = .refused (.unwrittenElement .len k) := by
  rw [runAssign, bufRead_zero_eq_error hk hnone hw]

/-- Below an unwritten `LEN[k]` there are at most `k` tokens, so with `MAXTOK >= k` the bound is not reached before it. -/
theorem runTokenize_refused {n m k : Nat} {s : State} (hk : k < n) (hm : k ≤ m) (hnone : bufGet k s.len = none)
    (hw : Written s.len k) : runTokenize n m s = .refused (.unwrittenElement .len k) := by
  rcases runTokenize_unwritten (m := m) hk hnone hw with h | ⟨xs, -, hlt, hle⟩
  · exact h
  · omega

/-- A refusal of the OPT phase is BUILDCODES's (spec/44_sequencer.md R202). -/
theorem runBuildCodes_refused {n d : Nat} {s : State} {r : Refusal} (h : runOpt n (enterPhase .opt s) = .refused r) :
    runBuildCodes n d s = .refused r := by
  rw [runBuildCodes, h]; rfl

theorem runCommand_refused {bad : Bool} {body : State → UnitEnd} {s : State} {r : Refusal} (hr : Ready s) (hbad : bad = false)
    (h : body (acceptCommand s) = .refused r) : runCommand bad body s = .refused r := by
  rw [hbad, runCommand_ready hr, h]; rfl

/-! ### The commands on an unwritten element -/

/-- OPT, and BUILDCODES by its first phase, are refused together. -/
theorem exec_opt_and_buildcodes_refused {s : State} {r : Refusal} (hr : Ready s) (hn : s.n.toNat ≤ s.params.maxSyms)
    (h : ∀ u : State, u.hist = s.hist → u.params = s.params → runOpt s.n.toNat u = .refused r) :
    exec .opt s = .refused r ∧ (s.dlim ≠ 0 → exec .buildcodes s = .refused r) := by
  have hN := badN_eq_false.2 hn
  refine ⟨?_, fun hd => ?_⟩
  · rw [exec_opt]
    exact runCommand_refused hr hN (h _ rfl rfl)
  · rw [exec_buildcodes]
    exact runCommand_refused hr (Bool.or_eq_false_iff.2 ⟨hN, badD_eq_false.2 hd⟩) (runBuildCodes_refused (h _ rfl rfl))

theorem exec_opt_refused_by_trim {s : State} {k : Nat} (hr : Ready s) (hn : s.n.toNat ≤ s.params.maxSyms) (hk : k < s.n.toNat)
    (hnone : bufGet k s.hist = none) (hz : ∀ j < s.n.toNat, k < j → bufGet j s.hist = some 0) :
    exec .opt s = .refused (.unwrittenElement .hist k) ∧
      (s.dlim ≠ 0 → exec .buildcodes s = .refused (.unwrittenElement .hist k)) :=
  exec_opt_and_buildcodes_refused hr hn fun _ hh _ => runOpt_refused_by_trim hk (by rw [hh]; exact hnone) (by rw [hh]; exact hz)

theorem exec_opt_refused_below {s : State} {k l : Nat} {c : Count} (hr : Ready s) (hn : s.n.toNat ≤ s.params.maxSyms) (hkl : k < l)
    (hl : l < s.n.toNat) (hnone : bufGet k s.hist = none) (hw : Written s.hist k) (hc : bufGet l s.hist = some c) (hc0 : c ≠ 0)
    (hz : ∀ j < s.n.toNat, l < j → bufGet j s.hist = some 0) (hs : l + 1 ≤ s.params.scratchBits) :
    exec .opt s = .refused (.unwrittenElement .hist k) ∧
      (s.dlim ≠ 0 → exec .buildcodes s = .refused (.unwrittenElement .hist k)) := by
  have ht : trimmedLength s.hist s.n.toNat = .ok (l + 1) :=
    trimmedLength_eq hl (fun j h1 h2 => hz j h2 h1) (.inr ⟨c, hc0, hc⟩)
  exact exec_opt_and_buildcodes_refused hr hn fun u hh hp =>
    runOpt_refused_below (by rw [hh]; exact ht) (by rw [hp]; exact hs) (by omega) (by rw [hh]; exact hnone) (by rw [hh]; exact hw)

theorem exec_build_refused {s : State} {k : Nat} (hr : Ready s) (hn : s.n.toNat ≤ s.params.maxSyms) (hd : s.dlim ≠ 0)
    (hk : k < s.n.toNat) (hnone : bufGet k s.hist = none) (hw : Written s.hist k) :
    exec .build s = .refused (.unwrittenElement .hist k) := by
  rw [exec_build]
  exact runCommand_refused hr (Bool.or_eq_false_iff.2 ⟨badN_eq_false.2 hn, badD_eq_false.2 hd⟩) (runBuild_refused hk hnone hw)

theorem exec_assign_refused {s : State} {k : Nat} (hr : Ready s) (hn : s.n.toNat ≤ s.params.maxSyms) (hk : k < s.n.toNat)
    (hnone : bufGet k s.len = none) (hw : Written s.len k) : exec .assign s = .refused (.unwrittenElement .len k) := by
  rw [exec_assign]
  exact runCommand_refused hr (badN_eq_false.2 hn) (runAssign_refused hk hnone hw)

theorem exec_tokenize_refused {s : State} {k : Nat} (hr : Ready s) (hn : s.n.toNat ≤ s.params.maxSyms)
    (hm : s.maxtok.toNat ≤ s.params.tokEntries) (hk : k < s.n.toNat) (hkm : k ≤ s.maxtok.toNat) (hnone : bufGet k s.len = none)
    (hw : Written s.len k) : exec .tokenize s = .refused (.unwrittenElement .len k) := by
  rw [exec_tokenize]
  exact runCommand_refused hr (Bool.or_eq_false_iff.2 ⟨badN_eq_false.2 hn, badM_eq_false.2 hm⟩)
    (runTokenize_refused hk hkm hnone hw)

/-! ### The commands that succeed -/

/-- OK is 0 in the FAULT state that a command enters. -/
theorem faulted_not_ok (c : Cause) (s : State) : ¬(faulted c s).ok = true := Bool.eq_false_iff.1 (raiseFault_ok s c)

theorem ended_fail_not_ok (s : State) : ¬(ended 0x2 1 .idle s).ok = true := Bool.eq_false_iff.1 (endFail_ok s .alloc)

/-- A ready block that turns a command away does not report success. -/
theorem TurnedAway.not_ok {bad : Bool} {s t : State} (h : TurnedAway bad s t) (hr : Ready s) : ¬t.ok = true := by
  rcases h with ⟨hf, -⟩ | ⟨-, -, rfl⟩
  · exact absurd hf hr.1
  · exact faulted_not_ok .badOperand s

theorem written_of_zeros {w n : Nat} {b : Buf w} (h : ∀ i < n, bufGet i b = some 0) : Written b n := fun i hi => by
  rw [h i hi]; exact Option.some_ne_none _

theorem exec_opt_ok_written {s t : State} (hr : Ready s) (h : exec .opt s = .next t) (hok : t.ok = true) :
    Written s.hist s.n.toNat := by
  rcases exec_opt_next h with h | ⟨-, -, ⟨-, hz⟩ | ⟨l, -, -, rfl⟩ | ⟨l, -, -, -, hw, -⟩⟩
  · exact absurd hok (h.not_ok hr)
  · exact written_of_zeros hz
  · exact absurd hok (ended_fail_not_ok s)
  · exact hw

theorem exec_build_ok_written {s t : State} (hr : Ready s) (h : exec .build s = .next t) (hok : t.ok = true) :
    Written s.hist s.n.toNat := by
  rcases exec_build_next h with h | ⟨-, -, -, hw, -⟩
  · exact absurd hok (h.not_ok hr)
  · exact hw

theorem exec_buildcodes_ok_written {s t : State} (hr : Ready s) (h : exec .buildcodes s = .next t) (hok : t.ok = true) :
    Written s.hist s.n.toNat := by
  rcases exec_buildcodes_next h with h | ⟨-, -, -, ⟨-, hz⟩ | ⟨l, -, -, rfl⟩ | ⟨l, s1, -, -, -, hw, -⟩⟩
  · exact absurd hok (h.not_ok hr)
  · exact written_of_zeros hz
  · exact absurd hok (ended_fail_not_ok s)
  · exact hw

theorem exec_assign_ok_written {s t : State} (hr : Ready s) (h : exec .assign s = .next t) (hok : t.ok = true) :
    Written s.len s.n.toNat := by
  rcases exec_assign_next h with h | ⟨-, -, hw, -⟩
  · exact absurd hok (h.not_ok hr)
  · exact hw

theorem exec_tokenize_ok_written {s t : State} (hr : Ready s) (h : exec .tokenize s = .next t) (hok : t.ok = true) :
    Written s.len s.n.toNat := by
  rcases exec_tokenize_next h with h | ⟨-, -, -, ⟨hw, -⟩ | ⟨-, xs, -, rfl⟩⟩
  · exact absurd hok (h.not_ok hr)
  · exact hw
  · exact absurd hok (faulted_not_ok _ _)

/-! ### The obligation -/

/-- Settles O21: each command's first read without a value ends it, and each of its successes comes after all its reads. -/
theorem unwrittenElementRefused : Obligations.UnwrittenElementRefused := by
  refine ⟨?_, ?_, ?_⟩
  · intro s k hr hn hk
    refine ⟨?_, ?_, ?_, ?_, ?_⟩
    · exact fun hnone hz => (exec_opt_refused_by_trim hr hn hk hnone hz).1
    · exact fun hnone hz hd => (exec_opt_refused_by_trim hr hn hk hnone hz).2 hd
    · exact fun hnone hw hd => exec_build_refused hr hn hd hk hnone hw
    · exact fun hnone hw => exec_assign_refused hr hn hk hnone hw
    · exact fun hnone hw hkm hm => exec_tokenize_refused hr hn hm hk hkm hnone hw
  · intro s k l c hr hn hkl hl hnone hw hc hc0 hz hs
    exact exec_opt_refused_below hr hn hkl hl hnone hw hc hc0 hz hs
  · intro s t hr
    refine ⟨fun i hi h hok => ?_, fun i hi h hok => ?_⟩
    · simp only [List.mem_cons, List.not_mem_nil, or_false] at hi
      rcases hi with rfl | rfl | rfl
      · exact exec_opt_ok_written hr h hok
      · exact exec_build_ok_written hr h hok
      · exact exec_buildcodes_ok_written hr h hok
    · simp only [List.mem_cons, List.not_mem_nil, or_false] at hi
      rcases hi with rfl | rfl
      · exact exec_assign_ok_written hr h hok
      · exact exec_tokenize_ok_written hr h hok

end Sys2Proof.Machine
end

section
/-! The encodings (spec/30_encoding.md R70 to R84): decoder and encoder are inverse to each other, and both agree with the masks and
patterns of spec/opcode_table.json. -/

namespace Sys2Proof

/-! ### Decoder and encoder -/

/-- A command word with `RSV` 0 is its `OP` field. -/
theorem ofNat_op_eq {w : Word} {op : Nat} (hrsv : ¬w.toNat / 16 ≠ 0) (hop : w.toNat % 16 = op) : BitVec.ofNat 32 op = w := by
  have hw : op = w.toNat := by omega
  rw [hw, BitVec.ofNat_toNat, BitVec.setWidth_eq]

theorem encode_of_decodeCommand {w : Word} {i : Instr} (h : decodeCommand w = .ok i) :
    i.wellFormed = true ∧ encode i = .command w := by
  rw [decodeCommand_eq] at h
  split at h
  · cases h
  · rename_i hrsv
    split at h <;> cases h <;> rename_i hop <;> exact ⟨rfl, congrArg InstrWord.command (ofNat_op_eq hrsv hop)⟩

theorem encode_of_decodeToken {w : TokWord} {i : Instr} (h : decodeToken w = .ok i) :
    i.wellFormed = true ∧ encode i = .token w := by
  rw [decodeToken] at h
  split at h
  · cases h
  · rename_i hres
    obtain ⟨-, hwf, henc⟩ := tokenOfFields_ok h
    exact ⟨hwf, henc.trans (congrArg InstrWord.token (eq_tokenWord_of_reserved hres).1.symm)⟩

/-- An escape decodes from its fields, since `extra_bits` in the range of R81 fits the seven bits of EXTRA. -/
theorem decode_encode_of_fields {i : Instr} {code extra : Nat} (hc : code < 32) (he : extra < 128)
    (henc : encode i = .token (tokenWord code extra)) (hi : tokenOfFields code extra = .ok i) : decode (encode i) = .ok i := by
  rw [henc, decode, decodeToken_tokenWord hc he, hi]

theorem decode_encode {i : Instr} (h : i.wellFormed = true) : decode (encode i) = .ok i := by
  cases i with
  | rep extra =>
    have he : extra ≤ 3 := of_decide_eq_true h
    exact decode_encode_of_fields (by decide) (by omega) rfl (if_pos h)
  | zrep extra =>
    have he : extra ≤ 7 := of_decide_eq_true h
    exact decode_encode_of_fields (by decide) (by omega) rfl (if_pos h)
  | zrepl extra =>
    have he : extra ≤ 127 := of_decide_eq_true h
    exact decode_encode_of_fields (by decide) (by omega) rfl (if_pos h)
  | _ => rfl

/-! ### The rows of the opcode table -/

/-- Every instruction's word matches the row that bears its mnemonic. -/
theorem encode_matches_row (i : Instr) : Laws.TableRow.Statement i := by
  cases i with
  | rep extra => exact Laws.TableRow.rep extra
  | zrep extra => exact Laws.TableRow.zrep extra
  | zrepl extra => exact Laws.TableRow.zrepl extra
  | _ => unfold Laws.TableRow.Statement; decide

theorem row_eq_of_mnemonic : ∀ row ∈ commandRows ++ tokenRows, ∀ row' ∈ commandRows ++ tokenRows,
    row'.mnemonic = row.mnemonic → row' = row := by decide

/-- A word that is the encoding of a row's instruction matches the row. -/
theorem matchesWord_of_mnemonic {row : OpcodeRow} {i : Instr} (hrow : row ∈ commandRows ++ tokenRows) (hwf : i.wellFormed = true)
    (hm : mnemonicOf i = row.mnemonic) : row.matchesWord (Laws.TableRow.tableWord (encode i)).2 = true := by
  obtain ⟨row', hrow', hm', -, hmatch⟩ := encode_matches_row i hwf
  obtain rfl := row_eq_of_mnemonic row hrow row' hrow' (hm'.trans hm)
  exact hmatch

theorem commandRow_spec : ∀ row ∈ commandRows, row.mask = 2 ^ 32 - 1 ∧
    ∃ i ∈ Machine.hostCommands, decodeCommand (BitVec.ofNat 32 row.pattern) = .ok i ∧ mnemonicOf i = row.mnemonic := by decide

/-- A command row's mask is the whole word, so only the row's pattern matches it. -/
theorem decodeCommand_of_matches {row : OpcodeRow} {w : Word} (hrow : row ∈ commandRows) (h : row.matchesWord w.toNat = true) :
    ∃ i, decodeCommand w = .ok i ∧ mnemonicOf i = row.mnemonic := by
  obtain ⟨hmask, i, -, hi, hm⟩ := commandRow_spec row hrow
  have hw : w.toNat = row.pattern := by
    rw [OpcodeRow.matchesWord, hmask, Nat.and_two_pow_sub_one_eq_mod, Nat.mod_eq_of_lt w.isLt] at h
    exact beq_iff_eq.1 h
  rw [← hw, BitVec.ofNat_toNat, BitVec.setWidth_eq] at hi
  exact ⟨i, hi, hm⟩

/-- The sixteen literal tokens. -/
def literals : List Instr :=
  [.lit0, .lit1, .lit2, .lit3, .lit4, .lit5, .lit6, .lit7, .lit8, .lit9, .lit10, .lit11, .lit12, .lit13, .lit14, .lit15]

/-- A token row is that of a literal, whose mask is the whole word, or of one of the three escapes. -/
theorem tokenRow_cases : ∀ row ∈ tokenRows,
    (row.pattern < 256 ∧ row.mask = 0xFF * 256 + 255 ∧
      ∃ i ∈ literals, encode i = .token (tokenWord row.pattern 0) ∧ mnemonicOf i = row.mnemonic) ∨
    row = ⟨"REP", 16, 0xFC * 256 + 255, 16⟩ ∨ row = ⟨"ZREP", 16, 0xF8 * 256 + 255, 17⟩ ∨
    row = ⟨"ZREPL", 16, 0x80 * 256 + 255, 18⟩ := by decide

theorem decodeToken_of_encode {w : TokWord} {i : Instr} (hwf : i.wellFormed = true) (h : encode i = .token w) :
    decodeToken w = .ok i := by
  have hd := decode_encode hwf
  rwa [h] at hd

/-- A token word that matches a row is the row's code with an EXTRA that avoids the row's high-byte mask. -/
theorem fields_of_matches {row : OpcodeRow} {w : TokWord} {m : Nat} (hc : row.pattern < 256) (hmask : row.mask = m * 256 + 255)
    (h : row.matchesWord w.toNat = true) : ∃ extra < 256, extra &&& m = 0 ∧ w = tokenWord row.pattern extra := by
  rw [OpcodeRow.matchesWord, beq_iff_eq, hmask, and_mask_eq_iff hc] at h
  obtain ⟨hcode, hextra⟩ := h
  have hw := w.isLt
  refine ⟨w.toNat / 256, by omega, hextra, BitVec.eq_of_toNat_eq ?_⟩
  rw [tokenWord_toNat hc (by omega)]; omega

theorem decodeToken_of_matches {row : OpcodeRow} {w : TokWord} (hrow : row ∈ tokenRows) (h : row.matchesWord w.toNat = true) :
    ∃ i, decodeToken w = .ok i ∧ mnemonicOf i = row.mnemonic := by
  rcases tokenRow_cases row hrow with ⟨hc, hmask, i, hi, henc, hm⟩ | rfl | rfl | rfl
  · have hwf : i.wellFormed = true := (by decide : ∀ i ∈ literals, i.wellFormed = true) i hi
    obtain ⟨extra, hlt, hx, rfl⟩ := fields_of_matches hc hmask h
    obtain rfl := (high_byte_mask extra hlt).1.1 hx
    exact ⟨i, decodeToken_of_encode hwf henc, hm⟩
  · obtain ⟨extra, hlt, hx, rfl⟩ := fields_of_matches (m := 0xFC) (by decide) rfl h
    exact ⟨.rep extra, decodeToken_of_encode (decide_eq_true ((high_byte_mask extra hlt).2.1.1 hx)) rfl, rfl⟩
  · obtain ⟨extra, hlt, hx, rfl⟩ := fields_of_matches (m := 0xF8) (by decide) rfl h
    exact ⟨.zrep extra, decodeToken_of_encode (decide_eq_true ((high_byte_mask extra hlt).2.2.1.1 hx)) rfl, rfl⟩
  · obtain ⟨extra, hlt, hx, rfl⟩ := fields_of_matches (m := 0x80) (by decide) rfl h
    exact ⟨.zrepl extra, decodeToken_of_encode (decide_eq_true ((high_byte_mask extra hlt).2.2.2.1 hx)) rfl, rfl⟩

/-! ### The obligations -/

/-- Settles O1: a fixed word is evaluated, an escape decodes by its two fields. -/
theorem decodeOfEncodeIsIdentity : Obligations.DecodeOfEncodeIsIdentity := fun _ h => decode_encode h

/-- Settles O2: a word that decodes has its reserved bits 0, so it is made of its fields. -/
theorem encodeOfDecodeIsIdentity : Obligations.EncodeOfDecodeIsIdentity := by
  intro w i h
  cases w with
  | command w => exact encode_of_decodeCommand h
  | token w => exact encode_of_decodeToken h

/-- Settles O3: a match gives the fields and so the instruction; an instruction's word matches the row of its mnemonic. -/
theorem decoderAgreesWithOpcodeTable : Obligations.DecoderAgreesWithOpcodeTable := by
  refine ⟨fun w row hrow => ⟨decodeCommand_of_matches hrow, ?_⟩, fun w row hrow => ⟨decodeToken_of_matches hrow, ?_⟩⟩
  · rintro ⟨i, hi, hm⟩
    obtain ⟨hwf, henc⟩ := encode_of_decodeCommand hi
    have hmatch := matchesWord_of_mnemonic (List.mem_append_left _ hrow) hwf hm
    rwa [henc] at hmatch
  · rintro ⟨i, hi, hm⟩
    obtain ⟨hwf, henc⟩ := encode_of_decodeToken hi
    have hmatch := matchesWord_of_mnemonic (List.mem_append_right _ hrow) hwf hm
    rwa [henc] at hmatch

/-- Settles O4: each word is evaluated. -/
theorem wordsOfTheSpecDecode : Obligations.WordsOfTheSpecDecode := by
  unfold Obligations.WordsOfTheSpecDecode; decide

end Sys2Proof
end

section
/-! What a presented word does (spec/30_encoding.md R71, R75, R81, R84) and the frame of the five commands (R74). -/

namespace Sys2Proof.Machine

/-! ### A presented word as a step -/

/-- A move that is no bus move is taken as it is. -/
theorem step_writeCommand {s : State} {w : Word} {rest : List HostMove} (hh : s.host = .writeReg 0 w :: rest) :
    step s = writeCommand w { s with host := rest } := by
  rw [step_cons hh]; rfl

theorem step_presentToken {s : State} {w : TokWord} {rest : List HostMove} (hh : s.host = .token w :: rest) :
    step s = presentToken w { s with host := rest } := by
  rw [step_cons hh]; rfl

theorem writeCommand_ok {w : Word} {i : Instr} (h : decodeCommand w = .ok i) (s : State) : writeCommand w s = exec i s := by
  rw [writeCommand, h]

theorem writeCommand_error {w : Word} {e : Reject} (h : decodeCommand w = .error e) (s : State) :
    writeCommand w s = illegalCommand s := by
  rw [writeCommand, h]

theorem presentToken_ok {w : TokWord} {i : Instr} (h : decodeToken w = .ok i) (s : State) : presentToken w s = exec i s := by
  rw [presentToken, h]

/-- A reserved word in the ready block enters the FAULT state (R75). -/
theorem illegalCommand_ready {s : State} (h : Ready s) : illegalCommand s = .next (raiseFault .illegalCmd s) := by
  rw [illegalCommand, if_neg h.1, if_neg (by simp [h.2])]

/-- `withFetchWord` places the word itself (log entry 2). -/
theorem host_withFetchWord_command (s : State) (w : Word) : (s.withFetchWord 32 w.toNat).host = .writeReg 0 w :: s.host := by
  simp only [State.withFetchWord, BitVec.ofNat_toNat, BitVec.setWidth_eq]

theorem host_withFetchWord_token (s : State) (w : TokWord) : (s.withFetchWord 16 w.toNat).host = .token w :: s.host := by
  simp only [State.withFetchWord, BitVec.ofNat_toNat, BitVec.setWidth_eq]

/-! ### Escapes (R81, U10) -/

theorem runEscape_legal {bound extra : Nat} (h : extra ≤ bound) (expanded : State) : runEscape bound extra expanded = .next expanded :=
  if_pos h

theorem runEscape_reserved {bound extra : Nat} (h : bound < extra) (expanded : State) :
    runEscape bound extra expanded = .refused .reservedToken :=
  if_neg (Nat.not_le.2 h)

/-! ### The frame of the commands -/

/-- A command that ends before its body changes STATUS, CAUSE and PHASE only. -/
theorem TurnedAway.eq_ended {bad : Bool} {s t : State} (h : TurnedAway bad s t) : t = ended t.status t.cause t.phase s := by
  rcases h with ⟨-, rfl⟩ | ⟨-, -, rfl⟩ <;> rfl

/-! ### The obligations -/

/-- Settles O5: the next move is taken as it is, and a word that decodes runs its instruction. -/
theorem stepRunsDecodedInstruction : Obligations.StepRunsDecodedInstruction := by
  refine ⟨?_, ?_, ?_, ?_⟩
  · intro s w i rest hh hi
    rw [step_writeCommand hh, writeCommand_ok hi]
  · intro s w i rest hh hi
    rw [step_presentToken hh, presentToken_ok hi]
  · intro s w i hi
    rw [step_writeCommand (host_withFetchWord_command s w), writeCommand_ok hi]; rfl
  · intro s w i hi
    rw [step_presentToken (host_withFetchWord_token s w), presentToken_ok hi]; rfl

/-- Settles O6: the three conditions are those under which no command decodes, and the ready block then enters the FAULT state. -/
theorem reservedWordRaisesIllegalCommand : Obligations.ReservedWordRaisesIllegalCommand := by
  intro s w rest hr hh hw
  obtain ⟨e, he⟩ := (decodeCommand_error_iff w).2 hw
  have hu : Ready { s with host := rest } := hr
  rw [step_writeCommand hh, writeCommand_error he, illegalCommand_ready hu]; rfl

/-- Settles O15: each end of each command is the state before it with the command's results and STATUS, CAUSE, PHASE written. -/
theorem commandsWriteOnlyTheirResults : Obligations.CommandsWriteOnlyTheirResults := by
  refine ⟨?_, ?_, ?_, ?_, ?_⟩
  · intro s t h
    rcases exec_opt_next h with h | ⟨-, -, ⟨rfl, -⟩ | ⟨l, -, -, rfl⟩ | ⟨l, -, -, -, -, rfl⟩⟩
    · rw [h.eq_ended]
    all_goals rfl
  · intro s t h
    rcases exec_build_next h with h | ⟨-, -, -, -, ⟨-, rfl⟩ | ⟨-, ⟨-, rfl⟩ | ⟨-, rfl⟩ | ⟨j, -, -, -, rfl⟩⟩⟩
    · rw [h.eq_ended]
    all_goals rfl
  · intro s t h
    rcases exec_assign_next h with h | ⟨-, -, -, -, rfl⟩
    · rw [h.eq_ended]
    · rfl
  · intro s t h
    rcases exec_tokenize_next h with h | ⟨-, -, -, ⟨-, -, -, rfl⟩ | ⟨-, xs, -, rfl⟩⟩
    · rw [h.eq_ended]
    all_goals rfl
  · intro s t h
    rcases exec_buildcodes_next h with h | ⟨-, -, -, ⟨rfl, -⟩ | ⟨l, -, -, rfl⟩ |
      ⟨l, s1, -, -, -, -, rfl, ⟨-, rfl⟩ | ⟨-, rfl⟩ | ⟨j, -, -, -, rfl⟩⟩⟩
    · rw [h.eq_ended]
    all_goals rfl

/-- Settles O52: the tokens of every run are legal, and a legal token's word decodes. -/
theorem encodedTokensAreLegal : Obligations.EncodedTokensAreLegal := by
  intro lens hlens x hx
  obtain ⟨i, hi, -⟩ := decodeToken_of_legal (encodeLengths_legal hlens x hx)
  exact ⟨i, hi⟩

/-- Settles O57: each literal's arm is `expandLiteral` of its code length. -/
theorem literalTokensExpand : Obligations.LiteralTokensExpand := by
  intro s
  refine ⟨rfl, fun p hp => ?_⟩
  simp only [List.mem_cons, List.not_mem_nil, or_false] at hp
  rcases hp with rfl | rfl | rfl | rfl | rfl | rfl | rfl | rfl | rfl | rfl | rfl | rfl | rfl | rfl | rfl <;> rfl

/-- Settles O58: each escape's arm tests its bound, then appends its copies. -/
theorem escapeTokensExpand : Obligations.EscapeTokensExpand := by
  intro s extra
  exact ⟨fun h => runEscape_legal h _, fun h => runEscape_legal h _, fun h => runEscape_legal h _,
    fun h => runEscape_reserved h _, fun h => runEscape_reserved h _, fun h => runEscape_reserved h _⟩

end Sys2Proof.Machine
end

section
/-! Byte accesses on the reference map (spec/30_encoding.md R90): which transaction each of them is. -/

namespace Sys2Proof.Machine

/-! ### The ranges of a disjoint map -/

/-- The byte range of an element lies in the range of its space. -/
theorem element_address_lt {p : Config.Params} {m : Config.HostMap} {space : Space} {i : Nat} (hi : i < spaceSize p space) :
    spaceBase m space + elementBytes space * i < spaceBase m space + spaceBytes p space :=
  Nat.add_lt_add_left (Nat.mul_lt_mul_of_pos_left hi (elementBytes_pos space)) _

/-- In a disjoint map the ranges of two spaces share no address. -/
theorem spaces_apart {p : Config.Params} {m : Config.HostMap} (hd : hostMapDisjoint p m) {a b : Space} (hne : a ≠ b) :
    rangesApart (spaceBase m a) (spaceBytes p a) (spaceBase m b) (spaceBytes p b) := by
  have hmem : ∀ c : Space, c ∈ [Space.hist, .len, .code, .tok] := fun c => by cases c <;> decide
  have hsymm : Std.Symm fun a b => rangesApart (spaceBase m a) (spaceBytes p a) (spaceBase m b) (spaceBytes p b) :=
    ⟨fun _ _ => Or.symm⟩
  exact hd.2.forall (hmem a) (hmem b) hne

/-- In a disjoint map the REG range shares no address with a space. -/
theorem registers_apart {p : Config.Params} {m : Config.HostMap} (hd : hostMapDisjoint p m) (space : Space) :
    rangesApart m.regBase 32 (spaceBase m space) (spaceBytes p space) :=
  hd.1 space (by cases space <;> decide)

/-! ### The target of an access -/

/-- An access at an element of one space, at no register and at no element of another space, is that element's. -/
theorem busTarget_of_elementAt {p : Config.Params} {m : Config.HostMap} {space : Space} {addr bytes i : Nat} (hm : p.hostMap = some m)
    (hreg : elementAt m.regBase 4 8 addr bytes = none)
    (hother : ∀ space' ≠ space, elementAt (spaceBase m space') (elementBytes space') (spaceSize p space') addr bytes = none)
    (hown : elementAt (spaceBase m space) (elementBytes space) (spaceSize p space) addr bytes = some i) :
    busTarget p addr bytes = .element space i := by
  simp only [busTarget, hm, hreg]
  cases space with
  | hist => simp only [hown]
  | len => simp only [hother .hist (by decide), hown]
  | code => simp only [hother .hist (by decide), hother .len (by decide), hown]
  | tok => simp only [hother .hist (by decide), hother .len (by decide), hother .code (by decide), hown]

/-- On a disjoint map an access of an element's size at its address is that element's (R90). -/
theorem busTarget_element {p : Config.Params} {m : Config.HostMap} {space : Space} {i : Nat} (hm : p.hostMap = some m)
    (hd : hostMapDisjoint p m) (hi : i < spaceSize p space) :
    busTarget p (spaceBase m space + elementBytes space * i) (elementBytes space) = .element space i := by
  refine busTarget_of_elementAt hm ?_ (fun space' hne => ?_) ((elementAt_eq_some (elementBytes_pos space)).2 ⟨rfl, rfl, hi⟩)
  · exact elementAt_apart (by decide) (Nat.le_add_right _ _) (element_address_lt hi) (registers_apart hd space)
  · exact elementAt_apart (elementBytes_pos space') (Nat.le_add_right _ _) (element_address_lt hi) (spaces_apart hd hne)

/-- The registers come first in the order of preference, so no disjointness is needed (log entry 13). -/
theorem busTarget_register {p : Config.Params} {m : Config.HostMap} {reg : Nat} (hm : p.hostMap = some m) (hreg : reg < 8) :
    busTarget p (m.regBase + 4 * reg) 4 = .register reg := by
  have hat : elementAt m.regBase 4 8 (m.regBase + 4 * reg) 4 = some reg := (elementAt_eq_some (by decide)).2 ⟨rfl, rfl, hreg⟩
  simp only [busTarget, hm, hat]

/-- Without a map no byte access is an HCB access. -/
theorem busTarget_no_map {p : Config.Params} (hm : p.hostMap = none) (addr bytes : Nat) : busTarget p addr bytes = .other := by
  simp only [busTarget, hm]

/-- An access that has the size and the address of no register and of no element is no HCB access. -/
theorem busTarget_elsewhere {p : Config.Params} {addr bytes : Nat}
    (h : ∀ m, p.hostMap = some m →
      (∀ reg < 8, ¬(bytes = 4 ∧ addr = m.regBase + 4 * reg)) ∧
      (∀ (space : Space) (i : Nat), i < spaceSize p space →
        ¬(bytes = elementBytes space ∧ addr = spaceBase m space + elementBytes space * i))) :
    busTarget p addr bytes = .other := by
  cases hm : p.hostMap with
  | none => exact busTarget_no_map hm addr bytes
  | some m =>
    obtain ⟨hreg, helem⟩ := h m hm
    exact (busTarget_eq_other hm).2 ⟨(elementAt_eq_none (by decide)).2 hreg,
      fun space => (elementAt_eq_none (elementBytes_pos space)).2 (helem space)⟩

/-! ### A bus move as a transaction -/

theorem resolveMove_busWrite_element {p : Config.Params} {addr bytes i : Nat} {data : List Byte} {space : Space}
    (hlen : data.length = bytes) (h : busTarget p addr bytes = .element space i) :
    resolveMove p (.busWrite addr data) = some (.writeElem space i (BitVec.ofNat 32 (littleEndian data))) := by
  rw [resolveMove, hlen, h]

theorem resolveMove_busRead_element {p : Config.Params} {addr bytes i : Nat} {space : Space}
    (h : busTarget p addr bytes = .element space i) : resolveMove p (.busRead addr bytes) = some (.readElem space i) := by
  rw [resolveMove, h]

theorem resolveMove_busWrite_register {p : Config.Params} {addr bytes reg : Nat} {data : List Byte}
    (hlen : data.length = bytes) (h : busTarget p addr bytes = .register reg) :
    resolveMove p (.busWrite addr data) = some (.writeReg reg (BitVec.ofNat 32 (littleEndian data))) := by
  rw [resolveMove, hlen, h]

theorem resolveMove_busRead_register {p : Config.Params} {addr bytes reg : Nat} (h : busTarget p addr bytes = .register reg) :
    resolveMove p (.busRead addr bytes) = some (.readReg reg) := by
  rw [resolveMove, h]

theorem resolveMove_busWrite_other {p : Config.Params} {addr bytes : Nat} {data : List Byte} (hlen : data.length = bytes)
    (h : busTarget p addr bytes = .other) :
    resolveMove p (.busWrite addr data) = none := by
  rw [resolveMove, hlen, h]

theorem resolveMove_busRead_other {p : Config.Params} {addr bytes : Nat} (h : busTarget p addr bytes = .other) :
    resolveMove p (.busRead addr bytes) = none := by
  rw [resolveMove, h]

/-! ### The obligations -/

/-- Settles O20: on a disjoint map no other range holds the address, so the access resolves to the transaction on that element or
register. -/
theorem referenceMapReachesEveryElement : Obligations.ReferenceMapReachesEveryElement := by
  intro s m rest hm hd
  refine ⟨fun space i hi => ?_, fun reg hreg => ?_⟩
  · have htarget := busTarget_element hm hd hi
    have hread := resolveMove_busRead_element htarget
    refine ⟨fun data hlen => ?_, hread, step_resolved hread rfl⟩
    have hwrite := resolveMove_busWrite_element hlen htarget
    exact ⟨hwrite, step_resolved hwrite rfl⟩
  · have htarget := busTarget_register hm hreg
    have hread := resolveMove_busRead_register htarget
    refine ⟨fun data hlen => ?_, hread, step_resolved hread rfl⟩
    have hwrite := resolveMove_busWrite_register hlen htarget
    exact ⟨hwrite, step_resolved hwrite rfl⟩

/-- Settles O59: the access falls on no register and no element, so it resolves to no transaction. -/
theorem otherBusAccessChangesNothing : Obligations.OtherBusAccessChangesNothing := by
  intro s addr size rest h
  have htarget := busTarget_elsewhere h
  refine ⟨step_unresolved (resolveMove_busRead_other htarget), fun data hlen => ?_⟩
  exact step_unresolved (resolveMove_busWrite_other hlen htarget)

end Sys2Proof.Machine
end

section
/-! OPT as a command (spec/40_optimizer.md R100 to R104, R112, R113): its end in each of its three cases, and that an all-good histogram
keeps its counts. -/

namespace Sys2Proof.Machine

/-! ### The ends of OPT -/

/-- Past its operand check OPT ends as its body does. -/
theorem exec_opt_ready {s : State} (hr : Ready s) (hn : s.n.toNat ≤ s.params.maxSyms) :
    exec .opt s = finish (runOpt s.n.toNat (enterPhase .opt (acceptCommand s))) := by
  rw [exec_opt, badN_eq_false.2 hn, runCommand_ready hr]; rfl

theorem exec_opt_allZero {s : State} (hr : Ready s) (hn : s.n.toNat ≤ s.params.maxSyms)
    (hz : ∀ i < s.n.toNat, bufGet i s.hist = some 0) : exec .opt s = .next (ended 0xE 0 .idle s) := by
  rw [exec_opt_ready hr hn, runOpt_allZero (by exact hz)]; rfl

theorem exec_opt_alloc {s : State} {l : Nat} (hr : Ready s) (hn : s.n.toNat ≤ s.params.maxSyms)
    (ht : trimmedLength s.hist s.n.toNat = .ok l) (hl : s.params.scratchBits < l) :
    exec .opt s = .next (ended 0x2 1 .idle s) := by
  rw [exec_opt_ready hr hn, runOpt_alloc (s := enterPhase .opt (acceptCommand s)) ht hl]; rfl

theorem exec_opt_success {s : State} {l : Nat} (hr : Ready s) (hn : s.n.toNat ≤ s.params.maxSyms) (hw : Written s.hist s.n.toNat)
    (ht : trimmedLength s.hist s.n.toNat = .ok l) (h0 : l ≠ 0) (hl : l ≤ s.params.scratchBits) :
    exec .opt s = .next (ended 0x6 0 .idle { s with hist := optimizedHist l s.hist }) := by
  rw [exec_opt_ready hr hn, runOpt_success (s := enterPhase .opt (acceptCommand s)) ht h0 hl hw]; rfl

/-- After a success the block takes the next command. -/
theorem ready_ended_success (s : State) : Ready (ended 0x6 0 .idle s) := ⟨Phase.noConfusion, endSuccess_busy s false⟩

/-- The cause ALLOC comes only from a trimmed length above SCRATCH_BITS (R104). -/
theorem exec_opt_cause_alloc {s t : State} (hr : Ready s) (h : exec .opt s = .next t) (hc : t.cause = 1) :
    ∃ l, s.n.toNat ≤ s.params.maxSyms ∧ trimmedLength s.hist s.n.toNat = .ok l ∧ s.params.scratchBits < l := by
  rcases exec_opt_next h with (⟨hf, -⟩ | ⟨-, -, rfl⟩) | ⟨-, hN, ⟨rfl, -⟩ | ⟨l, ht, hl, -⟩ | ⟨l, -, -, -, -, rfl⟩⟩
  · exact absurd hf hr.1
  · exact absurd hc (by decide : causeCode .badOperand ≠ 1)
  · exact absurd hc (by decide : (0 : Word) ≠ 1)
  · exact ⟨l, badN_eq_false.1 hN, ht, hl⟩
  · exact absurd hc (by decide : (0 : Word) ≠ 1)

/-! ### All-good counts -/

theorem optimizeCounts_allGood {h : List Nat} (hg : ∀ g ∈ goodMarks h, g = true) : optimizeCounts h = h := by
  apply List.ext_getElem?
  intro j
  by_cases hj : j < (goodMarks h).length
  · exact optimizeCounts_good (List.getElem?_eq_some_iff.2 ⟨hj, hg _ (List.getElem_mem hj)⟩)
  · rw [goodMarks_length] at hj
    rw [List.getElem?_eq_none (by rw [optimizeCounts_length]; omega), List.getElem?_eq_none (by omega)]

/-- Where the collapse leaves the counts as they are, the buffer keeps its elements. -/
theorem optimizedHist_get_of_fixed {l : Nat} {b : Buf 32} (hw : Written b l) (hfix : optimizeCounts (elements b l) = elements b l)
    (i : Nat) : bufGet i (optimizedHist l b) = bufGet i b := by
  by_cases hi : i < l
  · obtain ⟨v, hv⟩ := Option.ne_none_iff_exists'.1 (hw i hi)
    have hopt := optimizedHist_written (b := b) (n := l) (fun j h1 h2 => absurd h2 (Nat.not_lt.2 h1))
    obtain ⟨u, hu⟩ := Option.ne_none_iff_exists'.1 (hopt i hi)
    have heq : some u.toNat = some v.toNat := by
      rw [← elements_of_get hi hu, ← elements_of_get hi hv, optimizedHist_elements, hfix]
    rw [hu, hv, BitVec.eq_of_toNat_eq (Option.some.inj heq)]
  · exact optimizedHist_get l i b (Nat.not_lt.1 hi)

/-- OPT's success on an all-good trimmed histogram keeps HIST element by element (R113). -/
theorem exec_opt_allGood {s : State} {l : Nat} (hr : Ready s) (hn : s.n.toNat ≤ s.params.maxSyms) (hw : Written s.hist s.n.toNat)
    (hl : IsTrimmedLength (elements s.hist s.n.toNat) l) (h0 : l ≠ 0) (hs : l ≤ s.params.scratchBits)
    (hg : ∀ g ∈ goodMarks (elements s.hist l), g = true) :
    ∃ hist, exec .opt s = .next (ended 0x6 0 .idle { s with hist := hist }) ∧ ∀ i, bufGet i hist = bufGet i s.hist := by
  have ht := trimmedLength_of_isTrimmed hw hl
  have hln := (trimmedLength_ok ht).1
  exact ⟨_, exec_opt_success hr hn hw ht h0 hs,
    optimizedHist_get_of_fixed (fun i hi => hw i (lt_of_lt_of_le hi hln)) (optimizeCounts_allGood hg)⟩

/-! ### The obligations -/

/-- Settles O22: the trimmed length is 0, which ends the body before the scratch array is looked at. -/
theorem optAllZeroSucceeds : Obligations.OptAllZeroSucceeds := fun _ hr hn hz => exec_opt_allZero hr hn hz

/-- Settles O23: the body's success writes the optimized counts below `L`. -/
theorem optCollapsesHistogram : Obligations.OptCollapsesHistogram := by
  intro s l hr hn hw hl h0 hs
  have ht := trimmedLength_of_isTrimmed hw hl
  refine ⟨_, exec_opt_success hr hn hw ht h0 hs, rfl, optimizedHist_elements l s.hist, ?_, fun i hi => optimizedHist_get l i s.hist hi⟩
  exact optimizedHist_written fun j h1 h2 => absurd h2 (Nat.not_lt.2 h1)

/-- Settles O24: the scratch test is the only source of the cause ALLOC, and `L` is at most MAX_SYMS. -/
theorem optFailsWithoutScratch : Obligations.OptFailsWithoutScratch := by
  refine ⟨?_, ?_, ?_⟩
  · intro s l hr hn hw hl hs
    exact exec_opt_alloc hr hn (trimmedLength_of_isTrimmed hw hl) hs
  · intro s t l hr hw hl h hc
    obtain ⟨l', -, ht, hlt⟩ := exec_opt_cause_alloc hr h hc
    rw [trimmedLength_of_isTrimmed hw hl] at ht
    cases ht
    exact hlt
  · intro s t hr hs h hc
    obtain ⟨l, hn, ht, hlt⟩ := exec_opt_cause_alloc hr h hc
    have hln := (trimmedLength_ok ht).1
    omega

/-- Settles O27 from the laws of the collapse: R112 (c) and (e) stride by stride, (f) because a good element is alone in its stride. -/
theorem optKeepsNonzeroAndGoodCounts : Obligations.OptKeepsNonzeroAndGoodCounts := fun h =>
  ⟨optimizeCounts_length h, fun _ _ => optimizeCounts_nonzero, fun _ => optimizeCounts_good, fun _ => collapseStride_le,
    optimizeCounts_le⟩

/-- Settles O28: the first run keeps every element, so the second run meets the same trimmed length and the same marks. -/
theorem optLeavesGoodHistogramUnchanged : Obligations.OptLeavesGoodHistogramUnchanged := by
  intro s l hr hn hw hl h0 hs hg
  obtain ⟨hist, h1, hkeep⟩ := exec_opt_allGood hr hn hw hl h0 hs hg
  have helem : ∀ n, elements hist n = elements s.hist n := fun n => elements_congr fun i _ => hkeep i
  obtain ⟨hist', h2, hkeep'⟩ := exec_opt_allGood (s := ended 0x6 0 .idle { s with hist := hist }) (l := l)
    (ready_ended_success _) hn (fun i hi => by rw [hkeep]; exact hw i hi) (by rw [helem]; exact hl) h0 hs (by rw [helem]; exact hg)
  exact ⟨_, _, h1, hkeep, h2, fun i => (hkeep' i).trans (hkeep i)⟩

end Sys2Proof.Machine
end

section
/-! Pass 2 of OPT as one sweep (spec/40_optimizer.md R105): it marks the runs that the declarative statement marks. -/

namespace Sys2Proof.Machine

/-! ### Writing back over the elements just read -/

/-- `for k in 0 .. stride-1: G[i-k-1] <- x` writes the `stride` elements before position `i` and no other. -/
theorem foldl_set_back {α : Type} (x : α) (a b c : List α) :
    (List.range b.length).foldl (fun g k => g.set (a.length + b.length - k - 1) x) (a ++ (b ++ c)) =
      a ++ (List.replicate b.length x ++ c) := by
  induction b generalizing a with
  | nil => rfl
  | cons y b ih =>
    have hlater := ih (a ++ [y])
    have hlen : (a ++ [y]).length + b.length = a.length + (y :: b).length := by
      simp only [List.length_append, List.length_cons, List.length_nil]; omega
    rw [hlen, List.append_assoc, List.append_assoc] at hlater
    have hfirst : a.length + (y :: b).length - b.length - 1 = a.length := by rw [List.length_cons]; omega
    rw [List.length_cons, List.range_succ, List.foldl_append]
    rw [List.length_cons] at hlater hfirst
    simp only [List.cons_append, List.foldl_cons, List.foldl_nil]
    rw [show a ++ y :: (b ++ c) = a ++ ([y] ++ (b ++ c)) from rfl, hlater, hfirst]
    simp [List.replicate_succ]

theorem markBack_append (a b c : List Bool) :
    markBack (a.length + b.length) b.length (a ++ (b ++ c)) = a ++ (List.replicate b.length true ++ c) :=
  foldl_set_back true a b c

/-! ### The sweep's turns -/

/-- The sweep inside a run of `v`: the runs before it, which cover `p`, are marked, it has met `k` elements of the run, and `m` elements
are to come. -/
def markState (p : List Nat) (v k m : Nat) : MarkState :=
  { good := goodMarks p ++ (List.replicate k false ++ List.replicate m false), symbol := v, stride := k }

/-- The condition under which the sweep marks a run is `goodRun`. -/
theorem goodRun_iff (v k : Nat) : goodRun v k = true ↔ (v = 0 ∧ 5 ≤ k) ∨ (v ≠ 0 ∧ 7 ≤ k) := by
  rw [goodRun]
  split <;> simp [*]

/-- A run at the end of the list is marked as its length says. -/
theorem goodMarks_append_run (p : List Nat) (k v : Nat) (hp : p.getLast? ≠ some v) :
    goodMarks (p ++ List.replicate (k + 1) v) = goodMarks p ++ List.replicate (k + 1) (goodRun v (k + 1)) := by
  have := goodMarks_split p [] k v hp (by simp)
  simpa [goodMarks, cutRuns] using this

/-- At the end of a run the sweep has marked it as R105 says. -/
theorem markTurn_endOfRun {h p : List Nat} {v k m i : Nat} (hi : i = p.length + k) (hend : i = h.length ∨ h.getD i 0 ≠ v) :
    markTurn h (markState p v k m) i =
      { good := goodMarks p ++ (List.replicate k (goodRun v k) ++ List.replicate m false)
        symbol := if i = h.length then v else h.getD i 0
        stride := 1 } := by
  have hback : markBack i k (goodMarks p ++ (List.replicate k false ++ List.replicate m false)) =
      goodMarks p ++ (List.replicate k true ++ List.replicate m false) := by
    have := markBack_append (goodMarks p) (List.replicate k false) (List.replicate m false)
    rwa [goodMarks_length, List.length_replicate, ← hi] at this
  rw [markTurn, markState, if_pos hend]
  simp only [← goodRun_iff, hback]
  cases goodRun v k <;> rfl

/-- Another element of the run. -/
theorem markTurn_inRun {h p : List Nat} {v k m i : Nat} (hi : i < h.length) (hv : h.getD i 0 = v) :
    markTurn h (markState p v k (m + 1)) i = markState p v (k + 1) m := by
  rw [markTurn, if_neg (by simp only [markState]; omega), markState, markState]
  congr 2
  rw [List.replicate_succ' (n := k), List.replicate_succ, List.append_assoc]; rfl

/-- From inside the run of `v` that follows `p`, the sweep marks all of `h`. -/
theorem foldl_markTurn (h rest : List Nat) (p : List Nat) (v k : Nat) (hh : h = p ++ (List.replicate (k + 1) v ++ rest))
    (hp : p.getLast? ≠ some v) :
    ((List.range' (p.length + (k + 1)) (rest.length + 1)).foldl (markTurn h) (markState p v (k + 1) rest.length)).good =
      goodMarks h := by
  induction rest generalizing p v k with
  | nil =>
    have hlen : p.length + (k + 1) = h.length := by rw [hh]; simp
    rw [List.length_nil, List.range'_one, List.foldl_cons, List.foldl_nil, markTurn_endOfRun rfl (.inl hlen), hh, List.append_nil,
      goodMarks_append_run p k v hp]
    exact congrArg (goodMarks p ++ ·) (List.append_nil _)
  | cons x rest ih =>
    have hx : h[p.length + (k + 1)]? = some x := by
      rw [hh, List.getElem?_append_right (by omega), List.getElem?_append_right (by simp)]; simp
    have hD : h.getD (p.length + (k + 1)) 0 = x := by rw [List.getD_eq_getElem?_getD, hx]; rfl
    obtain ⟨hlt, -⟩ := List.getElem?_eq_some_iff.1 hx
    rw [List.range'_succ, List.foldl_cons, List.length_cons]
    by_cases hxv : x = v
    · subst hxv
      rw [markTurn_inRun hlt hD]
      refine ih p x (k + 1) ?_ hp
      rw [hh, List.replicate_succ' (n := k + 1), List.append_assoc]; rfl
    · rw [markTurn_endOfRun rfl (.inr (by rw [hD]; exact hxv)), if_neg (by omega), hD, ← List.append_assoc,
        ← goodMarks_append_run p k v hp]
      have hnext := ih (p ++ List.replicate (k + 1) v) x 0 (by rw [hh, List.append_assoc]; rfl)
        (by simpa [List.replicate_succ'] using Ne.symm hxv)
      rw [List.length_append, List.length_replicate] at hnext
      exact hnext

theorem markSweep_eq_goodMarks {h : List Nat} (hne : h ≠ []) : markSweep h = goodMarks h := by
  obtain ⟨x, rest, rfl⟩ := List.exists_cons_of_ne_nil hne
  have hfirst : markTurn (x :: rest) (markState [] x 0 (rest.length + 1)) 0 = markState [] x 1 rest.length :=
    markTurn_inRun (Nat.succ_pos _) rfl
  have hsweep := foldl_markTurn (x :: rest) rest [] x 0 rfl (by simp)
  rw [Nat.zero_add, ← hfirst, List.length_nil, Nat.zero_add] at hsweep
  rw [markSweep, List.range_eq_range', List.range'_succ, List.foldl_cons]
  exact hsweep

/-! ### The declarative statement -/

/-- An element of a maximal run of `v` is marked as the run's length says. -/
theorem goodMarks_getElem?_maximalRun {h : List Nat} {a b v j : Nat} (hab : a < b) (hb : b ≤ h.length)
    (hrun : ∀ j, a ≤ j → j < b → h[j]? = some v) (hleft : a = 0 ∨ h[a - 1]? ≠ some v) (hright : h[b]? ≠ some v)
    (haj : a ≤ j) (hjb : j < b) : (goodMarks h)[j]? = some (goodRun v (b - a)) := by
  obtain ⟨k, hk⟩ : ∃ k, b = a + (k + 1) := ⟨b - a - 1, by omega⟩
  have hmid : (h.drop a).take (k + 1) = List.replicate (k + 1) v := by
    refine List.ext_getElem? fun m => ?_
    by_cases hm : m < k + 1
    · rw [List.getElem?_take_of_lt hm, List.getElem?_drop, hrun (a + m) (by omega) (by omega), List.getElem?_replicate_of_lt hm]
    · rw [List.getElem?_eq_none (by simp; omega), List.getElem?_eq_none (by simp; omega)]
  have hsplit : h = h.take a ++ (List.replicate (k + 1) v ++ h.drop b) := by
    rw [← hmid, hk, ← List.drop_drop, List.take_append_drop, List.take_append_drop]
  have hp : (h.take a).getLast? ≠ some v := by
    rcases hleft with rfl | hleft
    · simp
    · rw [List.getLast?_take]
      split
      · simp
      · have : h[a - 1]?.or h.getLast? = h[a - 1]? := by
          rw [List.getElem?_eq_getElem (by omega)]; rfl
        rw [this]; exact hleft
  have hq : (h.drop b).head? ≠ some v := by rwa [List.head?_drop]
  have hlen : (goodMarks (h.take a)).length = a := by rw [goodMarks_length, List.length_take]; omega
  have hkb : k + 1 = b - a := by omega
  rw [hsplit, goodMarks_split _ _ _ _ hp hq, List.getElem?_append_right (by omega), hlen,
    List.getElem?_append_left (by rw [List.length_replicate]; omega), List.getElem?_replicate_of_lt (by omega), hkb]

/-- Settles O25: the sweep's state after each element is `markState`, and the marks of a maximal run are those of its length. -/
theorem markSweepComputesGoodRuns : Obligations.MarkSweepComputesGoodRuns := by
  refine ⟨fun h => markSweep_eq_goodMarks, ?_⟩
  intro h a b v hab hb hrun hleft hright j haj hjb
  rw [goodMarks_getElem?_maximalRun hab hb hrun hleft hright haj hjb, Option.some.injEq, goodRun_iff]

end Sys2Proof.Machine
end

section
/-! Pass 3 of OPT as it is printed (spec/40_optimizer.md R107 to R110): the sweep with scalars that writes in place computes
`collapseFrom`. -/

namespace Sys2Proof.Machine

theorem writeBack_append (count : Nat) (a b c : List Nat) :
    writeBack (a.length + b.length) b.length count (a ++ (b ++ c)) = a ++ (List.replicate b.length count ++ c) :=
  foldl_set_back count a b c

/-! ### The sweep's turns -/

/-- The sweep with `done` behind it, the elements of `stride` gathered since the last flush and `rest` to come. -/
def sweepState (done stride rest : List Nat) (limit : Nat) : SweepState :=
  { hist := done ++ (stride ++ rest), stride := stride.length, sum := stride.sum, limit := limit }

/-- The element at the sweep's position is the first of those to come. -/
theorem sweepState_hist_getD (done stride rest : List Nat) (v limit : Nat) :
    (sweepState done stride (v :: rest) limit).hist.getD (done.length + stride.length) 0 = v := by
  rw [sweepState, ← List.append_assoc, List.getD_append_right _ _ _ _ (by simp)]; simp

theorem sweepState_hist_length (done stride rest : List Nat) (limit : Nat) :
    (sweepState done stride rest limit).hist.length = done.length + stride.length + rest.length := by
  simp [sweepState, Nat.add_assoc]

/-- `seed_limit(i)` reads only elements from `i` on (R110). -/
theorem seedLimitAt_append (pre rest : List Nat) : seedLimitAt (pre ++ rest) pre.length = seedLimit rest := by
  have hget : ∀ k, (pre ++ rest).getD (pre.length + k) 0 = rest.getD k 0 := fun k => by
    rw [List.getD_append_right _ _ _ _ (by omega), Nat.add_sub_cancel_left]
  have hget0 := hget 0
  rw [Nat.add_zero] at hget0
  rw [seedLimitAt, hget, hget, hget, hget0, List.length_append]
  match rest with
  | [] => rw [if_neg (by simp), if_neg (by simp)]; rfl
  | [_] | [_, _] | [_, _, _] => rw [if_neg (by simp), if_pos (by simp)]; rfl
  | _ :: _ :: _ :: _ :: _ => rw [if_pos (by simp)]; rfl

/-- The printed three lines for `count` are `collapseCount` (R108). -/
theorem collapseCount_eq (sum stride : Nat) :
    collapseCount sum stride =
      if sum = 0 then 0 else if (sum + stride / 2) / stride < 1 then 1 else (sum + stride / 2) / stride := by
  rw [collapseCount, roundedAverage]
  split
  · rfl
  · split <;> omega

/-- A flush writes `collapseCount` over a stride that collapses, else nothing (R108). -/
theorem flushTurn_hist_eq (st : SweepState) (i : Nat) :
    (flushTurn st i).hist =
      if 4 ≤ st.stride ∨ (3 ≤ st.stride ∧ st.sum = 0) then writeBack i st.stride (collapseCount st.sum st.stride) st.hist
      else st.hist := by
  rw [collapseCount_eq]; rfl

theorem flushTurn_hist (done stride rest : List Nat) (limit : Nat) :
    (flushTurn (sweepState done stride rest limit) (done.length + stride.length)).hist = done ++ (collapseStride stride ++ rest) := by
  rw [flushTurn_hist_eq, collapseStride]
  by_cases hlong : 4 ≤ stride.length ∨ (3 ≤ stride.length ∧ stride.sum = 0)
  · rw [if_pos hlong]
    exact (if_pos hlong).trans (writeBack_append _ done stride rest)
  · rw [if_neg hlong]
    exact if_neg hlong

/-- After a flush the scalars start again, with the target read from the array the flush left. -/
theorem flushTurn_eq (st : SweepState) (i : Nat) :
    flushTurn st i =
      { hist := (flushTurn st i).hist, stride := 0, sum := 0, limit := seedLimitAt (flushTurn st i).hist i } := rfl

theorem flushTurn_sweepState (done stride rest : List Nat) (limit : Nat) :
    flushTurn (sweepState done stride rest limit) (done.length + stride.length) =
      sweepState (done ++ collapseStride stride) [] rest (seedLimit rest) := by
  have hlen : done.length + stride.length = (done ++ collapseStride stride).length := by
    rw [List.length_append, collapseStride_length]
  rw [flushTurn_eq, flushTurn_hist, ← List.append_assoc, hlen, seedLimitAt_append]; rfl

/-- The element at the sweep's position joins the stride (R107, R110). -/
theorem joinTurn_sweepState (done stride rest : List Nat) (v limit : Nat) :
    joinTurn (sweepState done stride (v :: rest) limit) (done.length + stride.length) =
      sweepState done (stride ++ [v]) rest (joinedLimit (stride ++ [v]) limit) := by
  rw [joinTurn, sweepState_hist_getD, sweepState_hist_length, if_neg (by simp)]
  simp [sweepState, joinedLimit, roundedAverage]

/-- The flush test at an element, with the marks split at it (R109). -/
theorem flushAt_sweepState (done stride rest : List Nat) (v limit : Nat) (before : List Bool) (good : Bool) (after : List Bool)
    (hb : before.length = done.length + stride.length) :
    flushAt (before ++ good :: after) (sweepState done stride (v :: rest) limit) (done.length + stride.length) =
      (good || before.getLastD false || !closeTo v limit) := by
  have hprev : (decide (before.length ≠ 0) && (before ++ good :: after).getD (before.length - 1) false) = before.getLastD false := by
    rcases List.eq_nil_or_concat before with rfl | ⟨init, g, rfl⟩ <;> simp
  rw [flushAt, sweepState_hist_getD, sweepState_hist_length, ← hb, hprev]
  simp [sweepState]

/-- At the end position the sweep flushes. -/
theorem sweepTurn_end (good : List Bool) (done stride : List Nat) (limit : Nat) :
    (sweepTurn good (sweepState done stride [] limit) (done.length + stride.length)).hist = done ++ collapseStride stride := by
  have hlen := sweepState_hist_length done stride [] limit
  rw [List.length_nil, Nat.add_zero] at hlen
  have hflush : flushAt good (sweepState done stride [] limit) (done.length + stride.length) = true := by
    rw [flushAt, hlen]; simp
  rw [sweepTurn, if_pos hflush, flushTurn_sweepState, joinTurn, if_pos (by simp [sweepState, collapseStride_length])]
  simp [sweepState]

/-! ### The whole sweep -/

/-- From any position on, with the marks `before` behind it, the sweep leaves what `collapseFrom` gives. -/
theorem foldl_sweepTurn (rest : List (Nat × Bool)) (before : List Bool) (done stride : List Nat) (limit : Nat)
    (hb : before.length = done.length + stride.length) :
    ((List.range' before.length (rest.length + 1)).foldl (sweepTurn (before ++ rest.map Prod.snd))
        (sweepState done stride (rest.map Prod.fst) limit)).hist =
      done ++ collapseFrom rest (before.getLastD false) stride limit := by
  induction rest generalizing before done stride limit with
  | nil => rw [List.length_nil, List.range'_one, List.foldl_cons, List.foldl_nil, hb]; exact sweepTurn_end _ done stride limit
  | cons p rest ih =>
    obtain ⟨v, good⟩ := p
    have hmarks : before ++ good :: rest.map Prod.snd = (before ++ [good]) ++ rest.map Prod.snd := by simp
    have hpos : before.length + 1 = (before ++ [good]).length := by simp
    have hlast : (before ++ [good]).getLastD false = good := by simp
    rw [List.length_cons, List.range'_succ, List.foldl_cons, List.map_cons, List.map_cons, collapseFrom, sweepTurn, hb,
      flushAt_sweepState done stride _ v limit before good _ hb, ← hb, hmarks, hpos]
    split
    · have hlen : before.length = (done ++ collapseStride stride).length + ([] : List Nat).length := by
        rw [hb, List.length_append, collapseStride_length, List.length_nil, Nat.add_zero]
      rw [hb, flushTurn_sweepState, ← hb, hlen, joinTurn_sweepState, ih _ _ _ _ (by simp [hlen]), hlast, List.append_assoc]
      rfl
    · rename_i hjoin
      simp only [Bool.or_eq_true, not_or, Bool.not_eq_true] at hjoin
      obtain ⟨⟨hgood, -⟩, -⟩ := hjoin
      rw [hb, joinTurn_sweepState, ih _ _ _ _ (by simp [hb, Nat.add_assoc]), hlast, hgood]

/-- Settles O26: the sweep starts with nothing behind it and the target `HIST[0]`. -/
theorem collapseSweepComputesTheCollapse : Obligations.CollapseSweepComputesTheCollapse := by
  intro h _
  have hlen : (h.zip (goodMarks h)).length = h.length := by rw [List.length_zip, goodMarks_length, Nat.min_self]
  have hhead : h.getD 0 0 = h.headD 0 := by cases h <;> rfl
  have hsweep := foldl_sweepTurn (h.zip (goodMarks h)) [] [] [] (h.headD 0) rfl
  rw [zip_goodMarks_fst, zip_goodMarks_snd, hlen] at hsweep
  rw [collapseSweep, List.range_eq_range', hhead]
  exact hsweep

end Sys2Proof.Machine
end

section
/-! One attempt of BUILD on the arena (spec/41_builder.md R124 to R131): the sorted live list, the position of a merged node, the nodes
that the merges use, and the attempt on a single symbol. -/

namespace Sys2Proof.Machine

/-! ### The order of the live list (R127) -/

theorem standsBefore_eq_true {x y : Node} :
    standsBefore x y = true ↔ y.weight < x.weight ∨ (x.weight = y.weight ∧ y.symbol < x.symbol) := decide_eq_true_iff

theorem standsBefore_trans {x y z : Node} (h1 : standsBefore x y = true) (h2 : standsBefore y z = true) : standsBefore x z = true := by
  rw [standsBefore_eq_true] at *; omega

/-- "Symbols are distinct, so the order is total." -/
theorem standsBefore_of_not {x y : Node} (hne : x.symbol ≠ y.symbol) (h : ¬standsBefore x y = true) : standsBefore y x = true := by
  rw [standsBefore_eq_true] at *; omega

/-- A leaf of a new symbol is inserted at its place in the order. -/
theorem insertLeaf_sorted {x : Node} {l : List Node} (hx : ∀ y ∈ l, x.symbol ≠ y.symbol)
    (h : l.Pairwise fun p q => standsBefore p q = true) : (insertLeaf x l).Pairwise fun p q => standsBefore p q = true := by
  induction l with
  | nil => exact List.pairwise_singleton _ x
  | cons y ys ih =>
    obtain ⟨hy, hys⟩ := List.pairwise_cons.1 h
    rw [insertLeaf]
    split
    · rename_i hxy
      refine List.pairwise_cons.2 ⟨fun q hq => ?_, h⟩
      rcases List.mem_cons.1 hq with rfl | hq
      · exact hxy
      · exact standsBefore_trans hxy (hy q hq)
    · rename_i hxy
      refine List.pairwise_cons.2 ⟨fun q hq => ?_, ih (fun q hq => hx q (List.mem_cons_of_mem y hq)) hys⟩
      rcases List.mem_cons.1 ((insertLeaf_perm x ys).mem_iff.1 hq) with rfl | hq
      · exact standsBefore_of_not (hx y List.mem_cons_self) hxy
      · exact hy q hq

/-- The sort puts leaves of distinct symbols in the order of R127. -/
theorem sortLive_sorted {l : List Node} (h : (l.map Node.symbol).Nodup) :
    (sortLive l).Pairwise fun p q => standsBefore p q = true := by
  induction l with
  | nil => exact List.Pairwise.nil
  | cons x xs ih =>
    obtain ⟨hx, hxs⟩ := List.nodup_cons.1 h
    refine insertLeaf_sorted (fun y hy he => hx ?_) (ih hxs)
    exact he ▸ List.mem_map_of_mem ((sortLive_perm xs).mem_iff.1 hy)

/-- The leaves of an attempt have distinct symbols (R122). -/
theorem leaves_symbol_nodup (hist : List Nat) (countMin : Nat) :
    (((nonzeroSymbols hist).map fun p => leafNode (max p.2 countMin) p.1).map Node.symbol).Nodup := by
  have hcast : ((nonzeroSymbols hist).map fun p => leafNode (max p.2 countMin) p.1).map Node.symbol =
      ((nonzeroSymbols hist).map Prod.fst).map Nat.cast := by
    rw [List.map_map, List.map_map]; rfl
  rw [hcast]
  exact (nonzeroSymbols_nodup hist).map Nat.cast_injective

/-! ### The position of a merged node (R129) -/

/-- The node at the insertion position is no heavier than the merged one. -/
theorem mergePos_at {w v : Nat} {ws : List Nat} (h : ws[mergePos w ws]? = some v) : v ≤ w := by
  obtain ⟨hlt, rfl⟩ := List.getElem?_eq_some_iff.1 h
  exact of_decide_eq_true (List.findIdx_getElem (p := fun v => decide (v ≤ w)) (w := hlt))

/-! ### The nodes of an attempt (R124, R128) -/

/-- At the start of an attempt each live node stands for the leaf of its symbol (R126). -/
theorem initialLive_represents (nz : List (Nat × Nat)) (countMin : Nat) :
    List.Forall₂ (Represents []) (initialLive nz countMin)
      ((initialLive nz countMin).map fun x => HTree.leaf x.symbol.toNat) := by
  rw [List.forall₂_map_right_iff, List.forall₂_same]
  intro x hx
  obtain ⟨⟨s, c⟩, -, rfl⟩ := List.mem_map.1 ((initialLive_perm nz countMin).mem_iff.1 hx)
  exact .leaf (max c countMin) s

/-! ### A single symbol (R131) -/

theorem nonzeroSymbols_single {hist : List Nat} {k c : Nat} (hk : hist[k]? = some c) (hc : c ≠ 0)
    (hother : ∀ i v, i ≠ k → hist[i]? = some v → v = 0) : nonzeroSymbols hist = [(k, c)] := by
  rw [← List.perm_singleton, List.perm_ext_iff_of_nodup (nonzeroSymbols_nodup hist).of_map (List.nodup_singleton _)]
  rintro ⟨i, v⟩
  rw [mem_nonzeroSymbols, List.mem_singleton, Prod.mk.injEq]
  constructor
  · rintro ⟨hv, h0⟩
    obtain rfl : i = k := by_contra fun hne => h0 (hother i v hne hv)
    exact ⟨rfl, Option.some.inj (hv.symm.trans hk)⟩
  · rintro ⟨rfl, rfl⟩
    exact ⟨hk, hc⟩

/-- "No merge is made", and the depth is 1 whatever the count and the floor are. -/
theorem attemptDepths_single {hist : List Nat} {k c : Nat} (h : nonzeroSymbols hist = [(k, c)]) (countMin : Nat) :
    attemptDepths hist countMin = (List.replicate hist.length 0).set k 1 := by
  simp only [attemptDepths, h]; rfl

theorem maxDepth_single_le {hist : List Nat} {k c d : Nat} (h : nonzeroSymbols hist = [(k, c)]) (hd : 1 ≤ d) (countMin : Nat) :
    maxDepth (attemptDepths hist countMin) ≤ d := by
  rw [attemptDepths_single h, maxDepth_le_iff]
  intro e he
  rcases List.mem_or_eq_of_mem_set he with he | rfl
  · rw [List.eq_of_mem_replicate he]; exact Nat.zero_le d
  · exact hd

/-! ### The obligations -/

/-- Settles O36: the sort permutes the leaves, whose symbols are distinct. -/
theorem liveListIsSorted : Obligations.LiveListIsSorted := fun hist countMin =>
  ⟨initialLive_perm _ countMin, (sortLive_sorted (leaves_symbol_nodup hist countMin)).imp standsBefore_eq_true.1⟩

/-- Settles O37: `k` is `mergePos`, found on the weights of the live list. -/
theorem mergedNodeGoesBeforeEqualWeights : Obligations.MergedNodeGoesBeforeEqualWeights := by
  intro x live
  refine ⟨mergePos x.weight (live.map Node.weight), ?_, insertMerged_eq x live, fun y hy => ?_, fun y hy => ?_⟩
  · exact (mergePos_le _ _).trans_eq (List.length_map Node.weight)
  · refine mergePos_before (ws := live.map Node.weight) ?_
    rw [← List.map_take]
    exact List.mem_map_of_mem hy
  · refine mergePos_at (ws := live.map Node.weight) ?_
    rw [List.getElem?_map, hy]; rfl

/-- Settles O38: the merges of `n_nz` leaves leave one root, each of them with two more nodes in the pool. -/
theorem attemptUsesTheArenaItNeeds : Obligations.AttemptUsesTheArenaItNeeds := by
  intro hist countMin hne
  have hpos := List.length_pos_iff.2 hne
  have hlen : (initialLive (nonzeroSymbols hist) countMin).length = (nonzeroSymbols hist).length - 1 + 1 := by
    rw [initialLive_length]; omega
  obtain ⟨root, t, hroot, -, hpool, -⟩ := mergeAll_tree _ _ [] _ hlen (initialLive_represents _ countMin)
  refine ⟨root, hroot, ?_, ?_⟩
  · rw [hpool, List.length_nil, Nat.zero_add]
  · rw [arenaNeed]; omega

end Sys2Proof.Machine
end

section
/-! BUILD as a command (spec/41_builder.md R120 to R143): its end in each of its four cases, and what an accepted attempt leaves in LEN
and CMIN. -/

namespace Sys2Proof.Machine

/-! ### The accepted floor (R132) -/

/-- The retry loop accepts the floor that is the least of its powers of two to fit, wherever that is. -/
theorem retryLoop_least {hist : List Nat} {d j : Nat} (hd : 1 ≤ d) (hsize : (nonzeroSymbols hist).length ≤ 2 ^ (d - 1))
    (hM : ∀ c ∈ hist, c < 2 ^ 32) (hfit : maxDepth (attemptDepths hist (2 ^ j)) ≤ d)
    (hleast : ∀ i < j, d < maxDepth (attemptDepths hist (2 ^ i))) :
    retryLoop hist d Config.maxAttempts 1 = some (attemptDepths hist (2 ^ j), 2 ^ j) := by
  obtain ⟨j', -, hloop, hfit', hleast'⟩ := retryLoop_ends hd hsize hM
  rcases Nat.lt_trichotomy j j' with h | rfl | h
  · exact absurd hfit (Nat.not_le.2 (hleast' j h))
  · exact hloop
  · exact absurd hfit' (Nat.not_le.2 (hleast j' h))

/-! ### The body of BUILD on a written histogram -/

section body

variable {n d : Nat} {s : State} (hw : Written s.hist n)
include hw

/-- No count: LEN and CMIN get zeros (R123). -/
theorem runBuild_allZero (hz : (nonzeroSymbols (elements s.hist n)).length = 0) :
    runBuild n d s = .success true { writeLengths (List.replicate n 0) s with cmin := 0 } := by
  obtain ⟨counts, hread, -, he⟩ := bufRead_zero_of_written hw
  simp only [runBuild, hread, he, if_pos hz]

/-- Too many counts for the depth limit: the size assertion (R124). -/
theorem runBuild_assertSize (hs : 2 ^ (d - 1) < (nonzeroSymbols (elements s.hist n)).length) :
    runBuild n d s = .fault .assertSize s := by
  obtain ⟨counts, hread, -, he⟩ := bufRead_zero_of_written hw
  simp only [runBuild, hread, he, if_neg (Nat.ne_zero_of_lt hs), if_pos hs]

/-- Too few nodes in the arena, the size assertion passed (R124). -/
theorem runBuild_alloc (h0 : (nonzeroSymbols (elements s.hist n)).length ≠ 0)
    (hs : (nonzeroSymbols (elements s.hist n)).length ≤ 2 ^ (d - 1))
    (ha : s.params.arenaNodes < arenaNeed (nonzeroSymbols (elements s.hist n)).length) : runBuild n d s = .fail .alloc s := by
  obtain ⟨counts, hread, -, he⟩ := bufRead_zero_of_written hw
  simp only [runBuild, hread, he, if_neg h0, if_neg (Nat.not_lt.2 hs), if_pos ha]

/-- The first attempt to fit, at the floor `2^j`, is accepted (R132, R133). -/
theorem runBuild_accepts {j : Nat} (hd : 1 ≤ d) (h0 : (nonzeroSymbols (elements s.hist n)).length ≠ 0)
    (hs : (nonzeroSymbols (elements s.hist n)).length ≤ 2 ^ (d - 1))
    (ha : arenaNeed (nonzeroSymbols (elements s.hist n)).length ≤ s.params.arenaNodes)
    (hfit : maxDepth (attemptDepths (elements s.hist n) (2 ^ j)) ≤ d)
    (hleast : ∀ i < j, d < maxDepth (attemptDepths (elements s.hist n) (2 ^ i))) :
    runBuild n d s = .success false (builtState n j s) := by
  obtain ⟨counts, hread, -, he⟩ := bufRead_zero_of_written hw
  have hloop := retryLoop_least hd hs (elements_lt s.hist n) hfit hleast
  simp only [runBuild, hread, he, if_neg h0, if_neg (Nat.not_lt.2 hs), if_neg (Nat.not_lt.2 ha), hloop]

end body

/-! ### The ends of BUILD -/

section command

variable {s : State} (hr : Ready s) (hn : s.n.toNat ≤ s.params.maxSyms) (hd : s.dlim ≠ 0)
include hr hn hd

/-- Past its operand checks BUILD ends as its body does. -/
theorem exec_build_ready :
    exec .build s = finish (runBuild s.n.toNat s.dlim.toNat (enterPhase .build (acceptCommand s))) := by
  rw [exec_build, badN_eq_false.2 hn, badD_eq_false.2 hd, Bool.or_false, runCommand_ready hr]; rfl

variable (hw : Written s.hist s.n.toNat)
include hw

theorem exec_build_allZero (hz : (nonzeroSymbols (elements s.hist s.n.toNat)).length = 0) :
    exec .build s = .next (ended 0xE 0 .idle { writeLengths (List.replicate s.n.toNat 0) s with cmin := 0 }) := by
  rw [exec_build_ready hr hn hd, runBuild_allZero (s := enterPhase .build (acceptCommand s)) hw hz]; rfl

theorem exec_build_assertSize (hs : 2 ^ (s.dlim.toNat - 1) < (nonzeroSymbols (elements s.hist s.n.toNat)).length) :
    exec .build s = .next (faulted .assertSize s) := by
  rw [exec_build_ready hr hn hd, runBuild_assertSize (s := enterPhase .build (acceptCommand s)) hw hs]; rfl

theorem exec_build_alloc (h0 : (nonzeroSymbols (elements s.hist s.n.toNat)).length ≠ 0)
    (hs : (nonzeroSymbols (elements s.hist s.n.toNat)).length ≤ 2 ^ (s.dlim.toNat - 1))
    (ha : s.params.arenaNodes < arenaNeed (nonzeroSymbols (elements s.hist s.n.toNat)).length) :
    exec .build s = .next (ended 0x2 1 .idle s) := by
  rw [exec_build_ready hr hn hd, runBuild_alloc (s := enterPhase .build (acceptCommand s)) hw h0 hs ha]; rfl

theorem exec_build_accepts {j : Nat} (h0 : (nonzeroSymbols (elements s.hist s.n.toNat)).length ≠ 0)
    (hs : (nonzeroSymbols (elements s.hist s.n.toNat)).length ≤ 2 ^ (s.dlim.toNat - 1))
    (ha : arenaNeed (nonzeroSymbols (elements s.hist s.n.toNat)).length ≤ s.params.arenaNodes)
    (hfit : maxDepth (attemptDepths (elements s.hist s.n.toNat) (2 ^ j)) ≤ s.dlim.toNat)
    (hleast : ∀ i < j, s.dlim.toNat < maxDepth (attemptDepths (elements s.hist s.n.toNat) (2 ^ i))) :
    exec .build s = .next (ended 0x6 0 .idle (builtState s.n.toNat j s)) := by
  have hpos : 1 ≤ s.dlim.toNat := dlim_pos (badD_eq_false.2 hd)
  rw [exec_build_ready hr hn hd, runBuild_accepts (s := enterPhase .build (acceptCommand s)) hw hpos h0 hs ha hfit hleast]; rfl

end command

/-- STATUS 6 is written at the end of an accepted attempt only (R211). -/
theorem exec_build_status_success {s t : State} (hr : Ready s) (h : exec .build s = .next t) (hst : t.status = 0x6) :
    Written s.hist s.n.toNat ∧ (∃ c ∈ elements s.hist s.n.toNat, c ≠ 0) ∧
      ∃ j ≤ 31, maxDepth (attemptDepths (elements s.hist s.n.toNat) (2 ^ j)) ≤ s.dlim.toNat ∧
        t = ended 0x6 0 .idle (builtState s.n.toNat j s) := by
  rcases exec_build_next h with (⟨hf, -⟩ | ⟨-, -, rfl⟩) | ⟨-, -, -, hw, ⟨-, rfl⟩ | ⟨hc, ⟨-, rfl⟩ | ⟨-, rfl⟩ | ⟨j, hj, hfit, -, rfl⟩⟩⟩
  · exact absurd hf hr.1
  · exact absurd hst (by decide : (0x10 : Word) ≠ 0x6)
  · exact absurd hst (by decide : (0xE : Word) ≠ 0x6)
  · exact absurd hst (by decide : (0x10 : Word) ≠ 0x6)
  · exact absurd hst (by decide : (0x2 : Word) ≠ 0x6)
  · exact ⟨hw, hc, j, hj, hfit, rfl⟩

/-! ### What is in LEN and CMIN -/

/-- Each element below N gets its symbol's depth (R133). -/
theorem builtState_get {n j i : Nat} (s : State) (hi : i < n) :
    bufGet i (builtState n j s).len = (attemptDepths (elements s.hist n) (2 ^ j))[i]?.map (BitVec.ofNat 4) := by
  have hlen : i < (attemptDepths (elements s.hist n) (2 ^ j)).length := by rwa [attemptDepths_length, elements_length]
  rw [List.getElem?_eq_getElem hlen]
  exact writeLengths_get hlen

theorem zeroLengths_get {n i : Nat} (s : State) (hi : i < n) : bufGet i (writeLengths (List.replicate n 0) s).len = some 0 := by
  rw [writeLengths_get (by rwa [List.length_replicate]), List.getElem_replicate]; rfl

/-- A depth that fits LEN is the value of its element. -/
theorem builtState_get_depth {n j i e : Nat} {s : State} (hi : i < n)
    (he : (attemptDepths (elements s.hist n) (2 ^ j))[i]? = some e) (hfit : maxDepth (attemptDepths (elements s.hist n) (2 ^ j)) ≤ 15) :
    ∃ l, bufGet i (builtState n j s).len = some l ∧ l.toNat = e := by
  have hle : e ≤ 15 := maxDepth_le_iff.1 hfit e (List.mem_of_getElem? he)
  refine ⟨BitVec.ofNat 4 e, ?_, ?_⟩
  · rw [builtState_get s hi, he]; rfl
  · rw [BitVec.toNat_ofNat, Nat.mod_eq_of_lt (by omega)]

/-- The depth of symbol `i` in an accepted attempt: within the limit, and 0 exactly for a zero count (R140 (a), (b)). -/
theorem attemptDepths_accepted {hist : List Nat} {countMin d i c : Nat} (hi : hist[i]? = some c)
    (hfit : maxDepth (attemptDepths hist countMin) ≤ d) :
    ∃ e, (attemptDepths hist countMin)[i]? = some e ∧ e ≤ d ∧ (e = 0 ↔ c = 0) := by
  by_cases hc : c = 0
  · subst hc
    exact ⟨0, attemptDepths_zero hi, Nat.zero_le d, Iff.rfl⟩
  · obtain ⟨e, he, hpos, -⟩ := attemptDepths_nonzero (countMin := countMin) hi hc
    exact ⟨e, he, maxDepth_le_iff.1 hfit e (List.mem_of_getElem? he), by omega⟩

/-- An index at which a list reads nonzero is one of its indices. -/
theorem getElem?_of_getD_ne_zero {l : List Nat} {i : Nat} (h : l.getD i 0 ≠ 0) : l[i]? = some (l.getD i 0) := by
  rw [List.getD_eq_getElem?_getD] at h ⊢
  cases hi : l[i]? with
  | none => rw [hi] at h; exact absurd rfl h
  | some c => rfl

/-- A heavier symbol is never deeper (R140 (d)), by index. -/
theorem attemptDepths_heavier_getD {hist : List Nat} {countMin i k : Nat} (hi : hist.getD i 0 ≠ 0) (hk : hist.getD k 0 ≠ 0)
    (hlt : max (hist.getD k 0) countMin < max (hist.getD i 0) countMin) :
    (attemptDepths hist countMin).getD i 0 ≤ (attemptDepths hist countMin).getD k 0 := by
  have hci := getElem?_of_getD_ne_zero hi
  have hck := getElem?_of_getD_ne_zero hk
  obtain ⟨e, he, -⟩ := attemptDepths_nonzero (countMin := countMin) hci hi
  obtain ⟨f, hf, -⟩ := attemptDepths_nonzero (countMin := countMin) hck hk
  rw [List.getD_eq_getElem?_getD, List.getD_eq_getElem?_getD, he, hf]
  exact attemptDepths_heavier hci hck hi hk he hf hlt

theorem some_eq_some_zero_iff {w : Nat} {v : BitVec w} : some v = some 0 ↔ v.toNat = 0 := by
  rw [Option.some_inj, ← BitVec.toNat_inj]; rfl

/-- Where an element that has a place in `B[0 .. n-1]` holds 0, its number is 0. -/
theorem elements_eq_zero_of_get {w n i v : Nat} {b : Buf w} (hz : i < n → bufGet i b = some 0)
    (hv : (elements b n)[i]? = some v) : v = 0 := by
  have hi : i < n := elements_length b n ▸ (List.getElem?_eq_some_iff.1 hv).1
  rw [elements_of_get hi (hz hi)] at hv
  exact (Option.some.inj hv).symm

/-- All counts zero, element by element, is `n_nz = 0`. -/
theorem nonzeroSymbols_length_of_zeros {n : Nat} {b : Buf 32} (h : ∀ i < n, bufGet i b = some 0) :
    (nonzeroSymbols (elements b n)).length = 0 := by
  rw [List.length_eq_zero_iff, nonzeroSymbols_eq_nil]
  intro c hc
  obtain ⟨i, hi⟩ := List.mem_iff_getElem?.1 hc
  exact elements_eq_zero_of_get (h i) hi

/-- One nonzero element among zeros is `n_nz = 1`. -/
theorem nonzeroSymbols_elements_single {n k : Nat} {c : Count} {b : Buf 32} (hk : k < n) (hc : bufGet k b = some c) (hc0 : c ≠ 0)
    (hz : ∀ i < n, i ≠ k → bufGet i b = some 0) : nonzeroSymbols (elements b n) = [(k, c.toNat)] :=
  nonzeroSymbols_single (elements_of_get hk hc) (fun h0 => hc0 (BitVec.eq_of_toNat_eq h0)) fun i _ hik hv =>
    elements_eq_zero_of_get (fun hi => hz i hi hik) hv

/-- LEN after the attempt on a single symbol. -/
theorem builtState_get_single {n j k c i : Nat} {s : State} (h : nonzeroSymbols (elements s.hist n) = [(k, c)]) (hi : i < n) :
    bufGet i (builtState n j s).len = some (if i = k then 1 else 0) := by
  rw [builtState_get s hi, attemptDepths_single h, elements_length, List.getElem?_set]
  by_cases hik : i = k
  · subst hik; simp [hi]
  · simp [hik, Ne.symm hik, hi]

/-! ### The obligations -/

/-- Settles O29: `n_nz = 0` ends the body before the size and the arena are looked at. -/
theorem buildAllZeroSucceeds : Obligations.BuildAllZeroSucceeds := by
  intro s hr hn hd hz
  refine ⟨_, exec_build_allZero hr hn hd (written_of_zeros hz) (nonzeroSymbols_length_of_zeros hz), rfl, ?_, ?_⟩
  · exact fun i hi => zeroLengths_get s hi
  · exact fun i hi => zeroLengths_get_above s hi

/-- Settles O30: the size assertion comes before the arena is looked at. -/
theorem buildAssertsSize : Obligations.BuildAssertsSize := by
  intro s hr hn hd hw hs
  rw [← nonzeroSymbols_length] at hs
  exact exec_build_assertSize hr hn hd hw hs

/-- Settles O31: below `3*n_nz - 2` nodes the body fails, the size assertion passed. -/
theorem buildFailsWithoutArena : Obligations.BuildFailsWithoutArena := by
  intro s hr hn hd hw hs ha
  rw [← nonzeroSymbols_length] at hs ha
  exact exec_build_alloc hr hn hd hw (by omega) hs (by rw [arenaNeed]; omega)

/-- Settles O32: the retry loop ends at the least power of two that fits, at most `2^31`, so CMIN holds it. -/
theorem buildAcceptsLeastFloor : Obligations.BuildAcceptsLeastFloor := by
  intro s hr hn hd hw hc hs ha
  rw [← nonzeroSymbols_length] at hs ha
  obtain ⟨j, hj, -, hfit, hleast⟩ := retryLoop_ends (dlim_pos (badD_eq_false.2 hd)) hs (elements_lt s.hist _)
  obtain ⟨hwritten, helem, -⟩ := builtState_kraft (s := s) hc (dlim_le s) hfit
  have hrun := exec_build_accepts hr hn hd hw (nonzeroSymbols_length_pos.2 hc) hs (by rw [arenaNeed]; omega) hfit hleast
  exact ⟨_, j, hrun, rfl, ofNat_two_pow_toNat hj, hwritten, helem, hfit, hleast, fun i hi => builtState_get_above s hi⟩

/-- Settles O34 from the depths of the accepted attempt, symbol by symbol and in their Kraft sum. -/
theorem acceptedLengthsAreHuffman : Obligations.AcceptedLengthsAreHuffman := by
  intro s t hr h hst
  obtain ⟨hw, hc, j, hj, hfit, rfl⟩ := exec_build_status_success hr h hst
  have hfit15 := hfit.trans (dlim_le s)
  obtain ⟨-, helem, -⟩ := builtState_kraft (s := s) hc (dlim_le s) hfit
  have hsymbol : ∀ i < s.n.toNat, ∃ v l, bufGet i s.hist = some v ∧ bufGet i (builtState s.n.toNat j s).len = some l ∧
      l.toNat ≤ s.dlim.toNat ∧ (l.toNat = 0 ↔ v.toNat = 0) := fun i hi => by
    obtain ⟨v, hv⟩ := Option.ne_none_iff_exists'.1 (hw i hi)
    obtain ⟨e, he, hle, hzero⟩ := attemptDepths_accepted (elements_of_get hi hv) hfit
    obtain ⟨l, hl, rfl⟩ := builtState_get_depth hi he hfit15
    exact ⟨v, l, hv, hl, hle, hzero⟩
  refine ⟨fun i hi => ?_, fun i hi => ?_, ?_, fun i k _ _ hci hck hlt => ?_⟩
  · obtain ⟨v, l, -, hl, hle, -⟩ := hsymbol i hi
    exact ⟨l, hl, hle⟩
  · obtain ⟨v, l, hv, hl, -, hzero⟩ := hsymbol i hi
    rw [hv, some_eq_some_zero_iff, ← hzero, ← some_eq_some_zero_iff, ← hl]
  · have hne : nonzeroSymbols (elements s.hist s.n.toNat) ≠ [] :=
      List.length_pos_iff.1 (Nat.pos_of_ne_zero (nonzeroSymbols_length_pos.2 hc))
    rw [helem, attemptDepths_kraftScaled hne hfit (dlim_le s), nonzeroSymbols_length]
  · have hcmin : (BitVec.ofNat 32 (2 ^ j)).toNat = 2 ^ j := ofNat_two_pow_toNat hj
    rw [hcmin] at hlt
    rw [helem]
    exact attemptDepths_heavier_getD hci hck hlt

/-- Settles O35: one symbol needs one arena node and passes every size assertion, and its depth fits at the floor `2^0`. -/
theorem singleSymbolGetsDepthOne : Obligations.SingleSymbolGetsDepthOne := by
  intro s k c hr hn hd ha hk hc hc0 hz
  have hw : Written s.hist s.n.toNat := fun i hi => by
    by_cases hik : i = k
    · rw [hik, hc]; exact Option.some_ne_none c
    · rw [hz i hi hik]; exact Option.some_ne_none _
  have hsingle := nonzeroSymbols_elements_single hk hc hc0 hz
  have hone : (nonzeroSymbols (elements s.hist s.n.toNat)).length = 1 := by rw [hsingle]; rfl
  have hpos : 1 ≤ s.dlim.toNat := dlim_pos (badD_eq_false.2 hd)
  have hrun := exec_build_accepts (j := 0) hr hn hd hw (by omega) (by rw [hone]; exact Nat.one_le_two_pow)
    (by rw [hone]; exact ha) (maxDepth_single_le hsingle hpos _) (fun i hi => absurd hi (Nat.not_lt_zero i))
  refine ⟨_, hrun, rfl, ?_, fun i hi hik => ?_⟩
  · exact (builtState_get_single hsingle hk).trans (by rw [if_pos rfl])
  · exact (builtState_get_single hsingle hi).trans (by rw [if_neg hik])

/-- Settles O39: the end that BUILD takes in `s` is decided by what `s` and `s'` share, so it takes the same in `s'`. -/
theorem buildDependsOnHistAndOperandsOnly : Obligations.BuildDependsOnHistAndOperandsOnly := by
  intro s s' t hr hr' hp hN hD hhist h
  have hel : elements s.hist s.n.toNat = elements s'.hist s'.n.toNat := by rw [← hN]; exact elements_congr hhist
  have hbN : s.badN = s'.badN := by rw [State.badN, State.badN, State.operandN, State.operandN, hp, hN]
  have hbD : s.badD = s'.badD := by rw [State.badD, State.badD, State.operandD, State.operandD, hD]
  rcases exec_build_next h with (⟨hf, -⟩ | ⟨-, hbad, rfl⟩) | ⟨-, hbn, hbd, hw, hend⟩
  · exact absurd hf hr.1
  · refine ⟨faulted .badOperand s', ?_, rfl, rfl, rfl, fun hok => absurd hok (faulted_not_ok _ s)⟩
    rw [exec_build, ← hbN, ← hbD, hbad]
    exact runCommand_badOperand hr'
  · have hn' := badN_eq_false.1 (hbN ▸ hbn)
    have hd' := badD_eq_false.1 (hbD ▸ hbd)
    have hw' : Written s'.hist s'.n.toNat := by rw [← hN]; exact fun i hi => hhist i hi ▸ hw i hi
    have hlen : ∀ {i}, i < s.n.toNat → i < s'.n.toNat := fun hi => by rwa [← hN]
    simp only [State.operandN, State.operandD, hel, hp, hD] at hend
    rcases hend with ⟨hz, rfl⟩ | ⟨hc, ⟨hs, rfl⟩ | ⟨⟨hs, ha⟩, rfl⟩ | ⟨j, -, hfit, ⟨hleast, hs, ha⟩, rfl⟩⟩
    · refine ⟨_, exec_build_allZero hr' hn' hd' hw' (List.length_eq_zero_iff.2 (nonzeroSymbols_eq_nil.2 hz)), rfl, rfl, rfl,
        fun _ => ⟨rfl, fun i hi => ?_⟩⟩
      exact (zeroLengths_get s' (hlen hi)).trans (zeroLengths_get s hi).symm
    · exact ⟨_, exec_build_assertSize hr' hn' hd' hw' hs, rfl, rfl, rfl, fun hok => absurd hok (faulted_not_ok _ s)⟩
    · exact ⟨_, exec_build_alloc hr' hn' hd' hw' (nonzeroSymbols_length_pos.2 hc) hs ha, rfl, rfl, rfl,
        fun hok => absurd hok (ended_fail_not_ok s)⟩
    · refine ⟨_, exec_build_accepts hr' hn' hd' hw' (nonzeroSymbols_length_pos.2 hc) hs ha hfit hleast, rfl, rfl, rfl,
        fun _ => ⟨rfl, fun i hi => ?_⟩⟩
      have hget := builtState_get (j := j) s' (hlen hi)
      rw [← hel, ← builtState_get s hi] at hget
      exact hget

end Sys2Proof.Machine
end

section
/-! The canonical codes and their reversal (spec/42_assigner.md R153 to R160): the closed form of the first codes, the order of the codes
of two symbols, the reversal as a mirror, and its nibble composition. -/

namespace Sys2Proof.Machine

/-! ### The first codes (R153) -/

/-- The closed form: each shorter length's symbols, doubled once for every bit from there to `d`. -/
theorem firstCode_succ_eq_sum (lens : List Nat) (d : Nat) :
    firstCode lens (d + 1) = ((List.range' 1 d).map fun e => depthCount lens e * 2 ^ (d + 1 - e)).sum := by
  induction d with
  | zero => rfl
  | succ d ih =>
    have hdouble : ∀ e ∈ List.range' 1 d, depthCount lens e * 2 ^ (d + 1 + 1 - e) = depthCount lens e * 2 ^ (d + 1 - e) * 2 := by
      intro e he
      have hle := (List.mem_range'_1.1 he).2
      rw [Nat.mul_assoc, ← pow_succ, show d + 1 - e + 1 = d + 1 + 1 - e by omega]
    rw [firstCode_succ, ih, List.range'_1_concat, List.map_append, List.sum_append, List.map_congr_left hdouble, List.sum_map_mul_right,
      List.map_singleton, List.sum_singleton, Nat.add_mul, Nat.add_comm 1 d, show d + 1 + 1 - (d + 1) = 1 by omega, pow_one]

/-! ### The codes of two symbols (R160) -/

section codes

variable {lens : List Nat} {i j li lj ci cj : Nat} (hn : ∀ l ∈ lens, l ≤ 15) (hli : lens[i]? = some li) (hlj : lens[j]? = some lj)
  (hci : (canonicalCodes lens)[i]? = some (some ci)) (hcj : (canonicalCodes lens)[j]? = some (some cj))

include hn hli hci in
/-- Under the precondition of R158 a code fits its length. -/
theorem canonicalCode_lt_two_pow (hk : kraftScaled lens ≤ 2 ^ 15) : ci < 2 ^ li := by
  obtain ⟨-, hl, -, hlt⟩ := canonical_code_range hn hli hci
  exact lt_of_lt_of_le hlt (spaceTaken_le hk hl)

include hn hli hlj hci hcj

/-- R160 (a): codes of one length increase in symbol order. -/
theorem canonicalCode_lt_of_same_length (hij : i < j) (hl : li = lj) : ci < cj := by
  subst hl
  obtain ⟨-, -, hi, -⟩ := canonical_code_range hn hli hci
  obtain ⟨-, -, hj, -⟩ := canonical_code_range hn hlj hcj
  rw [hi, hj]
  exact Nat.add_lt_add_left (count_take_mono hij hli) _

theorem canonicalCode_ne_of_same_length (hij : i ≠ j) (hl : li = lj) : ci ≠ cj := by
  rcases Nat.lt_or_gt_of_ne hij with h | h
  · exact Nat.ne_of_lt (canonicalCode_lt_of_same_length hn hli hlj hci hcj h hl)
  · exact Nat.ne_of_gt (canonicalCode_lt_of_same_length hn hlj hli hcj hci h hl.symm)

/-- A longer code is past every continuation of a shorter one. -/
theorem succ_canonicalCode_mul_le (hl : li < lj) : (ci + 1) * 2 ^ (lj - li) ≤ cj := by
  obtain ⟨-, -, -, hi⟩ := canonical_code_range hn hli hci
  obtain ⟨-, -, hj, -⟩ := canonical_code_range hn hlj hcj
  obtain ⟨k, rfl⟩ := Nat.exists_eq_add_of_lt hl
  calc (ci + 1) * 2 ^ (li + k + 1 - li) = (ci + 1) * 2 ^ (k + 1) := by rw [Nat.add_assoc, Nat.add_sub_cancel_left]
    _ ≤ spaceTaken lens li * 2 ^ (k + 1) := Nat.mul_le_mul_right _ hi
    _ ≤ firstCode lens (li + k + 1) := spaceTaken_mul_le_firstCode lens li k
    _ ≤ cj := hj ▸ Nat.le_add_right _ _

/-- R160 (c): padded with zeros, a shorter code is below a longer one. -/
theorem canonicalCode_mul_lt (hl : li < lj) : ci * 2 ^ (lj - li) < cj :=
  lt_of_lt_of_le (Nat.mul_lt_mul_of_pos_right (Nat.lt_succ_self ci) (Nat.two_pow_pos _))
    (succ_canonicalCode_mul_le hn hli hlj hci hcj hl)

/-- R160 (b): a code is not the beginning of another one. -/
theorem canonicalCode_div_ne (hij : i ≠ j) (hle : li ≤ lj) : cj / 2 ^ (lj - li) ≠ ci := by
  rcases Nat.lt_or_eq_of_le hle with hl | hl
  · exact Nat.ne_of_gt ((Nat.le_div_iff_mul_le (Nat.two_pow_pos _)).2 (succ_canonicalCode_mul_le hn hli hlj hci hcj hl))
  · rw [hl, Nat.sub_self, pow_zero, Nat.div_one]
    exact (canonicalCode_ne_of_same_length hn hli hlj hci hcj hij hl).symm

end codes

/-! ### The reversal as a mirror (R155) -/

/-- Mirroring twice is the identity. -/
theorem revBits_revBits {l c : Nat} (hc : c < 2 ^ l) : revBits l (revBits l c) = c := by
  apply Nat.eq_of_testBit_eq
  intro j
  rw [revBits_testBit, revBits_testBit]
  by_cases hj : j < l
  · simp [hj, show l - 1 - j < l by omega, show l - 1 - (l - 1 - j) = j by omega]
  · have : c.testBit j = false := Nat.testBit_lt_two_pow (lt_of_lt_of_le hc (Nat.pow_le_pow_right (by omega) (by omega)))
    simp [hj, this]

theorem revBits_inj {l c d : Nat} (hc : c < 2 ^ l) (hd : d < 2 ^ l) (h : revBits l c = revBits l d) : c = d := by
  rw [← revBits_revBits hc, h, revBits_revBits hd]

/-- On the wire the first bits sent are the high bits of the canonical code (spec/30_encoding.md R87). -/
theorem revBits_mod_two_pow {k l : Nat} (c : Nat) (hkl : k ≤ l) : revBits l c % 2 ^ k = revBits k (c / 2 ^ (l - k)) := by
  apply Nat.eq_of_testBit_eq
  intro j
  rw [Nat.testBit_mod_two_pow, revBits_testBit, revBits_testBit, Nat.testBit_div_two_pow]
  by_cases hj : j < k
  · simp [hj, show j < l by omega, show k - 1 - j + (l - k) = l - 1 - j by omega]
  · simp [hj]

/-! ### The nibble composition (R156) -/

theorem revNib_get : ∀ x < 16, revNib[x]? = some (revBits 4 x) := by decide

/-- A turn of the loop looks up the mirror of the low nibble. -/
theorem revNib_getD_testBit (b j : Nat) : (revNib.getD (b % 16) 0).testBit j = (decide (j < 4) && b.testBit (3 - j)) := by
  rw [List.getD_eq_getElem?_getD, revNib_get _ (Nat.mod_lt _ (by decide)), Option.getD_some, revBits_testBit,
    show 16 = 2 ^ 4 from rfl, Nat.testBit_mod_two_pow]
  simp [show 3 - j < 4 by omega]

/-- The `fuel` turns that are left put the mirror of `b` into the low bits of the intermediate. The loop may end before them because `b`
is then 0. -/
theorem revNibbleLoop_testBit {l fuel i b : Nat} (r j : Nat) (hi : i + 4 * fuel = 16) (hb : b < 2 ^ (l - i)) :
    (revNibbleLoop l fuel i b r).testBit j = (r.testBit j || (decide (j < 4 * fuel) && b.testBit (4 * fuel - 1 - j))) := by
  induction fuel generalizing i b r with
  | zero => simp [revNibbleLoop]
  | succ fuel ih =>
    rw [revNibbleLoop]
    split
    next hil =>
      have hb' : b / 16 < 2 ^ (l - (i + 4)) := by
        rw [Nat.div_lt_iff_lt_mul (by decide), show 16 = 2 ^ 4 from rfl, ← pow_add]
        exact lt_of_lt_of_le hb (Nat.pow_le_pow_right (by decide) (by omega))
      rw [ih _ (by omega) hb', Nat.testBit_or, show 16 - (i + 4) = 4 * fuel by omega, Nat.testBit_shiftLeft, revNib_getD_testBit,
        show 16 = 2 ^ 4 from rfl, Nat.testBit_div_two_pow, Bool.or_assoc]
      congr 1
      rcases Nat.lt_or_ge j (4 * fuel) with hj | hj
      · have hbit : 4 * fuel - 1 - j + 4 = 4 * (fuel + 1) - 1 - j := by omega
        simp [hj, hbit, show j < 4 * (fuel + 1) by omega]
      · have hbit : 3 - (j - 4 * fuel) = 4 * (fuel + 1) - 1 - j := by omega
        have hturn : j - 4 * fuel < 4 ↔ j < 4 * (fuel + 1) := by omega
        simp only [hbit, hturn, hj, Nat.not_lt.2 hj, decide_true, decide_false, Bool.true_and, Bool.false_and, Bool.or_false]
    next hil =>
      rw [Nat.sub_eq_zero_of_le (Nat.not_lt.1 hil), pow_zero, Nat.lt_one_iff] at hb
      simp [hb]

/-- The final shift drops the bits below the mirror. -/
theorem revByNibbles_eq_revBits {l c : Nat} (hl : l ≤ 15) (hc : c < 2 ^ l) : revByNibbles l c = revBits l c := by
  apply Nat.eq_of_testBit_eq
  intro j
  rw [revByNibbles, Nat.testBit_shiftRight, revNibbleLoop_testBit 0 _ rfl hc, Nat.zero_testBit, Bool.false_or, revBits_testBit]
  by_cases hj : j < l
  · simp [hj, show 16 - l + j < 16 by omega, show 15 - (16 - l + j) = l - 1 - j by omega]
  · simp [hj, show ¬16 - l + j < 16 by omega]

/-! ### The command -/

/-- Where there is a length, the reversal of the canonical code is written (R154, R155). -/
theorem assignedCode_get {n i l : Nat} {len : Buf 4} (code : Buf 16) (hi : (elements len n)[i]? = some l) (hl : l ≠ 0) :
    bufGet i (assignedCode n len code) =
      some (BitVec.ofNat 16 (revBits l (firstCode (elements len n) l + ((elements len n).take i).count l))) := by
  rw [writeCodes_get (canonicalCodes_length _), if_pos (Nat.zero_le i), Nat.sub_zero, hi, canonicalCodes_get (elements_len_le len n) hi,
    if_neg hl]

/-- An element without a positive length below N keeps what it held (R157). -/
theorem assignedCode_get_of_unused {n i : Nat} {len : Buf 4} (code : Buf 16) (hi : n ≤ i ∨ bufGet i len = some 0) :
    bufGet i (assignedCode n len code) = bufGet i code := by
  rw [writeCodes_get (canonicalCodes_length _), if_pos (Nat.zero_le i), Nat.sub_zero]
  rcases Nat.lt_or_ge i n with hin | hin
  · have hzero : (elements len n)[i]? = some 0 := elements_of_get hin (hi.resolve_left (Nat.not_le.2 hin))
    rw [hzero, canonicalCodes_get (elements_len_le len n) hzero, if_pos rfl]
  · rw [List.getElem?_eq_none (by rwa [elements_length])]

section command

variable {s : State} (hr : Ready s) (hn : s.n.toNat ≤ s.params.maxSyms) (hw : Written s.len s.n.toNat)
include hr hn

/-- Past its operand check ASSIGN ends as its body does. -/
theorem exec_assign_ready : exec .assign s = finish (runAssign s.n.toNat (enterPhase .assign (acceptCommand s))) := by
  rw [exec_assign, badN_eq_false.2 hn, runCommand_ready hr]; rfl

include hw

theorem exec_assign_success (hk : kraftScaled (elements s.len s.n.toNat) ≤ 2 ^ 15) :
    exec .assign s = .next (ended 0x6 0 .idle { s with code := assignedCode s.n.toNat s.len s.code }) := by
  rw [exec_assign_ready hr hn]
  rcases runAssign_cases s.n.toNat (enterPhase .assign (acceptCommand s)) with ⟨i, hi, hnone, -⟩ | ⟨-, hgt, -⟩ | ⟨-, -, hrun⟩
  · exact absurd hnone (hw i hi)
  · exact absurd hk (Nat.not_le.2 hgt)
  · rw [hrun]; rfl

theorem exec_assign_kraftAboveOne (hk : 2 ^ 15 < kraftScaled (elements s.len s.n.toNat)) :
    exec .assign s = .refused .kraftAboveOne := by
  rw [exec_assign_ready hr hn]
  rcases runAssign_cases s.n.toNat (enterPhase .assign (acceptCommand s)) with ⟨i, hi, hnone, -⟩ | ⟨-, -, hrun⟩ | ⟨-, hle, -⟩
  · exact absurd hnone (hw i hi)
  · rw [hrun]; rfl
  · exact absurd hle (Nat.not_le.2 hk)

end command

/-! ### The obligations -/

/-- Settles O40: the body's success writes each symbol's canonical code, reversed, and nothing where there is none. -/
theorem assignGivesCanonicalCodes : Obligations.AssignGivesCanonicalCodes := by
  intro s hr hn hw hk
  refine ⟨_, exec_assign_success hr hn hw hk, rfl, fun i l _ hi hl => ?_, fun i hi => assignedCode_get_of_unused s.code hi⟩
  have hcode := canonicalCodes_get (elements_len_le s.len s.n.toNat) hi
  rw [if_neg hl] at hcode
  exact ⟨_, rfl, canonicalCode_lt_two_pow (elements_len_le _ _) hi hcode hk, assignedCode_get s.code hi hl⟩

/-- Settles O41: the recurrence is the definition, the bound is the space that the codes up to length `d` take. -/
theorem firstCodesFollowTheFormula : Obligations.FirstCodesFollowTheFormula := by
  refine fun lens => ⟨rfl, rfl, fun d hd => ?_, fun d hd => ?_, fun _ hk d hd => ?_⟩
  · obtain ⟨d, rfl⟩ := Nat.exists_eq_add_of_le' hd
    rw [firstCode_succ, Nat.shiftLeft_eq, pow_one, Nat.add_sub_cancel]
  · obtain ⟨d, rfl⟩ := Nat.exists_eq_add_of_le' hd
    exact firstCode_succ_eq_sum lens d
  · rw [firstCode_add_depthCount]
    exact spaceTaken_le hk hd

/-- Settles O42: on the wire the first bits of a code, mirrored back, are the high bits of its canonical code. -/
theorem canonicalCodesArePrefixFree : Obligations.CanonicalCodesArePrefixFree := by
  intro lens hn hk i j li lj ci cj hli hlj hci hcj
  have hcut := canonicalCode_div_ne hn hli hlj hci hcj
  refine ⟨canonicalCode_lt_of_same_length hn hli hlj hci hcj, hcut, canonicalCode_mul_lt hn hli hlj hci hcj, fun hij hle hwire => ?_⟩
  have hhigh : cj / 2 ^ (lj - li) < 2 ^ li := by
    rw [Nat.div_lt_iff_lt_mul (Nat.two_pow_pos _), ← pow_add, Nat.add_sub_cancel' hle]
    exact canonicalCode_lt_two_pow hn hlj hcj hk
  rw [revBits_mod_two_pow cj hle] at hwire
  exact hcut hij hle (revBits_inj hhigh (canonicalCode_lt_two_pow hn hli hci hk) hwire)

/-- Settles O43: the lengths are all there, so the body gets to the test of the Kraft sum. -/
theorem assignRefusesKraftAboveOne : Obligations.AssignRefusesKraftAboveOne := fun _ => exec_assign_kraftAboveOne

/-- Settles O44 from the bits of the reversal. -/
theorem reversalMirrorsTheBits : Obligations.ReversalMirrorsTheBits := by
  refine fun l c _ _ hc => ⟨revBits_lt l c, fun j hj => ?_, revBits_revBits hc⟩
  rw [revBits_testBit, decide_eq_true hj, Bool.true_and]

/-- Settles O45: the table entry by entry, the loop bit by bit. -/
theorem nibbleCompositionIsReversal : Obligations.NibbleCompositionIsReversal :=
  ⟨revNib_get, fun _ _ _ => revByNibbles_eq_revBits⟩

end Sys2Proof.Machine
end

section
/-! TOKENIZE as a command (spec/43_tokenizer.md R170 to R187): the closed forms of its runs, its two ends on written lengths, and the
round trip of its stream through the reference expander. -/

namespace Sys2Proof.Machine

/-! ### The closed forms of the runs (R177, R179) -/

/-- The full chunks of a zero run come first. -/
theorem zeroRun_chunks (q : Nat) {r : Nat} (hr : 1 ≤ r) :
    zeroRun (138 * q + r) = List.replicate q ⟨18, 0x7f⟩ ++ zeroRun r := by
  induction q with
  | zero => simp
  | succ q ih =>
    rw [zeroRun_long (by omega), show 138 * (q + 1) + r - 138 = 138 * q + r by omega, ih, List.replicate_succ, List.cons_append]

/-- What is left of a zero run after its full chunks, by size class. -/
theorem zeroRun_remainder {r : Nat} (h1 : 1 ≤ r) (h : r ≤ 138) :
    zeroRun r = if r = 1 then [⟨0, 0⟩] else if r = 2 then [⟨0, 0⟩, ⟨0, 0⟩] else if r ≤ 10 then [⟨17, r - 3⟩] else [⟨18, r - 11⟩] := by
  rw [zeroRun_short (by omega)]
  by_cases h3 : r < 3
  · interval_cases r <;> rfl
  · simp only [if_neg h3, if_neg (show ¬r = 1 by omega), if_neg (show ¬r = 2 by omega), show r < 11 ↔ r ≤ 10 by omega]

/-- The full chunks of the repetitions come first. -/
theorem repeatRun_chunks (q v : Nat) {r : Nat} (hr : 1 ≤ r) :
    repeatRun (6 * q + r) v = List.replicate q ⟨16, 3⟩ ++ repeatRun r v := by
  induction q with
  | zero => simp
  | succ q ih =>
    rw [repeatRun_long v (by omega), show 6 * (q + 1) + r - 6 = 6 * q + r by omega, ih, List.replicate_succ, List.cons_append]

/-- What is left of the repetitions after their full chunks, by size class. -/
theorem repeatRun_remainder {r : Nat} (v : Nat) (h : r ≤ 6) :
    repeatRun r v = if r = 0 then [] else if r = 1 then [⟨v, 0⟩] else if r = 2 then [⟨v, 0⟩, ⟨v, 0⟩] else [⟨16, r - 3⟩] := by
  rw [repeatRun_short v (by omega)]
  by_cases h3 : r < 3
  · interval_cases r <;> rfl
  · simp only [if_neg h3, if_neg (show ¬r = 0 by omega), if_neg (show ¬r = 1 by omega), if_neg (show ¬r = 2 by omega)]

/-! ### The stream of LEN and its words in TOK -/

/-- A stream of at least one element has a token (R183). -/
theorem stream_ne_nil {n : Nat} (s : State) (hn : 1 ≤ n) : stream n s ≠ [] := by
  intro hnil
  have hspan : ((stream n s).map tokenSpan).sum = n :=
    (encodeLengths_span (elements_len_le s.len n)).trans (elements_length s.len n)
  rw [hnil] at hspan
  exact absurd hspan (Nat.ne_of_lt hn)

/-- The length of the stream of `LEN[0 .. N-1]` is at most N, so TOKCNT holds it. -/
theorem ofNat_stream_length (s : State) : (BitVec.ofNat 32 (stream s.n.toNat s).length).toNat = (stream s.n.toNat s).length :=
  Nat.mod_eq_of_lt ((encodeLengths_elements_length_le s.len s.n.toNat).trans_lt s.n.isLt)

/-- TOK with the words of `xs` emitted from `TOK[0]` on (R174). -/
abbrev emitted (xs : List Token) (tok : Buf 16) : Buf 16 := bufSetFrom 0 (xs.map Token.word) tok

theorem emitted_get {xs : List Token} {j : Nat} {x : Token} (tok : Buf 16) (h : xs[j]? = some x) :
    bufGet j (emitted xs tok) = some (tokenWord x.code x.extra) := by
  obtain ⟨hj, rfl⟩ := List.getElem?_eq_some_iff.1 h
  rw [bufGet_bufSetFrom_zero _ _ (by rwa [List.length_map]), List.getElem_map, Token.word]

theorem emitted_get_above {xs : List Token} {j : Nat} (tok : Buf 16) (h : xs.length ≤ j) :
    bufGet j (emitted xs tok) = bufGet j tok :=
  bufGet_bufSetFrom_outside _ _ (.inr (by rwa [List.length_map, Nat.zero_add]))

/-- The state with the stream of `LEN[0 .. N-1]` in TOK and its length in TOKCNT. -/
abbrev tokenizedState (s : State) : State :=
  { s with tok := emitted (stream s.n.toNat s) s.tok, tokcnt := BitVec.ofNat 32 (stream s.n.toNat s).length }

/-! ### The ends of TOKENIZE on written lengths -/

section command

variable {s : State} (hr : Ready s) (hn : s.n.toNat ≤ s.params.maxSyms) (hm : s.maxtok.toNat ≤ s.params.tokEntries)
  (hw : Written s.len s.n.toNat)
include hr hn hm

/-- Past its operand checks TOKENIZE ends as its body does. -/
theorem exec_tokenize_ready :
    exec .tokenize s = finish (runTokenize s.n.toNat s.maxtok.toNat (enterPhase .tokenize (acceptCommand s))) := by
  rw [exec_tokenize, Bool.or_eq_false_iff.2 ⟨badN_eq_false.2 hn, badM_eq_false.2 hm⟩, runCommand_ready hr]; rfl

include hw

/-- The stream fits: it is in TOK, its length in TOKCNT (R182). -/
theorem exec_tokenize_success (hl : (stream s.n.toNat s).length ≤ s.maxtok.toNat) :
    exec .tokenize s = .next (ended 0x6 0 .idle (tokenizedState s)) := by
  rw [exec_tokenize_ready hr hn hm, runTokenize_written (s := enterPhase .tokenize (acceptCommand s)) hw]
  exact congrArg finish (if_pos hl)

/-- The stream does not fit: its first MAXTOK tokens are in TOK (R184). -/
theorem exec_tokenize_assertTokens (hl : s.maxtok.toNat < (stream s.n.toNat s).length) :
    exec .tokenize s =
      .next (faulted .assertTokens { s with tok := emitted ((stream s.n.toNat s).take s.maxtok.toNat) s.tok }) := by
  rw [exec_tokenize_ready hr hn hm, runTokenize_written (s := enterPhase .tokenize (acceptCommand s)) hw]
  exact congrArg finish (if_neg (Nat.not_le.2 hl))

end command

/-! ### The round trip (R187) -/

/-- Words that are the elements of a written range as numbers are its elements. -/
theorem getElem?_of_map_toNat_eq_elements {w n : Nat} {b : Buf w} {out : List (BitVec w)} (hw : Written b n)
    (h : out.map BitVec.toNat = elements b n) : out.length = n ∧ ∀ i < n, bufGet i b = out[i]? := by
  refine ⟨by rw [← elements_length b n, ← h, List.length_map], fun i hi => ?_⟩
  obtain ⟨v, hv⟩ := Option.ne_none_iff_exists'.1 (hw i hi)
  have hnat := elements_of_get hi hv
  rw [← h, List.getElem?_map, Option.map_eq_some_iff] at hnat
  obtain ⟨u, hu, huv⟩ := hnat
  rw [hv, hu, BitVec.eq_of_toNat_eq huv]

/-- The words of the stream of a table, presented at the start of a stream, are expanded to the table. -/
theorem run_presentTokens_encodeLengths {lens : List Nat} (h : ∀ l ∈ lens, l ≤ 15) {t : State} (hout : t.expOut = [])
    (hprev : t.expPrev = 8) :
    ∃ u, Host.Core.run Sys2Proof.core ((encodeLengths lens).map Token.word).length
        (presentTokens ((encodeLengths lens).map Token.word) t) = .next u ∧ u.expOut.map BitVec.toNat = lens := by
  obtain ⟨u, hrun, -, hexp⟩ := run_presentTokens (encodeLengths lens) (encodeLengths_legal h) t
  rw [hout, hprev] at hexp
  exact ⟨u, hrun, hexp.trans (expandTokens_encodeLengths h)⟩

/-! ### The obligations -/

/-- Settles O47: MAXTOK has room for the stream, and the machine's expander and `expand` both undo it. -/
theorem tokenRoundTrip : Obligations.TokenRoundTrip := by
  intro s hr hn hm hw hnm hout hprev
  have h15 := elements_len_le s.len s.n.toNat
  have hfit := (encodeLengths_elements_length_le s.len s.n.toNat).trans hnm
  obtain ⟨u, hrun, hexp⟩ := run_presentTokens_encodeLengths h15 (t := ended 0x6 0 .idle (tokenizedState s)) hout hprev
  refine ⟨_, u, _, exec_tokenize_success hr hn hm hw hfit, rfl, ?_, fun j hj => ?_, ?_, hrun,
    getElem?_of_map_toNat_eq_elements hw hexp⟩
  · exact (List.length_map _).trans (ofNat_stream_length s).symm
  · exact (bufGet_bufSetFrom_zero _ _ hj).trans (List.getElem?_eq_getElem hj).symm
  · rw [map_ofWord_word (encodeLengths_legal h15), expand_encodeLengths h15]

/-- Settles O46: the body's success, its words read back from TOK. -/
theorem tokenizeWritesTheStream : Obligations.TokenizeWritesTheStream := by
  intro s hr hn hm hw hfit
  refine ⟨_, exec_tokenize_success hr hn hm hw hfit, rfl, ofNat_stream_length s, fun j x hx => emitted_get s.tok hx, fun j hj => ?_⟩
  exact emitted_get_above s.tok ((ofNat_stream_length s).symm.trans_le hj)

/-- Settles O48: each token takes at least one of the elements that the stream stands for, and the command writes no other count. -/
theorem tokenCountAtMostN : Obligations.TokenCountAtMostN := by
  refine ⟨fun lens h => ?_, fun s t hr h hok => ?_, fun s t hr hnm h => ?_⟩
  · exact ⟨encodeLengths_length_le h, fun x _ => tokenSpan_pos x, encodeLengths_span h⟩
  · rcases exec_tokenize_next h with h | ⟨-, -, -, ⟨-, -, hle, rfl⟩ | ⟨-, xs, -, rfl⟩⟩
    · exact absurd hok (h.not_ok hr)
    · exact (ofNat_stream_length s).trans_le hle
    · exact absurd hok (faulted_not_ok _ _)
  · rcases exec_tokenize_next h with (⟨hf, -⟩ | ⟨-, -, rfl⟩) | ⟨-, -, -, ⟨-, -, -, rfl⟩ | ⟨hlt, -⟩⟩
    · exact absurd hf hr.1
    · exact show causeCode .badOperand ≠ 3 by decide
    · exact show (0 : Word) ≠ 3 by decide
    · exact absurd hlt (Nat.not_lt.2 hnm)

/-- Settles O49: the words before the bound read back from TOK; with no room at all none is written. -/
theorem tokenBoundIsAsserted : Obligations.TokenBoundIsAsserted := by
  refine ⟨fun s hr hn hm hw hl => ?_, fun s hr hn hw h1 h0 => ?_⟩
  · refine ⟨_, exec_tokenize_assertTokens hr hn hm hw hl, rfl, fun j x hj hx => ?_, fun j hj => ?_⟩
    · exact emitted_get s.tok ((List.getElem?_take_of_lt hj).trans hx)
    · exact emitted_get_above s.tok ((List.length_take_le _ _).trans hj)
  · have hm : s.maxtok.toNat = 0 := by rw [h0]; rfl
    rw [exec_tokenize_assertTokens hr hn (hm ▸ Nat.zero_le _) hw (hm ▸ List.length_pos_iff.2 (stream_ne_nil s h1)), hm]
    rfl

/-- Settles O50: the full chunks, then the remainder. -/
theorem zeroRunClosedForm : Obligations.ZeroRunClosedForm := by
  intro r q r' hr hq hr'
  have hpos : 1 ≤ r' ∧ r' ≤ 138 := by omega
  rw [show r = 138 * q + r' by omega, zeroRun_chunks q hpos.1, zeroRun_remainder hpos.1 hpos.2]
  exact ⟨hpos, rfl⟩

/-- Settles O51: the full chunks, then the remainder; no repetitions give no chunk. -/
theorem repeatRunClosedForm : Obligations.RepeatRunClosedForm := by
  intro r v q r' hq hr'
  have hle : r' ≤ 6 := by omega
  refine ⟨hle, ?_⟩
  rw [← repeatRun_remainder v hle]
  rcases Nat.eq_zero_or_pos r with rfl | hpos
  · obtain rfl : q = 0 := hq
    rw [hr']
    rfl
  · rw [← repeatRun_chunks q v (by omega), show 6 * q + r' = r by omega]

end Sys2Proof.Machine
end

section
/-! BUILDCODES as a command (spec/44_sequencer.md R200 to R204): its phases run on the states that the single commands meet, so it ends as
the first of OPT, BUILD and ASSIGN that does not succeed, or as all three together. -/

namespace Sys2Proof.Machine

/-! ### The phases after the first -/

/-- The ASSIGN phase on the state that the BUILD phase left; the command reports the ALLZERO `z` of its OPT phase. -/
def assignPhase (n : Nat) (z : Bool) (s : State) : UnitEnd :=
  (runAssign n (enterPhase .assign s)).andThen fun _ u => .success z u

/-- The BUILD and ASSIGN phases on the state that the OPT phase left. -/
def buildPhase (n d : Nat) (z : Bool) (s : State) : UnitEnd :=
  (runBuild n d (enterPhase .build s)).andThen fun _ u => assignPhase n z u

theorem runBuildCodes_eq (n d : Nat) (s : State) :
    runBuildCodes n d s = (runOpt n (enterPhase .opt s)).andThen (buildPhase n d) := rfl

/-! ### The ends of a unit -/

theorem finish_eq_next_of_ok {e : UnitEnd} {t : State} (h : finish e = .next t) (hok : t.ok = true) :
    ∃ z u, e = .success z u ∧ t = endSuccess z u := by
  cases e with
  | success z u => cases h; exact ⟨z, u, rfl, rfl⟩
  | fail c u => cases h; exact absurd hok (Bool.eq_false_iff.1 (endFail_ok u c))
  | fault c u => cases h; exact absurd hok (Bool.eq_false_iff.1 (raiseFault_ok u c))
  | refused r => cases h
  | stopped f => cases h

/-- A phase that ends the command without success is the last one (R202). -/
theorem finish_andThen_of_not_ok {e : UnitEnd} {next : Bool → State → UnitEnd} {t : State} (h : finish e = .next t)
    (hok : t.ok = false) : finish (e.andThen next) = .next t := by
  cases e with
  | success z u => cases h; exact absurd (endSuccess_ok u z) (Bool.eq_false_iff.1 hok)
  | fail c u => exact h
  | fault c u => exact h
  | refused r => cases h
  | stopped f => cases h

theorem ready_endSuccess (z : Bool) (s : State) : Ready (endSuccess z s) := ⟨Phase.noConfusion, endSuccess_busy s z⟩

/-- A unit that runs leaves STATUS and CAUSE to the end of the command: BUSY alone, no cause (spec/30_encoding.md R71). -/
abbrev Running (s : State) : Prop := s.status = statusBusy ∧ s.cause = causeCode .none

/-- A phase of BUILDCODES and the command of its unit, given after the unit before has ended in success, start in one state. -/
theorem enterPhase_acceptCommand_endSuccess (p : Phase) (z : Bool) {s : State} (h : Running s) :
    enterPhase p (acceptCommand (endSuccess z s)) = enterPhase p s := by
  obtain ⟨hst, hca⟩ := h
  simp only [enterPhase, acceptCommand, endSuccess, ← hst, ← hca]

theorem runOpt_running {n : Nat} {s u : State} {z : Bool} (h : runOpt n s = .success z u) (hs : Running s) : Running u := by
  rcases runOpt_cases n s with ⟨i, -, -, he⟩ | ⟨he, -⟩ | ⟨l, -, -, -, he⟩ | ⟨l, -, -, -, -, he⟩ <;> rw [he] at h <;> cases h
  · exact hs
  · exact hs

theorem runBuild_running {n d : Nat} {s u : State} {z : Bool} (hd : 1 ≤ d) (h : runBuild n d s = .success z u) (hs : Running s) :
    Running u := by
  rcases runBuild_cases n d s hd with ⟨i, -, -, he⟩ | ⟨-, -, he⟩ | ⟨-, -, -, he⟩ | ⟨-, -, -, -, he⟩ |
    ⟨-, -, -, -, j, -, -, -, he⟩ <;> rw [he] at h <;> cases h
  · exact hs
  · exact hs

/-! ### BUILDCODES from the single commands -/

/-- OK is reported by a command that was not turned away with BAD_OPERAND. -/
theorem exec_opt_ok_operand {s t : State} (hr : Ready s) (h : exec .opt s = .next t) (hok : t.ok = true) :
    s.n.toNat ≤ s.params.maxSyms := by
  rcases exec_opt_next h with h | ⟨-, hN, -⟩
  · exact absurd hok (h.not_ok hr)
  · exact badN_eq_false.1 hN

/-- OPT leaves the operands, the parameters and every buffer but HIST as they are. -/
theorem exec_opt_frame {s t : State} (h : exec .opt s = .next t) : t = ended t.status t.cause t.phase { s with hist := t.hist } :=
  commandsWriteOnlyTheirResults.1 s t h

/-- BUILD leaves the operands, the parameters and every buffer but LEN as they are. -/
theorem exec_build_frame {s t : State} (h : exec .build s = .next t) :
    t = ended t.status t.cause t.phase { s with len := t.len, cmin := t.cmin } :=
  commandsWriteOnlyTheirResults.2.1 s t h

section command

variable {s s1 s2 s3 : State} (hr : Ready s) (hn : s.n.toNat ≤ s.params.maxSyms) (hd : s.dlim ≠ 0)
include hr hn hd

/-- Past its operand checks BUILDCODES ends as its phases do. -/
theorem exec_buildcodes_ready : exec .buildcodes s =
    finish ((runOpt s.n.toNat (enterPhase .opt (acceptCommand s))).andThen (buildPhase s.n.toNat s.dlim.toNat)) := by
  rw [exec_buildcodes, badN_eq_false.2 hn, badD_eq_false.2 hd, Bool.or_false, runCommand_ready hr, runBuildCodes_eq]; rfl

variable (h1 : exec .opt s = .next s1)
include h1

/-- Where OPT does not succeed, BUILDCODES ends as OPT does. -/
theorem exec_buildcodes_of_opt_not_ok (hok : s1.ok = false) : exec .buildcodes s = .next s1 := by
  rw [exec_opt_ready hr hn] at h1
  rw [exec_buildcodes_ready hr hn hd, finish_andThen_of_not_ok h1 hok]

variable (hok1 : s1.ok = true)
include hok1

/-- Where OPT succeeds, BUILDCODES goes on as BUILD does after OPT. -/
theorem exec_buildcodes_of_opt_ok : Ready s1 ∧ ∃ z, s1.status = statusSuccess z ∧
    exec .buildcodes s = finish ((runBuild s.n.toNat s.dlim.toNat (enterPhase .build (acceptCommand s1))).andThen fun _ u =>
      assignPhase s.n.toNat z u) := by
  rw [exec_opt_ready hr hn] at h1
  obtain ⟨z, u, hrun, rfl⟩ := finish_eq_next_of_ok h1 hok1
  refine ⟨ready_endSuccess z u, z, rfl, ?_⟩
  rw [exec_buildcodes_ready hr hn hd, hrun, enterPhase_acceptCommand_endSuccess .build z (runOpt_running hrun ⟨rfl, rfl⟩)]
  rfl

/-- BUILD after a successful OPT, as a run of its body. -/
theorem exec_build_after_opt :
    exec .build s1 = finish (runBuild s.n.toNat s.dlim.toNat (enterPhase .build (acceptCommand s1))) := by
  obtain ⟨hr1, -⟩ := exec_buildcodes_of_opt_ok hr hn hd h1 hok1
  rw [exec_opt_frame h1] at hr1 ⊢
  exact exec_build_ready hr1 hn hd

variable (h2 : exec .build s1 = .next s2)
include h2

/-- Where BUILD does not succeed after OPT, BUILDCODES ends as BUILD does. -/
theorem exec_buildcodes_of_build_not_ok (hok2 : s2.ok = false) : exec .buildcodes s = .next s2 := by
  obtain ⟨-, z, -, hcodes⟩ := exec_buildcodes_of_opt_ok hr hn hd h1 hok1
  rw [exec_build_after_opt hr hn hd h1 hok1] at h2
  rw [hcodes, finish_andThen_of_not_ok h2 hok2]

variable (hok2 : s2.ok = true)
include hok2

/-- Where BUILD succeeds after OPT, BUILDCODES goes on as ASSIGN does after BUILD. -/
theorem exec_buildcodes_of_build_ok : Ready s2 ∧ ∃ z, s1.status = statusSuccess z ∧
    exec .buildcodes s = finish (assignPhase s.n.toNat z (acceptCommand s2)) := by
  obtain ⟨-, z, hz, hcodes⟩ := exec_buildcodes_of_opt_ok hr hn hd h1 hok1
  rw [exec_build_after_opt hr hn hd h1 hok1] at h2
  obtain ⟨z', u, hrun, rfl⟩ := finish_eq_next_of_ok h2 hok2
  refine ⟨ready_endSuccess z' u, z, hz, ?_⟩
  have hu := runBuild_running (dlim_pos (badD_eq_false.2 hd)) hrun ⟨rfl, rfl⟩
  rw [hcodes, hrun, assignPhase, enterPhase_acceptCommand_endSuccess .assign z' hu]
  rfl

/-- ASSIGN after a successful BUILD, as a run of its body. -/
theorem exec_assign_after_build :
    exec .assign s2 = finish (runAssign s.n.toNat (enterPhase .assign (acceptCommand s2))) := by
  obtain ⟨hr2, -⟩ := exec_buildcodes_of_build_ok hr hn hd h1 hok1 h2 hok2
  rw [exec_build_frame h2, exec_opt_frame h1] at hr2 ⊢
  exact exec_assign_ready hr2 hn

/-- Where all three succeed, BUILDCODES ends as ASSIGN does, but for ALLZERO, which is OPT's (R200). -/
theorem exec_buildcodes_of_assign_ok (h3 : exec .assign s2 = .next s3) (hok3 : s3.ok = true) :
    exec .buildcodes s = .next { s3 with status := s1.status } := by
  obtain ⟨-, z, hz, hcodes⟩ := exec_buildcodes_of_build_ok hr hn hd h1 hok1 h2 hok2
  rw [exec_assign_after_build hr hn hd h1 hok1 h2 hok2] at h3
  obtain ⟨z', u, hrun, rfl⟩ := finish_eq_next_of_ok h3 hok3
  rw [hcodes, assignPhase, hrun, hz]
  rfl

end command

/-! ### The ends without success -/

theorem exec_opt_not_ok {s t : State} (hr : Ready s) (hn : s.n.toNat ≤ s.params.maxSyms) (h : exec .opt s = .next t)
    (hok : t.ok = false) : t = ended 0x2 1 .idle s := by
  rcases exec_opt_next h with (⟨hf, -⟩ | ⟨-, hN, -⟩) | ⟨-, -, ⟨rfl, -⟩ | ⟨l, -, -, h⟩ | ⟨l, -, -, -, -, rfl⟩⟩
  · exact absurd hf hr.1
  · exact absurd hN (Bool.eq_false_iff.1 (badN_eq_false.2 hn))
  · exact absurd (endSuccess_ok _ true) (Bool.eq_false_iff.1 hok)
  · exact h
  · exact absurd (endSuccess_ok _ false) (Bool.eq_false_iff.1 hok)

theorem exec_build_not_ok {s t : State} (hr : Ready s) (hn : s.n.toNat ≤ s.params.maxSyms) (hd : s.dlim ≠ 0)
    (h : exec .build s = .next t) (hok : t.ok = false) : t = ended 0x2 1 .idle s ∨ t = faulted .assertSize s := by
  rcases exec_build_next h with (⟨hf, -⟩ | ⟨-, hb, -⟩) |
    ⟨-, -, -, -, ⟨-, rfl⟩ | ⟨-, ⟨-, h⟩ | ⟨-, h⟩ | ⟨j, -, -, -, rfl⟩⟩⟩
  · exact absurd hf hr.1
  · exact absurd hb (Bool.eq_false_iff.1 (Bool.or_eq_false_iff.2 ⟨badN_eq_false.2 hn, badD_eq_false.2 hd⟩))
  · exact absurd (endSuccess_ok _ true) (Bool.eq_false_iff.1 hok)
  · exact .inr h
  · exact .inl h
  · exact absurd (endSuccess_ok _ false) (Bool.eq_false_iff.1 hok)

/-! ### What the phases find -/

/-- `n_nz` of a buffer is that of its first elements where the others are zeros. -/
theorem nonzeroSymbols_elements_of_zeros_above {b : Buf 32} {l n : Nat} (hln : l ≤ n)
    (hz : ∀ i, l ≤ i → i < n → bufGet i b = some 0) :
    (nonzeroSymbols (elements b n)).length = ((elements b l).filter (· ≠ 0)).length := by
  have hdrop : ((elements b n).drop l).filter (· ≠ 0) = [] := by
    refine List.filter_eq_nil_iff.2 fun c hc => ?_
    obtain ⟨i, hi⟩ := List.mem_iff_getElem?.1 hc
    rw [List.getElem?_drop] at hi
    simpa using elements_eq_zero_of_get (hz (l + i) (Nat.le_add_right l i)) hi
  rw [nonzeroSymbols_length, ← List.take_append_drop l (elements b n), List.filter_append, hdrop, List.append_nil,
    elements_take hln]

/-- OPT leaves the zeros above the trimmed length, so BUILD counts what is below it. -/
theorem nonzeroSymbols_optimizedHist {hist : Buf 32} {n l : Nat} (ht : trimmedLength hist n = .ok l) :
    (nonzeroSymbols (elements (optimizedHist l hist) n)).length = ((optimizeCounts (elements hist l)).filter (· ≠ 0)).length := by
  obtain ⟨hln, hz, -⟩ := trimmedLength_ok ht
  rw [nonzeroSymbols_elements_of_zeros_above hln fun i hi hin => (optimizedHist_get l i hist hi).trans (hz i hi hin),
    optimizedHist_elements]

theorem elements_eq_zero_of_zeros {w n : Nat} {b : Buf w} (h : ∀ i < n, bufGet i b = some 0) : ∀ v ∈ elements b n, v = 0 := by
  intro v hv
  obtain ⟨i, hi⟩ := List.mem_iff_getElem?.1 hv
  exact elements_eq_zero_of_get (h i) hi

/-- ASSIGN on zero lengths succeeds and writes nothing (R204). -/
theorem exec_assign_allZero {s : State} (hr : Ready s) (hn : s.n.toNat ≤ s.params.maxSyms)
    (hz : ∀ i < s.n.toNat, bufGet i s.len = some 0) : exec .assign s = .next (ended 0x6 0 .idle s) := by
  have hel := elements_eq_zero_of_zeros hz
  rw [exec_assign_success hr hn (written_of_zeros hz) (by rw [kraftScaled_allZero hel]; exact Nat.zero_le _), assignedCode,
    canonicalCodes, writeCodes_allZero 0 _ _ _ hel]

/-- The lengths of BUILD's accepted attempt meet the precondition of ASSIGN (spec/41_builder.md R140, spec/42_assigner.md R158). -/
theorem exec_build_then_assign {s : State} (hr : Ready s) (hn : s.n.toNat ≤ s.params.maxSyms) (hd : s.dlim ≠ 0)
    (hw : Written s.hist s.n.toNat) (hc : ∃ c ∈ elements s.hist s.n.toNat, c ≠ 0)
    (hsize : (nonzeroSymbols (elements s.hist s.n.toNat)).length ≤ 2 ^ (s.dlim.toNat - 1))
    (harena : 3 * (nonzeroSymbols (elements s.hist s.n.toNat)).length ≤ s.params.arenaNodes + 2) :
    ∃ j ≤ 31, exec .build s = .next (ended 0x6 0 .idle (builtState s.n.toNat j s)) ∧
      exec .assign (ended 0x6 0 .idle (builtState s.n.toNat j s)) =
        .next (ended 0x6 0 .idle
          { builtState s.n.toNat j s with code := assignedCode s.n.toNat (builtState s.n.toNat j s).len s.code }) := by
  obtain ⟨j, hj, -, hfit, hleast⟩ := retryLoop_ends (dlim_pos (badD_eq_false.2 hd)) hsize (elements_lt s.hist _)
  obtain ⟨hwritten, -, hkraft⟩ := builtState_kraft (s := s) hc (dlim_le s) hfit
  exact ⟨j, hj,
    exec_build_accepts hr hn hd hw (nonzeroSymbols_length_pos.2 hc) hsize (by rw [arenaNeed]; omega) hfit hleast,
    exec_assign_success (ready_ended_success (builtState s.n.toNat j s)) hn hwritten hkraft⟩

theorem assignedCode_ne_none {n i : Nat} {len : Buf 4} {d : Len} (code : Buf 16) (hi : i < n) (hget : bufGet i len = some d)
    (hd : d ≠ 0) : bufGet i (assignedCode n len code) ≠ none := by
  rw [assignedCode_get code (elements_of_get hi hget) fun h => hd (BitVec.eq_of_toNat_eq h)]
  exact Option.some_ne_none _

/-- An accepted floor is not 0 in CMIN (spec/10_state.md R31). -/
theorem ofNat_two_pow_ne_zero {j : Nat} (hj : j ≤ 31) : BitVec.ofNat 32 (2 ^ j) ≠ 0 := fun h =>
  (Nat.two_pow_pos j).ne' ((ofNat_two_pow_toNat hj).symm.trans (congrArg BitVec.toNat h))

/-! ### The obligations -/

/-- Settles O53: each phase starts in the state in which its unit's own command starts after the command before. -/
theorem buildCodesRunsTheThreeUnits : Obligations.BuildCodesRunsTheThreeUnits := by
  intro s s1 s2 s3 hr hd h1 hok1 h2 hok2 h3 hok3
  exact exec_buildcodes_of_assign_ok hr (exec_opt_ok_operand hr h1 hok1) hd h1 hok1 h2 hok2 h3 hok3

/-- Settles O55: the command ends as its first phase without success does; that phase writes no buffer. -/
theorem buildCodesShortCircuits : Obligations.BuildCodesShortCircuits := by
  intro s s1 hr hd hn h1
  refine ⟨fun hok => ?_, fun s2 hok h2 hok2 => ?_⟩
  · rw [exec_buildcodes_of_opt_not_ok hr hn hd h1 hok, exec_opt_not_ok hr hn h1 hok]
  · rw [exec_buildcodes_of_build_not_ok hr hn hd h1 hok h2 hok2]
    obtain ⟨hr1, -⟩ := exec_buildcodes_of_opt_ok hr hn hd h1 hok
    have hs1 := exec_opt_frame h1
    rw [hs1] at hr1 h2
    rcases exec_build_not_ok hr1 hn hd h2 hok2 with rfl | rfl
    · exact ⟨rfl, .inl ⟨rfl, rfl⟩⟩
    · exact ⟨rfl, .inr ⟨rfl, rfl⟩⟩

/-- Settles O56: the three commands on zeros, one after another. -/
theorem buildCodesAllZeroSucceeds : Obligations.BuildCodesAllZeroSucceeds := by
  intro s hr hn hd hz
  have h1 := exec_opt_allZero hr hn hz
  have h2 := exec_build_allZero (s := ended 0xE 0 .idle s) (ready_endSuccess true s) hn hd (written_of_zeros hz)
    (nonzeroSymbols_length_of_zeros hz)
  have h3 := exec_assign_allZero (ready_endSuccess true { writeLengths (List.replicate s.n.toNat 0) s with cmin := 0 }) hn
    fun i hi => zeroLengths_get s hi
  have hrun := exec_buildcodes_of_assign_ok hr hn hd h1 (endSuccess_ok _ true) h2 (endSuccess_ok _ true) h3 (endSuccess_ok _ false)
  exact ⟨_, hrun, rfl, fun i hi => zeroLengths_get s hi, fun i hi => zeroLengths_get_above s hi⟩

/-- Settles O54: OPT keeps a nonzero count and the zeros above the trimmed length, so BUILD and ASSIGN succeed after it. -/
theorem buildCodesCompletes : Obligations.BuildCodesCompletes := by
  intro s l hr hn hd hw hl h0 hscratch hsize harena
  have ht := trimmedLength_of_isTrimmed hw hl
  have h1 := exec_opt_success hr hn hw ht h0 hscratch
  have hr1 := ready_ended_success { s with hist := optimizedHist l s.hist }
  rw [← nonzeroSymbols_optimizedHist ht] at hsize harena
  obtain ⟨j, hj, h2, h3⟩ := exec_build_then_assign hr1 hn hd (optimizedHist_written fun i _ hi => hw i hi) (optimizedHist_nonzero ht h0)
    hsize harena
  have hrun := exec_buildcodes_of_assign_ok hr hn hd h1 (endSuccess_ok _ false) h2 (endSuccess_ok _ false) h3 (endSuccess_ok _ false)
  obtain ⟨hlens, -⟩ := acceptedLengthsAreHuffman _ _ hr1 h2 rfl
  refine ⟨_, hrun, rfl, rfl, rfl, optimizedHist_elements l s.hist, hlens, fun i hi hne => ?_, ofNat_two_pow_ne_zero hj⟩
  obtain ⟨d, hget, -⟩ := hlens i hi
  exact assignedCode_ne_none s.code hi hget fun hd0 => hne (by rw [← hd0]; exact hget)

end Sys2Proof.Machine
end

section
/-! The ends of a command and the FAULT state (spec/60_exceptions.md): the operand checks, the table of ends said once for the five
commands, and what a step can do in the FAULT state. -/

namespace Sys2Proof.Machine

/-! ### The operand checks (R224) -/

/-- The check of N stands in the column of every command. -/
theorem badOperand_of_badN (i : Instr) {s : State} (h : s.badN = true) : badOperand i s = true := by
  unfold badOperand
  split <;> simp only [h, Bool.true_or]

theorem badN_of_lt {s : State} (h : s.params.maxSyms < s.n.toNat) : s.badN = true := decide_eq_true h

theorem badD_of_eq_zero {s : State} (h : s.dlim = 0) : s.badD = true :=
  Bool.of_not_eq_false fun hd => badD_eq_false.1 hd h

theorem badM_of_lt {s : State} (h : s.params.tokEntries < s.maxtok.toNat) : s.badM = true := decide_eq_true h

/-- A command whose operand check fails enters the FAULT state and does nothing else. -/
theorem exec_command_badOperand {i : Instr} {s : State} (hi : i ∈ hostCommands) (hr : Ready s) (hbad : badOperand i s = true) :
    exec i s = .next (faulted .badOperand s) := by
  obtain ⟨body, he⟩ := exec_command i hi s
  rw [he, hbad]
  exact runCommand_badOperand hr

/-! ### The ends of a command (R210 to R213) -/

/-- The ends of the command `i` taken in the state `s`, each with the words it writes to STATUS and CAUSE, the PHASE it leaves (R211)
and the commands that have it (R213). -/
inductive CommandEnd (i : Instr) (s : State) : Word → Word → Phase → Prop where
  | success (hbad : badOperand i s = false)
      (hcounts : i = .assign ∨ i = .tokenize ∨ ∃ c ∈ elements s.hist s.n.toNat, c ≠ 0) : CommandEnd i s 0x6 0 .idle
  | allZero (hbad : badOperand i s = false) (hcmd : i ≠ .assign ∧ i ≠ .tokenize)
      (hcounts : ∀ c ∈ elements s.hist s.n.toNat, c = 0) : CommandEnd i s 0xE 0 .idle
  | alloc (hbad : badOperand i s = false) (hcmd : i = .opt ∨ i = .build ∨ i = .buildcodes) : CommandEnd i s 0x2 1 .idle
  | assertSize (hbad : badOperand i s = false) (hcmd : i = .build ∨ i = .buildcodes) : CommandEnd i s 0x10 2 .faulted
  | assertTokens (hbad : badOperand i s = false) (hcmd : i = .tokenize) : CommandEnd i s 0x10 3 .faulted
  | badOperand (hbad : badOperand i s = true) : CommandEnd i s 0x10 5 .faulted

/-- A ready block turns a command away for its operands only. -/
theorem TurnedAway.commandEnd {i : Instr} {s t : State} (h : TurnedAway (badOperand i s) s t) (hr : Ready s) :
    CommandEnd i s t.status t.cause t.phase := by
  rcases h with ⟨hf, -⟩ | ⟨-, hbad, rfl⟩
  · exact absurd hf hr.1
  · exact .badOperand hbad

/-- A positive trimmed length comes from a nonzero count (spec/40_optimizer.md R102). -/
theorem trimmedLength_nonzero {hist : Buf 32} {n l : Nat} (ht : trimmedLength hist n = .ok l) (h0 : l ≠ 0) :
    ∃ c ∈ elements hist n, c ≠ 0 := by
  obtain ⟨hle, -, hzero | ⟨v, hv, hget⟩⟩ := trimmedLength_ok ht
  · exact absurd hzero h0
  · exact ⟨v.toNat, List.mem_of_getElem? (elements_of_get (by omega) hget), fun h => hv (BitVec.eq_of_toNat_eq h)⟩

theorem exec_opt_end {s t : State} (hr : Ready s) (h : exec .opt s = .next t) :
    CommandEnd .opt s t.status t.cause t.phase := by
  rcases exec_opt_next h with h | ⟨-, hN, ⟨rfl, hz⟩ | ⟨l, -, -, rfl⟩ | ⟨l, ht, h0, -, -, rfl⟩⟩
  · exact TurnedAway.commandEnd h hr
  · exact .allZero hN (by decide) (elements_eq_zero_of_zeros hz)
  · exact .alloc hN (by decide)
  · exact .success hN (.inr (.inr (trimmedLength_nonzero ht h0)))

theorem exec_build_end {s t : State} (hr : Ready s) (h : exec .build s = .next t) :
    CommandEnd .build s t.status t.cause t.phase := by
  rcases exec_build_next h with h | ⟨-, hN, hD, -, hend⟩
  · exact TurnedAway.commandEnd h hr
  have hbad : badOperand .build s = false := Bool.or_eq_false_iff.2 ⟨hN, hD⟩
  rcases hend with ⟨hz, rfl⟩ | ⟨hc, ⟨-, rfl⟩ | ⟨-, rfl⟩ | ⟨j, -, -, -, rfl⟩⟩
  · exact .allZero hbad (by decide) hz
  · exact .assertSize hbad (by decide)
  · exact .alloc hbad (by decide)
  · exact .success hbad (.inr (.inr hc))

theorem exec_assign_end {s t : State} (hr : Ready s) (h : exec .assign s = .next t) :
    CommandEnd .assign s t.status t.cause t.phase := by
  rcases exec_assign_next h with h | ⟨-, hN, -, -, rfl⟩
  · exact TurnedAway.commandEnd h hr
  · exact .success hN (.inl rfl)

theorem exec_tokenize_end {s t : State} (hr : Ready s) (h : exec .tokenize s = .next t) :
    CommandEnd .tokenize s t.status t.cause t.phase := by
  rcases exec_tokenize_next h with h | ⟨-, hN, hM, hend⟩
  · exact TurnedAway.commandEnd h hr
  have hbad : badOperand .tokenize s = false := Bool.or_eq_false_iff.2 ⟨hN, hM⟩
  rcases hend with ⟨-, -, -, rfl⟩ | ⟨-, xs, -, rfl⟩
  · exact .success hbad (.inr (.inl rfl))
  · exact .assertTokens hbad rfl

/-- BUILDCODES ends as its OPT phase does when that fails, else as its BUILD phase does: its ASSIGN phase never fails. -/
theorem exec_buildcodes_end {s t : State} (hr : Ready s) (h : exec .buildcodes s = .next t) :
    CommandEnd .buildcodes s t.status t.cause t.phase := by
  rcases exec_buildcodes_next h with h | ⟨-, hN, hD, hend⟩
  · exact TurnedAway.commandEnd h hr
  have hbad : badOperand .buildcodes s = false := Bool.or_eq_false_iff.2 ⟨hN, hD⟩
  rcases hend with ⟨rfl, hz⟩ | ⟨l, -, -, rfl⟩ | ⟨l, s1, ht, h0, -, -, rfl, ⟨-, rfl⟩ | ⟨-, rfl⟩ | ⟨j, -, -, -, rfl⟩⟩
  · exact .allZero hbad (by decide) (elements_eq_zero_of_zeros hz)
  · exact .alloc hbad (by decide)
  · exact .assertSize hbad (by decide)
  · exact .alloc hbad (by decide)
  · exact .success hbad (.inr (.inr (trimmedLength_nonzero ht h0)))

/-- Every command that answers a next state has ended in one of the ends of R211. -/
theorem exec_command_end {i : Instr} {s t : State} (hi : i ∈ hostCommands) (hr : Ready s) (h : exec i s = .next t) :
    CommandEnd i s t.status t.cause t.phase := by
  simp only [hostCommands, List.mem_cons, List.not_mem_nil, or_false] at hi
  rcases hi with rfl | rfl | rfl | rfl | rfl
  · exact exec_opt_end hr h
  · exact exec_build_end hr h
  · exact exec_assign_end hr h
  · exact exec_tokenize_end hr h
  · exact exec_buildcodes_end hr h

/-! ### The FAULT state (R220) -/

theorem illegalCommand_faulted {s : State} (h : s.phase = .faulted) : illegalCommand s = .next s := if_pos h

/-- In the FAULT state a word written to CMD is ignored, whether it decodes or not. -/
theorem writeCommand_faulted {s : State} (w : Word) (h : s.phase = .faulted) : writeCommand w s = .next s := by
  cases hd : decodeCommand w with
  | ok i => rw [writeCommand_ok hd, exec_command_faulted (decodeCommand_ok hd) h]
  | error e => rw [writeCommand_error hd, illegalCommand_faulted h]

/-- What the FAULT state holds until a reset: PHASE, STATUS and CAUSE of `t` are those of `s`. -/
abbrev HoldsFault (s t : State) : Prop := t.phase = .faulted ∧ t.status = s.status ∧ t.cause = s.cause

/-- Each of the things a step can do in the FAULT state, except a reset, writes none of STATUS, CAUSE and PHASE. -/
theorem step_holdsFault {s t : State} {move : HostMove} {rest : List HostMove} (hf : s.phase = .faulted)
    (hh : s.host = move :: rest) (hmove : move ≠ .reset) (h : step s = .next t) : HoldsFault s t := by
  rcases step_next h with rfl | ⟨move', rest', hh', u, rfl, hdone⟩
  · exact ⟨hf, rfl, rfl⟩
  obtain ⟨rfl, rfl⟩ := List.cons.inj (hh.symm.trans hh')
  rcases hdone with ⟨i, hi, h⟩ | ⟨hr, -⟩ | ⟨reg, v, rfl⟩ | ⟨space, i, v, rfl⟩ | ⟨v, rfl⟩ | ⟨hreset, -⟩ |
    (⟨v, rfl⟩ | ⟨v, k, rfl⟩) | rfl | rfl
  · rw [exec_command_faulted (s := { s with host := rest }) hi hf] at h
    cases h; exact ⟨hf, rfl, rfl⟩
  · exact absurd hf hr.1
  · exact ⟨(writeRegister_phase ..).trans hf, writeRegister_status .., writeRegister_cause ..⟩
  · exact ⟨(writeElement_phase ..).trans hf, writeElement_status .., writeElement_cause ..⟩
  · exact ⟨hf, rfl, rfl⟩
  · exact absurd hreset hmove
  all_goals exact ⟨hf, rfl, rfl⟩

/-! ### The obligations -/

/-- Settles O8: a step other than a reset writes none of STATUS, CAUSE and PHASE, a CMD write is ignored, and the host's other
transactions test BUSY only, not PHASE. -/
theorem faultIsStickyUntilReset : Obligations.FaultIsStickyUntilReset := by
  intro s move rest hf hh
  refine ⟨fun hmove t h => step_holdsFault hf hh hmove h, ?_, fun hb => ⟨?_, ?_, ?_, ?_, ?_, ?_⟩⟩
  · rintro w rfl
    rw [step_writeCommand hh]
    exact writeCommand_faulted w hf
  · rintro v rfl
    exact step_writeReg hb (by decide) hh
  · rintro v rfl
    exact step_writeReg hb (by decide) hh
  · rintro v rfl
    exact step_writeReg hb (by decide) hh
  · rintro reg rfl
    exact step_readReg hb hh
  · rintro space i rfl
    exact step_readElem hb hh
  · rintro space i v rfl hi
    refine ⟨_, step_writeElem hb hh, writeElement_frame space i v { s with host := rest }, fun space' j => ?_⟩
    rw [spaceGet_writeElement (s := { s with host := rest }) hi]
    cases space' <;> rfl

/-- Settles O10: each end writes the row of the table that it stands in. -/
theorem commandEndsAsTableSays : Obligations.CommandEndsAsTableSays := by
  intro s t i hi hr h
  have hend := exec_command_end hi hr h
  generalize t.status = status, t.cause = cause, t.phase = phase at hend ⊢
  cases hend with
  | success _ hcounts => exact .inl ⟨rfl, rfl, rfl, hcounts⟩
  | allZero _ hcmd hcounts => exact .inr (.inl ⟨rfl, rfl, rfl, hcmd.1, hcmd.2, hcounts⟩)
  | alloc => exact .inr (.inr (.inl ⟨rfl, rfl, rfl⟩))
  | assertSize => exact .inr (.inr (.inr ⟨rfl, .inl rfl, rfl⟩))
  | assertTokens => exact .inr (.inr (.inr ⟨rfl, .inr (.inl rfl), rfl⟩))
  | badOperand => exact .inr (.inr (.inr ⟨rfl, .inr (.inr (.inr rfl)), rfl⟩))

/-- Settles O11: each end has its own cause and names the commands that have it; no end has the cause ILLEGAL_CMD. -/
theorem whichCommandEndsHow : Obligations.WhichCommandEndsHow := by
  intro s t i hi hr h
  have hend := exec_command_end hi hr h
  generalize t.status = status, t.cause = cause, t.phase = phase at hend ⊢
  cases hend with
  | success hbad => simp [hbad]
  | allZero hbad => simp [hbad]
  | alloc hbad hcmd => simp [hbad, hcmd]
  | assertSize hbad hcmd => simp [hbad, hcmd]
  | assertTokens hbad hcmd => subst hcmd; simp [hbad]
  | badOperand hbad => simp [hbad]

/-- Settles O7: each condition stands in the operand check of the commands it is said of, and the check comes before the body. -/
theorem badOperandFaultsBeforeAnyAccess : Obligations.BadOperandFaultsBeforeAnyAccess := by
  intro s hr
  refine ⟨fun hn i hi => ?_, fun hd i hi => ?_, fun hm => ?_⟩
  · exact exec_command_badOperand hi hr (badOperand_of_badN i (badN_of_lt hn))
  · simp only [List.mem_cons, List.not_mem_nil, or_false] at hi
    rcases hi with rfl | rfl <;>
      exact exec_command_badOperand (by decide) hr (Bool.or_eq_true_iff.2 (.inr (badD_of_eq_zero hd)))
  · exact exec_command_badOperand (by decide) hr (Bool.or_eq_true_iff.2 (.inr (badM_of_lt hm)))

end Sys2Proof.Machine
end

section
/-! Reset and the bound of the retry loop (spec/70_reset_and_hazards.md R240, R250). -/

namespace Sys2Proof.Machine

/-! ### What the host sees of the reset block (R240) -/

/-- A reset takes effect whatever the block is doing: it tests neither BUSY nor PHASE. -/
theorem step_reset {s : State} {rest : List HostMove} (hh : s.host = .reset :: rest) :
    step s = .next (resetBlock { s with host := rest }) := (step_cons hh).trans rfl

/-- After a reset every register reads 0. -/
theorem readRegister_resetBlock (reg : Nat) (s : State) : readRegister reg (resetBlock s) = 0 := by
  unfold readRegister; split <;> rfl

/-- After a reset no buffer element holds a value. -/
theorem spaceGet_resetBlock (space : Space) (i : Nat) (s : State) : spaceGet space i (resetBlock s) = none := by
  cases space <;> rfl

/-! ### The attempts of the retry loop (R250) -/

/-- The attempt at the first power of two at or above the largest count fits the depth limit. -/
theorem attemptDepths_clog_fits {hist : List Nat} {d big : Nat} (hd : 1 ≤ d)
    (hsize : (nonzeroSymbols hist).length ≤ 2 ^ (d - 1)) (hbig : ∀ c ∈ hist, c ≤ big) :
    maxDepth (attemptDepths hist (2 ^ Nat.clog 2 big)) ≤ d :=
  attemptDepths_flat hd hsize fun c hc => calc
    c ≤ big := hbig c hc
    _ ≤ 2 ^ Nat.clog 2 big := Nat.le_pow_clog Nat.one_lt_two big
    _ ≤ 2 * 2 ^ Nat.clog 2 big := Nat.le_mul_of_pos_left _ Nat.two_pos

/-! ### The obligations -/

/-- Settles O9: the step is `resetBlock`, which writes every register and buffer and keeps what is not the block's. -/
theorem resetEntersTheResetState : Obligations.ResetEntersTheResetState := fun s rest hh =>
  ⟨resetBlock { s with host := rest }, step_reset hh, fun reg => readRegister_resetBlock reg _, resetBlock_phase _,
    fun space i => spaceGet_resetBlock space i _, resetBlock_params _, resetBlock_host _, resetBlock_reads _,
    resetBlock_expOut _, resetBlock_expPrev _⟩

/-- Settles O33: attempt number `clog big + 1` fits if no earlier one did, and the loop with 33 attempts accepts the same floor, since
it too takes the least that fits. -/
theorem retryLoopEndsInLogManyAttempts : Obligations.RetryLoopEndsInLogManyAttempts := by
  intro hist d big hd _ hsize hbig hlt
  have hfits : maxDepth (attemptDepths hist (2 ^ Nat.clog 2 big * 1)) ≤ d := by
    rw [Nat.mul_one]; exact attemptDepths_clog_fits hd hsize hbig
  have hspec := retryLoop_spec (Nat.clog 2 big + 1) 1 (Nat.clog 2 big) (Nat.lt_succ_self _) hfits
  simp only [Nat.mul_one] at hspec
  obtain ⟨j, hj, hloop, hfit, hleast⟩ := hspec
  have hclog : Nat.clog 2 big ≤ 32 := Nat.clog_le_of_le_pow hlt.le
  have hcounts : ∀ c ∈ hist, c < 2 ^ 32 := fun c hc => (hbig c hc).trans_lt hlt
  exact ⟨j, hj, by omega, hloop, retryLoop_least hd hsize hcounts hfit hleast⟩

end Sys2Proof.Machine
end
